-- ==== Sys2Proof/Word.lean ====
section
/-!
DEFINITION. The words of the block (spec/00_scope.md R8, spec/30_encoding.md R60): a command word is 16 bits, every
datum on the bus and in the clock chip is one byte, an analog sample is 10 bits. Bit 0 is the least significant.
-/

namespace Sys2Proof

/-- A 16-bit command or event word (R60). -/
abbrev Word := BitVec 16

/-- A byte on the two-wire bus (R44). -/
abbrev Byte := BitVec 8

/-- One sample of the 10-bit analog converter (R102, D31). -/
abbrev Sample := BitVec 10

end Sys2Proof
end

