-- ==== Sys2Proof/Syntax.lean ====
section
/-!
DEFINITION. The commands and agent events of the block, one constructor for each row of spec/opcode_table.json
(spec/30_encoding.md R62), with the operands of their formats (R61). Operand values that R64 reserves are terms too;
`Instr.wellFormed` refuses them.
-/

namespace Sys2Proof

/-- The operand of format D1: 0 = Up, 1 = Down (R61). -/
inductive Direction where
  | up
  | down
deriving DecidableEq, Repr

/-- The 22 rows of the opcode map (R62). -/
inductive Instr where
  /-- TMR_FAST (R121), a step of the fast timer. -/
  | tmrFast
  /-- TMR_SLOW (R122), a step of the slow timer. -/
  | tmrSlow
  /-- ISR_FAST (R123), the fast handler's body, run by the dispatch agent. -/
  | isrFast
  /-- ISR_SLOW (R124), the slow handler's body, run by the dispatch agent. -/
  | isrSlow
  /-- WAIT_TICK (R125). -/
  | waitTick
  /-- DISP_SET_DIGIT pos, val (R126), format PV. -/
  | dispSetDigit (pos : BitVec 2) (val : BitVec 4)
  /-- DISP_SET_MODE on (R127), format M1. -/
  | dispSetMode (on : Bool)
  /-- BUS_BEGIN b (R81), format B8. -/
  | busBegin (b : Byte)
  /-- BUS_WRITE b (R82), format B8. -/
  | busWrite (b : Byte)
  /-- BUS_READ last (R83), format L1. -/
  | busRead (last : Bool)
  /-- BUS_END (R84). -/
  | busEnd
  /-- TK_INIT (R94). -/
  | tkInit
  /-- TK_REFRESH (R95). -/
  | tkRefresh
  /-- TK_ADJ_MIN dir (R96), format D1. -/
  | tkAdjMin (dir : Direction)
  /-- TK_ADJ_HOUR dir (R97), format D1. -/
  | tkAdjHour (dir : Direction)
  /-- TK_TOGGLE_MODE (R98). -/
  | tkToggleMode
  /-- TK_GET_TIME (R99). -/
  | tkGetTime
  /-- KEY_DECODE (R102). -/
  | keyDecode
  /-- DEB_STEP (R112). -/
  | debStep
  /-- DEB_STEP_K key (R113), format K3. -/
  | debStepK (key : BitVec 3)
  /-- BTN_GET id (R114), format I3. -/
  | btnGet (id : BitVec 3)
  /-- BTN_CONSUME id (R115), format I3. -/
  | btnConsume (id : BitVec 3)
deriving DecidableEq, Repr

/-- The unit-0 words: steps of the timer and dispatch agents, which a program may not hold (R63). -/
def Instr.isAgentEvent : Instr → Bool
  | .tmrFast | .tmrSlow | .isrFast | .isrSlow => true
  | .waitTick | .dispSetDigit _ _ | .dispSetMode _ | .busBegin _ | .busWrite _ | .busRead _ | .busEnd | .tkInit
  | .tkRefresh | .tkAdjMin _ | .tkAdjHour _ | .tkToggleMode | .tkGetTime | .keyDecode | .debStep | .debStepK _
  | .btnGet _ | .btnConsume _ => false

end Sys2Proof
end

