-- ==== Sys2Proof/WellFormed.lean ====
section
/-!
DEFINITION. The operand values that spec/30_encoding.md R61 and R64 admit.
-/

namespace Sys2Proof

/-- A digit code of R67: 0 to 9, or BLANK (0xF). -/
def digitCodeOk (v : BitVec 4) : Bool := decide (v.toNat ≤ 9) || v == 0xF#4

/-- A key identity code of R68: 0 None, 1 to 4 the buttons. -/
def keyCodeOk (k : BitVec 3) : Bool := decide (k.toNat ≤ 4)

/-- A button id: 1 to 4 (R61). -/
def buttonCodeOk (i : BitVec 3) : Bool := decide (1 ≤ i.toNat) && decide (i.toNat ≤ 4)

/-- An instruction with no reserved operand value (R64). -/
def Instr.wellFormed : Instr → Bool
  | .dispSetDigit _ val => digitCodeOk val
  | .debStepK key => keyCodeOk key
  | .btnGet id => buttonCodeOk id
  | .btnConsume id => buttonCodeOk id
  | .tmrFast | .tmrSlow | .isrFast | .isrSlow | .waitTick | .dispSetMode _ | .busBegin _ | .busWrite _ | .busRead _
  | .busEnd | .tkInit | .tkRefresh | .tkAdjMin _ | .tkAdjHour _ | .tkToggleMode | .tkGetTime | .keyDecode
  | .debStep => true

end Sys2Proof
end

