-- ==== Sys2Proof/Decode.lean ====
section
/-!
DEFINITION. Decoding a command word and encoding an instruction, from the opcode map of spec/30_encoding.md R62, the
operand formats of R61 and the reserved encodings of R64. The decoder is total on all 65536 words (R65).
-/

namespace Sys2Proof

/-- Why a word is no instruction (R64): it matches no row, or it holds a reserved operand value. -/
inductive DecodeError where
  | encoding
  | operand
deriving DecidableEq, Repr

/-- One row of the opcode map (R62): a word `w` selects it when `w & mask = pattern`; `read` extracts its operands. -/
structure OpcodeRow where
  mnemonic : String
  pattern  : Word
  mask     : Word
  read     : Word → Instr

/-- Format D1's operand from opd[0] (R61). -/
def directionOfBit (down : Bool) : Direction := if down then .down else .up

/-- The rows of units 0 and 1 (R62). -/
def schedulerRows : List OpcodeRow :=
  [ ⟨"TMR_FAST", 0x0001, 0xFFFF, fun _ => .tmrFast⟩,
    ⟨"TMR_SLOW", 0x0002, 0xFFFF, fun _ => .tmrSlow⟩,
    ⟨"ISR_FAST", 0x0011, 0xFFFF, fun _ => .isrFast⟩,
    ⟨"ISR_SLOW", 0x0012, 0xFFFF, fun _ => .isrSlow⟩,
    ⟨"WAIT_TICK", 0x1000, 0xFFFF, fun _ => .waitTick⟩,
    ⟨"DISP_SET_DIGIT", 0x1100, 0xFFC0, fun w => .dispSetDigit (w.extractLsb' 4 2) (w.extractLsb' 0 4)⟩,
    ⟨"DISP_SET_MODE", 0x1200, 0xFFFE, fun w => .dispSetMode (w.getLsbD 0)⟩ ]

/-- The rows of unit 2 (R62). -/
def busRows : List OpcodeRow :=
  [ ⟨"BUS_BEGIN", 0x2000, 0xFF00, fun w => .busBegin (w.extractLsb' 0 8)⟩,
    ⟨"BUS_WRITE", 0x2100, 0xFF00, fun w => .busWrite (w.extractLsb' 0 8)⟩,
    ⟨"BUS_READ", 0x2200, 0xFFFE, fun w => .busRead (w.getLsbD 0)⟩,
    ⟨"BUS_END", 0x2300, 0xFFFF, fun _ => .busEnd⟩ ]

/-- The rows of unit 3 (R62). -/
def timeKeeperRows : List OpcodeRow :=
  [ ⟨"TK_INIT", 0x3000, 0xFFFF, fun _ => .tkInit⟩,
    ⟨"TK_REFRESH", 0x3100, 0xFFFF, fun _ => .tkRefresh⟩,
    ⟨"TK_ADJ_MIN", 0x3200, 0xFFFE, fun w => .tkAdjMin (directionOfBit (w.getLsbD 0))⟩,
    ⟨"TK_ADJ_HOUR", 0x3300, 0xFFFE, fun w => .tkAdjHour (directionOfBit (w.getLsbD 0))⟩,
    ⟨"TK_TOGGLE_MODE", 0x3400, 0xFFFF, fun _ => .tkToggleMode⟩,
    ⟨"TK_GET_TIME", 0x3500, 0xFFFF, fun _ => .tkGetTime⟩ ]

/-- The rows of unit 4 (R62). -/
def keyRows : List OpcodeRow :=
  [ ⟨"KEY_DECODE", 0x4000, 0xFFFF, fun _ => .keyDecode⟩,
    ⟨"DEB_STEP", 0x4100, 0xFFFF, fun _ => .debStep⟩,
    ⟨"DEB_STEP_K", 0x4200, 0xFFF8, fun w => .debStepK (w.extractLsb' 0 3)⟩,
    ⟨"BTN_GET", 0x4300, 0xFFF8, fun w => .btnGet (w.extractLsb' 0 3)⟩,
    ⟨"BTN_CONSUME", 0x4400, 0xFFF8, fun w => .btnConsume (w.extractLsb' 0 3)⟩ ]

/-- The opcode map (R62), in the table's order. -/
def opcodeRows : List OpcodeRow := schedulerRows ++ busRows ++ timeKeeperRows ++ keyRows

/-- A word selects a row (R62). -/
def OpcodeRow.selects (r : OpcodeRow) (w : Word) : Bool := w &&& r.mask == r.pattern

/-- The decoding procedure of R65: find the row, extract the operands, check the reserved values of R64. -/
def decode (w : Word) : Except DecodeError Instr :=
  match opcodeRows.find? (fun r => r.selects w) with
  | none => .error .encoding
  | some r => if (r.read w).wellFormed then .ok (r.read w) else .error .operand

/-- The word of one bit (formats L1, M1, D1: R61). -/
def wordOfBit (b : Bool) : Word := if b then 1 else 0

/-- Format D1's bit (R61). -/
def Direction.bit : Direction → Bool
  | .up => false
  | .down => true

/-- The word of an instruction: its row's `match` and its operand in the format's bits (R61, R62). -/
def encode : Instr → Word
  | .tmrFast => 0x0001
  | .tmrSlow => 0x0002
  | .isrFast => 0x0011
  | .isrSlow => 0x0012
  | .waitTick => 0x1000
  | .dispSetDigit pos val => 0x1100 ||| pos.setWidth 16 <<< 4 ||| val.setWidth 16
  | .dispSetMode on => 0x1200 ||| wordOfBit on
  | .busBegin b => 0x2000 ||| b.setWidth 16
  | .busWrite b => 0x2100 ||| b.setWidth 16
  | .busRead last => 0x2200 ||| wordOfBit last
  | .busEnd => 0x2300
  | .tkInit => 0x3000
  | .tkRefresh => 0x3100
  | .tkAdjMin dir => 0x3200 ||| wordOfBit dir.bit
  | .tkAdjHour dir => 0x3300 ||| wordOfBit dir.bit
  | .tkToggleMode => 0x3400
  | .tkGetTime => 0x3500
  | .keyDecode => 0x4000
  | .debStep => 0x4100
  | .debStepK key => 0x4200 ||| key.setWidth 16
  | .btnGet id => 0x4300 ||| id.setWidth 16
  | .btnConsume id => 0x4400 ||| id.setWidth 16

/-- The word whose low `nbits` bits are those of `w` and whose other bits are 0 (every row has 16 bits: R60). -/
def tableWord (nbits w : Nat) : Word := BitVec.ofNat 16 (w % 2 ^ nbits)

/-- What the decoder reads from an opcode-table word. -/
def decodeTableWord (nbits w : Nat) : Option Instr :=
  match decode (tableWord nbits w) with
  | .ok i => some i
  | .error _ => none

end Sys2Proof
end

