-- ==== Sys2Proof/Config.lean ====
section
/-!
DEFINITION. What an implementation fixes (the parameters of spec/00_scope.md R7) and the free values: the environment's
answers (R11) and the order of the agents' steps (spec/20_memory.md R52). A free value is an opaque constant with no
body, so that no proof can see what it is.
-/

namespace Sys2Proof

/-- The two tick sources (R145). -/
inductive Tick where
  | fast
  | slow
deriving DecidableEq, Repr, Inhabited

/-- TICK_PRIORITY (R146): which handler starts when both ticks are pending. -/
inductive TickPriority where
  | fastFirst
  | slowFirst
  | either
deriving DecidableEq, Repr, Inhabited

/-- The bus statuses, named abstractly (R71, D24). -/
inductive BusStatus where
  | startOk
  | rstartOk
  | slaWAck
  | slaWNack
  | slaRAck
  | slaRNack
  | dataTxAck
  | dataTxNack
  | dataRxAck
  | dataRxNack
  | other
deriving DecidableEq, Repr, Inhabited

/-- What the environment answers to one bus action (R80): `Env.polls` (`none` is "never"), `Env.status`, and
`Env.byte`, which only a receive action uses. -/
structure BusAnswer where
  polls  : Option Nat
  status : BusStatus
  byte   : Byte
deriving DecidableEq, Repr, Inhabited

/-- Which agent takes the next step (R10, R52). A dispatch turn carries the tick it would take if both are pending
and TICK_PRIORITY is Either (R146). -/
inductive Turn where
  | foreground
  | fastTimer
  | slowTimer
  | dispatch (prefer : Tick)
deriving DecidableEq, Repr, Inhabited

/-- The values of the fade-level counter, 0 to 5 (R7, R123). -/
def fadeLevels : Nat := 6

/-- The parameters of R7 that a claim may vary. The counts it fixes (digits, buttons, sample and count width) are in
the types. -/
structure Params where
  /-- T_DETECT: Idle steps to detect a press. -/
  tDetect : Nat := 7
  /-- T_DELAY1: Pushed steps to set delay1. -/
  tDelay1 : Nat := 300
  /-- T_DELAY2: period of the delay2 pulse. -/
  tDelay2 : Nat := 65
  /-- T_DELAY3: Pushed steps to set delay3. -/
  tDelay3 : Nat := 2000
  /-- T_RELEASE: Released steps to return to Idle. -/
  tRelease : Nat := 30
  /-- READ_POLL_LIMIT: ready polls allowed in a read. -/
  readPollLimit : Nat := 2000
  /-- WAIT_BOUND: ready polls allowed in begin and write; `none` is unbounded (D27). -/
  waitBound : Option Nat := none
  /-- TICK_PRIORITY (D5). -/
  tickPriority : TickPriority := .either
  /-- RTC_ADDR: the clock chip's 7-bit bus address, OPEN (D13). -/
  rtcAddr : BitVec 7
  /-- KEY_T1 to KEY_T4: the key band boundaries, OPEN (R101, D30). -/
  keyT1 : Nat
  keyT2 : Nat
  keyT3 : Nat
  keyT4 : Nat
deriving DecidableEq, Repr

/-- The constraints on the parameters: D45 for the thresholds, R101 for the key bands. -/
abbrev Params.ok (p : Params) : Prop :=
  1 ≤ p.tDetect ∧ 1 ≤ p.tDelay2 ∧ 1 ≤ p.tRelease ∧ p.tDelay1 ≤ p.tDelay3 ∧ p.tDelay3 < 2 ^ 16 ∧
    1 ≤ p.readPollLimit ∧ 142 < p.keyT1 ∧ p.keyT1 < p.keyT2 ∧ p.keyT2 < p.keyT3 ∧ p.keyT3 ≤ 758 ∧
    758 < p.keyT4 ∧ p.keyT4 ≤ 965

/-- Four key band boundaries that meet R101. The field values written here only show that the type has a member (the
test-only values of spec/95_test_vectors.md): `Config.keyBands` is opaque, so nothing can see them. -/
structure KeyBands where
  t1 : Nat := 256
  t2 : Nat := 512
  t3 : Nat := 700
  t4 : Nat := 900
  inOrder : 142 < t1 ∧ t1 < t2 ∧ t2 < t3 ∧ t3 ≤ 758 ∧ 758 < t4 ∧ t4 ≤ 965 := by decide
deriving DecidableEq, Repr, Inhabited

/-- FREE VALUE: the clock chip's bus address of the machine at reset. DESIGN CHOICE (safe), log 2. -/
opaque Config.rtcAddr : BitVec 7

/-- FREE VALUE: the key band boundaries of the machine at reset, of which only R101 is known. DESIGN CHOICE (safe),
log 3. -/
opaque Config.keyBands : KeyBands

/-- FREE VALUE: the environment's answers to bus actions, by a counter (R11). DESIGN CHOICE (safe), log 9. -/
opaque Config.freeAnswer : Nat → BusAnswer

/-- FREE VALUE: the analog samples, by a counter (R11). DESIGN CHOICE (safe), log 10. -/
opaque Config.freeSample : Nat → Sample

/-- FREE VALUE: the turns of the agents, by a counter (R52). DESIGN CHOICE (safe), log 6. -/
opaque Config.freeTurn : Nat → Turn

/-- The parameters at reset: the defaults of R7, and the free values where R7 says OPEN. -/
def Config.resetParams : Params where
  rtcAddr := Config.rtcAddr
  keyT1 := Config.keyBands.t1
  keyT2 := Config.keyBands.t2
  keyT3 := Config.keyBands.t3
  keyT4 := Config.keyBands.t4

end Sys2Proof
end

