-- ==== Sys2Proof/Machine/State.lean ====
section
/-!
DEFINITION. The state of the block as plain data: the registers of spec/10_state.md R20, grouped by unit as that file
groups them, the logs of R23, and the model's own inputs (the parameters, the program, the environment's answers, the
agents' turns). After it the faults (R142) and refusals (R143), and the state after reset
(spec/70_reset_and_hazards.md R170, R171).
-/

namespace Sys2Proof.Machine

/-- Which context owns the thread (R24, R153). -/
inductive Context where
  | fg
  | isrFast
  | isrSlow
deriving DecidableEq, Repr

/-- The bus engine's transaction state (R32, C10). -/
inductive BusPhase where
  | idle
  | tx
  | rx
  | done
deriving DecidableEq, Repr

/-- Result codes (R66). -/
inductive BusResult where
  | ok
  | startFailed
  | addressNacked
  | dataNacked
  | timeout
deriving DecidableEq, Repr

/-- `mode` of the time record (R25, R70). -/
inductive HourMode where
  | h24
  | h12
deriving DecidableEq, Repr

/-- `period` of the time record (R25, R70). -/
inductive DayPeriod where
  | am
  | pm
deriving DecidableEq, Repr

/-- The record of the `time` register (R25): the binary fields, each mirrored into BCD digits, the mode, the period. -/
structure TimeRec where
  sec    : BitVec 6
  min    : BitVec 6
  hr     : BitVec 5
  secT   : BitVec 4
  secU   : BitVec 4
  minT   : BitVec 4
  minU   : BitVec 4
  hrT    : BitVec 4
  hrU    : BitVec 4
  mode   : HourMode
  period : DayPeriod
deriving DecidableEq, Repr

/-- A button's id, 1 to 4 (R29). -/
inductive ButtonId where
  | b1
  | b2
  | b3
  | b4
deriving DecidableEq, Repr

/-- A key identity (R68): None or a button. -/
abbrev Key := Option ButtonId

/-- The states of a button's debounce machine (R29, R69). -/
inductive ButtonState where
  | idle
  | pushed
  | released
deriving DecidableEq, Repr

/-- One button record (R29); its `id` is its index, not stored. -/
structure Button where
  state  : ButtonState
  count  : BitVec 16
  action : Bool
  lock   : Bool
  delay1 : Bool
  delay2 : Bool
  delay3 : Bool
  query  : Bool
deriving DecidableEq, Repr

/-- The four button records `btn[1..4]` (R29). -/
structure Buttons where
  b1 : Button
  b2 : Button
  b3 : Button
  b4 : Button
deriving DecidableEq, Repr

/-- The DisplayBuffer's digits `disp_digit[0..3]`, each a digit code of R67 (R27). -/
structure Digits where
  d0 : BitVec 4
  d1 : BitVec 4
  d2 : BitVec 4
  d3 : BitVec 4
deriving DecidableEq, Repr

/-- One record of the display log: position, value, on (R28). -/
structure DispRecord where
  pos : BitVec 2
  val : BitVec 4
  on  : Bool
deriving DecidableEq, Repr

/-- The response records of R72. -/
inductive Response where
  | bus (r : BusResult)
  | busRead (r : BusResult) (byte : Option Byte)
  | tk (r : BusResult)
  | time (t : TimeRec)
  | key (k : Key)
  | button (id : ButtonId) (b : Button)
deriving DecidableEq, Repr

/-- What the bus engine does on the bus (R80 to R84): a start or repeated start, an address byte, a data byte, a read
answered with ACK or (when `last`) NACK, a stop. -/
inductive WireEvent where
  | start
  | repeatedStart
  | address (b : Byte)
  | write (b : Byte)
  | read (last : Bool)
  | stop
deriving DecidableEq, Repr

/-- The foreground (R22, R23): the program, which is loaded from outside (log 5), the command pointer, the response
log. -/
structure Foreground where
  prog : List Word
  pc   : Nat
  resp : List Response
deriving DecidableEq, Repr

/-- The Scheduler unit's registers (R20, R24, R27, R28) and the display log (R23). -/
structure Scheduler where
  ie          : Bool
  fastPending : Bool
  slowPending : Bool
  ctx         : Context
  fgWait      : Bool
  loopReady   : Bool
  sel         : BitVec 2
  fade        : BitVec 3
  digits      : Digits
  dispOn      : Bool
  outPos      : BitVec 2
  outVal      : BitVec 4
  dispLog     : List DispRecord
deriving DecidableEq, Repr

/-- The Bus unit's registers (R32). `data` is `none` while it is unwritten, which is the spec's own value (R20, R171,
log 13). The model's own fields: `wire`, what the engine has done on the bus (log 12); `answers`, the environment's
coming answers, and `answerDraws`, the index of the next free one once that list is empty (log 9). -/
structure BusUnit where
  phase       : BusPhase
  result      : BusResult
  data        : Option Byte
  wire        : List WireEvent
  answers     : List BusAnswer
  answerDraws : Nat
deriving DecidableEq, Repr

/-- The TimeKeeper unit's registers (R25, R33). `time` and `haltS` are `none` while unwritten, which is the spec's own
value (R20, R25, R171, log 13). -/
structure TimeKeeper where
  time     : Option TimeRec
  haltS    : Option Byte
  tkResult : BusResult
deriving DecidableEq, Repr

/-- The Key unit's registers (R29, R30). The model's own fields: `samples`, the coming analog samples, and
`sampleDraws`, the index of the next free one once that list is empty (log 10). -/
structure KeyUnit where
  keyReg      : Key
  btn         : Buttons
  samples     : List Sample
  sampleDraws : Nat
deriving DecidableEq, Repr

/-- The machine. `par` is written by no step (log 1). The model's own fields: `turns`, the agents' coming turns, and
`turnDraws`, the index of the next free one once that list is empty (log 6); `hung`, a bus wait that never ends
(R80, R183, log 11). -/
structure State where
  par       : Params
  fg        : Foreground
  sched     : Scheduler
  bus       : BusUnit
  tk        : TimeKeeper
  keys      : KeyUnit
  turns     : List Turn
  turnDraws : Nat
  hung      : Bool
deriving DecidableEq, Repr

/-- The model faults of R142. Each carries the state that the faulting step leaves (R144, log 14). -/
inductive Fault where
  /-- `Unwritten`: raised by TK_ADJ_MIN, TK_ADJ_HOUR, TK_TOGGLE_MODE, TK_GET_TIME and the fallback of `halt()` when
  they read `time` while it is unwritten. Safe: the run stops where the spec says it faults (D11). -/
  | unwritten (left : State)
  /-- `RtcDataInvalid`: raised by TK_REFRESH, TK_TOGGLE_MODE and ISR_SLOW when the three bytes of a successful refresh
  do not decode. Safe: the run stops where the spec says it faults (D19). -/
  | rtcDataInvalid (left : State)
deriving DecidableEq, Repr

/-- The refusals of R143. A refused command changes nothing. -/
inductive Refusal where
  /-- An instruction without a meaning, by its mnemonic. No arm raises it. Safe: it only stops. -/
  | notModelled (mnemonic : String)
  /-- `RefusedEncoding`: raised by the foreground step on a word that matches no row (R64). Safe: the spec refuses it. -/
  | refusedEncoding
  /-- `RefusedOperand`: raised by the foreground step, and by the meanings of DISP_SET_DIGIT, DEB_STEP_K, BTN_GET and
  BTN_CONSUME, on a reserved operand value (R64). Safe: the spec refuses it. -/
  | refusedOperand
  /-- `RefusedAgentWord`: raised by the foreground step on a unit-0 word in the program (R63). Safe: the spec refuses
  it. -/
  | refusedAgentWord
  /-- `RefusedBusMisuse`: raised by BUS_WRITE outside Tx, BUS_READ outside Rx, and WAIT_TICK and the TimeKeeper
  commands other than TK_GET_TIME while the bus is open (R143). Safe: the spec refuses it. -/
  | refusedBusMisuse
deriving DecidableEq, Repr

/-- The digit code BLANK (R67). -/
def blank : BitVec 4 := 0xF#4

/-- A button after reset: Idle, every flag 0, count 0 (R30). -/
def Button.reset : Button where
  state := .idle
  count := 0
  action := false
  lock := false
  delay1 := false
  delay2 := false
  delay3 := false
  query := false

/-- The Scheduler unit after reset (R20, R171). -/
def Scheduler.reset : Scheduler where
  ie := false
  fastPending := false
  slowPending := false
  ctx := .fg
  fgWait := false
  loopReady := false
  sel := 0
  fade := 0
  digits := ⟨blank, blank, blank, blank⟩
  dispOn := false
  outPos := 0
  outVal := blank
  dispLog := []

/-- The Bus unit after reset (R20, R171). -/
def BusUnit.reset : BusUnit where
  phase := .idle
  result := .ok
  data := none
  wire := []
  answers := []
  answerDraws := 0

/-- The machine right after reset (R170, R171, R174): the registers as the spec states them (`time`, `haltS`
and `bus.data` at R20's "unwritten"), the parameters at their defaults or free (R7), no program loaded, no input
queued. -/
def State.reset : State where
  par := Config.resetParams
  fg := { prog := [], pc := 0, resp := [] }
  sched := Scheduler.reset
  bus := BusUnit.reset
  tk := { time := none, haltS := none, tkResult := .ok }
  keys := { keyReg := none, btn := ⟨Button.reset, Button.reset, Button.reset, Button.reset⟩, samples := [],
            sampleDraws := 0 }
  turns := []
  turnDraws := 0
  hung := false

end Sys2Proof.Machine
end

