-- ==== Sys2Proof/Machine/Flags.lean ====
section
/-!
DEFINITION. The status values set as side effects (spec/10_state.md R36): the first error of several results
(spec/42_timekeeper.md R93), and the button flags, which one debounce step computes (spec/44_debounce.md R105 to R111).
The block has no arithmetic flags.
-/

namespace Sys2Proof.Machine

/-- `first_err`: the first result that is not Ok, or Ok (R93). -/
def firstErr : List BusResult → BusResult
  | [] => .ok
  | .ok :: rs => firstErr rs
  | r :: _ => r

/-- A button's count plus one, stored in its 16 bits (R8, D32). -/
def Button.bump (b : Button) : Button := { b with count := b.count + 1 }

/-- An Idle step (R107): count towards a press, or back to rest. -/
def idleStep (p : Params) (matched : Bool) (b : Button) : Button :=
  let b := if matched then b.bump else if b.count ≠ 0 then { b with count := b.count - 1 } else b
  if p.tDetect ≤ b.count.toNat then { b with action := true, lock := true, count := 0, state := .pushed }
  else if b.count = 0 then { b with action := false, lock := false, query := false }
  else b

/-- The delay2 pulse of a matched Pushed step, after that step's other updates (R109). -/
def pulses (p : Params) (b : Button) : Bool :=
  b.delay1 && decide (p.tDelay1 ≤ b.count.toNat) && (b.count.toNat - p.tDelay1) % p.tDelay2 == 0

/-- The latched hold flags of a matched Pushed step, after its count (R108). -/
def latchHolds (p : Params) (b : Button) : Button :=
  { b with delay1 := b.delay1 || decide (p.tDelay1 ≤ b.count.toNat)
           delay3 := b.delay3 || decide (p.tDelay3 ≤ b.count.toNat) }

/-- A Pushed step: hold flags while matched (R108, R109), else to Released (R110). -/
def pushedStep (p : Params) (matched : Bool) (b : Button) : Button :=
  if matched then
    let b := latchHolds p b.bump
    { b with delay2 := b.delay2 || pulses p b }
  else { b with count := 0, state := .released }

/-- A Released step (R111): count the quiet period, which a match restarts (D36); its end clears every flag. -/
def releasedStep (p : Params) (matched : Bool) (b : Button) : Button :=
  if matched then { b with count := 0 }
  else if p.tRelease ≤ b.bump.count.toNat then
    { state := .idle, count := 0, action := false, lock := false, delay1 := false, delay2 := false, delay3 := false,
      query := false }
  else b.bump

/-- `bstep(b, k)`: one debounce step of a button (R106). -/
def bstep (p : Params) (matched : Bool) (b : Button) : Button :=
  let b := { b with delay2 := false }
  match b.state with
  | .idle => idleStep p matched b
  | .pushed => pushedStep p matched b
  | .released => releasedStep p matched b

end Sys2Proof.Machine
end

