-- ==== Sys2Proof/Machine/Operands.lean ====
section
/-!
DEFINITION. Operand forms and value encodings: reading the K3 and I3 operands (spec/30_encoding.md R61), the codes of
the register values (R66 to R70), the bus address byte (spec/20_memory.md R43), the analog bands (spec/43_keydecoder.md
R100).
-/

namespace Sys2Proof.Machine

/-- The button of an I3 operand; `none` for the reserved values 0 and 5 to 7 (R61, R64). -/
def buttonOfCode (c : BitVec 3) : Option ButtonId :=
  if c = 1#3 then some .b1 else if c = 2#3 then some .b2 else if c = 3#3 then some .b3
  else if c = 4#3 then some .b4 else none

/-- The key of a K3 operand: `some none` is None; `none` for the reserved values 5 to 7 (R61, R64). -/
def keyOfCode (c : BitVec 3) : Option Key := if c = 0#3 then some none else (buttonOfCode c).map some

/-- A button's number (R29). -/
def ButtonId.code : ButtonId → BitVec 3
  | .b1 => 1#3
  | .b2 => 2#3
  | .b3 => 3#3
  | .b4 => 4#3

/-- A key identity's code (R68). -/
def keyCode (k : Key) : BitVec 3 :=
  match k with
  | none => 0#3
  | some i => i.code

/-- Result codes (R66). -/
def BusResult.code : BusResult → BitVec 3
  | .ok => 0#3
  | .startFailed => 1#3
  | .addressNacked => 2#3
  | .dataNacked => 3#3
  | .timeout => 4#3

/-- The codes of `bus_phase` (R20, C10). -/
def BusPhase.code : BusPhase → BitVec 2
  | .idle => 0#2
  | .tx => 1#2
  | .rx => 2#2
  | .done => 3#2

/-- Button state codes (R69). -/
def ButtonState.code : ButtonState → BitVec 2
  | .idle => 0#2
  | .pushed => 1#2
  | .released => 2#2

/-- The code of `mode`, the polarity of hours bit 6 (R70). -/
def HourMode.code : HourMode → BitVec 1
  | .h24 => 0#1
  | .h12 => 1#1

/-- The code of `period`, the polarity of hours bit 5 in H12 (R70). -/
def DayPeriod.code : DayPeriod → BitVec 1
  | .am => 0#1
  | .pm => 1#1

/-- `addr_byte(a, rw)`: the address in bits 7:1, the direction in bit 0, 1 for read (R43). -/
def addrByte (a : BitVec 7) (read : Bool) : Byte := a.setWidth 8 <<< 1 ||| (if read then 1#8 else 0#8)

/-- The direction bit of an address byte: 1 is read (R43, R81). -/
def addressedForRead (b : Byte) : Bool := b.getLsbD 0

/-- `band(s)`: the key whose voltage band holds the sample (R100). -/
def band (p : Params) (s : Sample) : Key :=
  if s.toNat < p.keyT1 then some .b1
  else if s.toNat < p.keyT2 then some .b2
  else if s.toNat < p.keyT3 then some .b3
  else if s.toNat < p.keyT4 then some .b4
  else none

end Sys2Proof.Machine
end

