-- ==== Sys2Proof/Machine/Ops.lean ====
section
/-!
DEFINITION. The named operations over the registers: completing a command (spec/10_state.md R22, R23), the register
files (R27, R29), the draws of the environment (spec/00_scope.md R11), the bookkeeping of a hang
(spec/70_reset_and_hazards.md R183), and entering and leaving a tick handler (spec/60_exceptions.md R147).
-/

namespace Sys2Proof.Machine

/-- What a meaning and a step answer. -/
abbrev StepOutcome := Host.Outcome State Fault Refusal

/-- `pc <- pc + 1` (R22). -/
def State.advance (s : State) : State := { s with fg := { s.fg with pc := s.fg.pc + 1 } }

/-- `resp <- resp ++ [r]` (R23). -/
def State.respond (r : Response) (s : State) : State := { s with fg := { s.fg with resp := s.fg.resp ++ [r] } }

/-- The thread holds for ever in a bus wait (R80, R183). -/
def State.hang (s : State) : State := { s with hung := true }

/-- `disp_digit[p]` (R27). -/
def Digits.get (d : Digits) (p : BitVec 2) : BitVec 4 :=
  if p = 0#2 then d.d0 else if p = 1#2 then d.d1 else if p = 2#2 then d.d2 else d.d3

/-- `disp_digit[p] <- v` (R27). -/
def Digits.set (d : Digits) (p : BitVec 2) (v : BitVec 4) : Digits :=
  if p = 0#2 then { d with d0 := v } else if p = 1#2 then { d with d1 := v }
  else if p = 2#2 then { d with d2 := v } else { d with d3 := v }

/-- `btn[i]` (R29). -/
def Buttons.get (b : Buttons) : ButtonId → Button
  | .b1 => b.b1
  | .b2 => b.b2
  | .b3 => b.b3
  | .b4 => b.b4

/-- `btn[i] <- v` (R29). -/
def Buttons.set (b : Buttons) (i : ButtonId) (v : Button) : Buttons :=
  match i with
  | .b1 => { b with b1 := v }
  | .b2 => { b with b2 := v }
  | .b3 => { b with b3 := v }
  | .b4 => { b with b4 := v }

/-- Every button takes its debounce step with key `k`; button i is matched when `k` is i (R105, R112). -/
def Buttons.step (p : Params) (k : Key) (b : Buttons) : Buttons where
  b1 := bstep p (k == some .b1) b.b1
  b2 := bstep p (k == some .b2) b.b2
  b3 := bstep p (k == some .b3) b.b3
  b4 := bstep p (k == some .b4) b.b4

/-- The environment's answer to the `k`-th coming bus action: the queued ones first, then the free ones (R11, log 9). -/
def BusUnit.comingAnswer (u : BusUnit) (k : Nat) : BusAnswer :=
  match u.answers[k]? with
  | some a => a
  | none => Config.freeAnswer (u.answerDraws + (k - u.answers.length))

/-- The environment's answer to the next bus action. -/
def BusUnit.answer (u : BusUnit) : BusAnswer := u.comingAnswer 0

/-- The Bus unit once the next answer has been taken. -/
def BusUnit.consume (u : BusUnit) : BusUnit :=
  match u.answers with
  | [] => { u with answerDraws := u.answerDraws + 1 }
  | _ :: as => { u with answers := as }

/-- The next analog sample: queued or free (R11, R102, log 10). -/
def KeyUnit.sample (k : KeyUnit) : Sample :=
  match k.samples with
  | [] => Config.freeSample k.sampleDraws
  | x :: _ => x

/-- The Key unit once the next sample has been taken. -/
def KeyUnit.consume (k : KeyUnit) : KeyUnit :=
  match k.samples with
  | [] => { k with sampleDraws := k.sampleDraws + 1 }
  | _ :: xs => { k with samples := xs }

/-- The agent whose turn is next: queued or free (R52, log 6). -/
def State.turn (s : State) : Turn :=
  match s.turns with
  | [] => Config.freeTurn s.turnDraws
  | t :: _ => t

/-- The state once the next turn has been taken. -/
def State.consumeTurn (s : State) : State :=
  match s.turns with
  | [] => { s with turnDraws := s.turnDraws + 1 }
  | _ :: ts => { s with turns := ts }

/-- Handler entry (R147, R150): clear the pending bit, mask interrupts, set the context; nothing else is saved. -/
def enterHandler (x : Tick) (s : State) : State :=
  match x with
  | .fast => { s with sched := { s.sched with fastPending := false, ie := false, ctx := .isrFast } }
  | .slow => { s with sched := { s.sched with slowPending := false, ie := false, ctx := .isrSlow } }

/-- Return from a handler (R147, R151): `ctx <- FG`, `ie <- 1`. -/
def leaveHandler (s : State) : State := { s with sched := { s.sched with ctx := .fg, ie := true } }

/-- The tick a dispatch takes: the only pending one, or TICK_PRIORITY's choice of two (R146); under Either the turn's
own choice. -/
def pickTick (p : TickPriority) (prefer : Tick) (fast slow : Bool) : Option Tick :=
  match fast, slow with
  | false, false => none
  | true, false => some .fast
  | false, true => some .slow
  | true, true =>
    match p with
    | .fastFirst => some .fast
    | .slowFirst => some .slow
    | .either => some prefer

end Sys2Proof.Machine
end

