-- ==== Sys2Proof/Machine/BusEngine.lean ====
section
/-!
DEFINITION. The two-wire master engine: the actions of spec/41_bus.md R80 to R84 and the transactions MemRead and
MemWrite of spec/20_memory.md R46 to R48. It works on the Bus unit alone, so that nothing else can change in a bus
action.
-/

namespace Sys2Proof.Machine

/-- How a bus operation ends: done, or in a wait that never ends (R80). -/
inductive BusOut (α : Type) where
  | done (a : α) (u : BusUnit)
  | hang (u : BusUnit)
deriving Repr

/-- Run the next operation if this one is done. -/
def BusOut.andThen {α β : Type} (x : BusOut α) (f : α → BusUnit → BusOut β) : BusOut β :=
  match x with
  | .done a u => f a u
  | .hang u => .hang u

/-- How a wait ends (R80). -/
inductive WaitEnd where
  | ready
  | timedOut
  | forever
deriving DecidableEq, Repr

/-- `wait`: `polls` is Env.polls, with `none` for never; a bound of `none` is unbounded (R80, D27). -/
def waitEnd (bound polls : Option Nat) : WaitEnd :=
  match bound, polls with
  | none, none => .forever
  | none, some _ => .ready
  | some _, none => .timedOut
  | some n, some d => if n ≤ d then .timedOut else .ready

/-- Record what the engine does on the bus (log 12). -/
def BusUnit.emit (e : WireEvent) (u : BusUnit) : BusUnit := { u with wire := u.wire ++ [e] }

/-- `stop()`: a stop condition; `bus_phase <- Idle` (R81). -/
def BusUnit.stop (u : BusUnit) : BusUnit := { u.emit .stop with phase := .idle }

/-- One engine action and its wait (R80): the environment's answer when it became ready, `none` when it timed out. -/
def busAction (bound : Option Nat) (e : WireEvent) (u : BusUnit) : BusOut (Option BusAnswer) :=
  match waitEnd bound u.answer.polls with
  | .ready => .done (some u.answer) (u.emit e).consume
  | .timedOut => .done none (u.emit e).consume
  | .forever => .hang (u.emit e).consume

/-- An error ends the action: stop the bus, set `bus_result` (R81 to R83, R140). -/
def BusUnit.abort (r : BusResult) (u : BusUnit) : BusUnit := { u.stop with result := r }

/-- The start condition a begin sends: from Idle a start, else a repeated start (R81). -/
def startEvent (p : BusPhase) : WireEvent := if p = .idle then .start else .repeatedStart

/-- The status that acknowledges an address byte in its direction (R81). -/
def addressAck (b : Byte) : BusStatus := if addressedForRead b then .slaRAck else .slaWAck

/-- The phase after an acknowledged address (R81). -/
def addressPhase (b : Byte) : BusPhase := if addressedForRead b then .rx else .tx

/-- `begin(b)`: start or repeated start, then the address byte (R81). -/
def engineBegin (p : Params) (b : Byte) (u : BusUnit) : BusOut BusResult :=
  (busAction p.waitBound (startEvent u.phase) u).andThen fun a u =>
    match a with
    | none => .done .timeout (u.abort .timeout)
    | some a =>
      if a.status ≠ .startOk ∧ a.status ≠ .rstartOk then .done .startFailed (u.abort .startFailed)
      else
        (busAction p.waitBound (.address b) u).andThen fun a u =>
          match a with
          | none => .done .timeout (u.abort .timeout)
          | some a =>
            if a.status ≠ addressAck b then .done .addressNacked (u.abort .addressNacked)
            else .done .ok { u with phase := addressPhase b, result := .ok }

/-- `write_byte(b)` (R82). -/
def engineWrite (p : Params) (b : Byte) (u : BusUnit) : BusOut BusResult :=
  (busAction p.waitBound (.write b) u).andThen fun a u =>
    match a with
    | none => .done .timeout (u.abort .timeout)
    | some a =>
      if a.status ≠ .dataTxAck then .done .dataNacked (u.abort .dataNacked)
      else .done .ok { u with result := .ok }

/-- The status a read expects: NACK returned for the last byte, else ACK returned (R83). -/
def readStatus (last : Bool) : BusStatus := if last then .dataRxNack else .dataRxAck

/-- `read_byte(last)`: the result, and the byte when it is Ok (R83). -/
def engineRead (p : Params) (last : Bool) (u : BusUnit) : BusOut (BusResult × Option Byte) :=
  (busAction (some p.readPollLimit) (.read last) u).andThen fun a u =>
    match a with
    | none => .done (.timeout, none) (u.abort .timeout)
    | some a =>
      if a.status ≠ readStatus last then .done (.dataNacked, none) (u.abort .dataNacked)
      else
        .done (.ok, some a.byte)
          { u with data := some a.byte, result := .ok, phase := if last then .done else u.phase }

/-- The data bytes of a MemWrite, up to the first error (R47, R48). -/
def writeBytes (p : Params) : List Byte → BusUnit → BusOut BusResult
  | [], u => .done .ok u
  | b :: bs, u =>
    (engineWrite p b u).andThen fun r u => if r = .ok then writeBytes p bs u else .done r u

/-- The data bytes of a MemRead, the last with a not-acknowledge, up to the first error, which returns none of them
(R46, R48). -/
def readBytes (p : Params) : Nat → BusUnit → BusOut (BusResult × List Byte)
  | 0, u => .done (.ok, []) u
  | n + 1, u =>
    (engineRead p (n == 0) u).andThen fun rb u =>
      match rb with
      | (.ok, some b) =>
        (readBytes p n u).andThen fun rest u =>
          if rest.1 = .ok then .done (.ok, b :: rest.2) u else .done (rest.1, []) u
      | (r, _) => .done (r, []) u

/-- `MemWrite(reg, n, v)`: one transaction that sets the register pointer and writes the bytes (R47). Every way out
of it ends with `end()`. -/
def memWrite (p : Params) (reg : Byte) (v : List Byte) (u : BusUnit) : BusOut BusResult :=
  (engineBegin p (addrByte p.rtcAddr false) u).andThen fun r u =>
    if r ≠ .ok then .done r u.stop
    else
      (engineWrite p reg u).andThen fun r u =>
        if r ≠ .ok then .done r u.stop
        else (writeBytes p v u).andThen fun r u => .done r u.stop

/-- `MemRead(reg, n)`: one transaction that sets the register pointer, repeats the start, and reads n bytes (R46).
Every way out of it ends with `end()`. -/
def memRead (p : Params) (reg : Byte) (n : Nat) (u : BusUnit) : BusOut (BusResult × List Byte) :=
  (engineBegin p (addrByte p.rtcAddr false) u).andThen fun r u =>
    if r ≠ .ok then .done (r, []) u.stop
    else
      (engineWrite p reg u).andThen fun r u =>
        if r ≠ .ok then .done (r, []) u.stop
        else
          (engineBegin p (addrByte p.rtcAddr true) u).andThen fun r u =>
            if r ≠ .ok then .done (r, []) u.stop
            else (readBytes p n u).andThen fun rb u => .done rb u.stop

end Sys2Proof.Machine
end

