-- ==== Sys2Proof/Machine/BusCommands.lean ====
section
/-!
DEFINITION. The four commands of the Bus unit (spec/41_bus.md R81 to R84): the engine's action, admitted by the phase
(R85), with the response and the command pointer.
-/

namespace Sys2Proof.Machine

/-- The state after a bus command that responds: the response of its result, `pc` advanced; a hang holds (R80). -/
def BusOut.command {α : Type} (x : BusOut α) (f : α → Response) (s : State) : State :=
  match x with
  | .done a u => (({ s with bus := u }).respond (f a)).advance
  | .hang u => ({ s with bus := u }).hang

/-- BUS_BEGIN b (R81), admitted in every phase. -/
def execBusBegin (b : Byte) (s : State) : StepOutcome := .next ((engineBegin s.par b s.bus).command .bus s)

/-- BUS_WRITE b (R82), admitted only in Tx. -/
def execBusWrite (b : Byte) (s : State) : StepOutcome :=
  if s.bus.phase ≠ .tx then .refused .refusedBusMisuse else .next ((engineWrite s.par b s.bus).command .bus s)

/-- BUS_READ last (R83), admitted only in Rx. -/
def execBusRead (last : Bool) (s : State) : StepOutcome :=
  if s.bus.phase ≠ .rx then .refused .refusedBusMisuse
  else .next ((engineRead s.par last s.bus).command (fun rb => .busRead rb.1 rb.2) s)

/-- BUS_END (R84), admitted in every phase: no wait, no response, `bus_result` kept. -/
def execBusEnd (s : State) : StepOutcome := .next ({ s with bus := s.bus.stop }).advance

end Sys2Proof.Machine
end

