-- ==== Sys2Proof/Machine/KeyCommands.lean ====
section
/-!
DEFINITION. The commands of the Key unit: KEY_DECODE (spec/43_keydecoder.md R102) and the debounce commands
(spec/44_debounce.md R112 to R115).
-/

namespace Sys2Proof.Machine

/-- KEY_DECODE (R102): take a sample, decode its band into `key_reg`, respond. -/
def execKeyDecode (s : State) : StepOutcome :=
  let k := band s.par s.keys.sample
  .next (({ s with keys := { s.keys.consume with keyReg := k } }).respond (.key k)).advance

/-- All four buttons take a step with key `k` (R112, R113). -/
def stepButtons (k : Key) (s : State) : State := { s with keys := { s.keys with btn := s.keys.btn.step s.par k } }

/-- DEB_STEP (R112): with the last decoded key. -/
def execDebStep (s : State) : StepOutcome := .next (stepButtons s.keys.keyReg s).advance

/-- DEB_STEP_K key (R113); a reserved key is refused (R64). -/
def execDebStepK (key : BitVec 3) (s : State) : StepOutcome :=
  match keyOfCode key with
  | none => .refused .refusedOperand
  | some k => .next (stepButtons k s).advance

/-- BTN_GET id (R114): a snapshot; a reserved id is refused (R64). -/
def execBtnGet (id : BitVec 3) (s : State) : StepOutcome :=
  match buttonOfCode id with
  | none => .refused .refusedOperand
  | some i => .next (s.respond (.button i (s.keys.btn.get i))).advance

/-- `btn[id].action <- 0` (R115). -/
def Buttons.consumeAction (b : Buttons) (i : ButtonId) : Buttons := b.set i { b.get i with action := false }

/-- BTN_CONSUME id (R115); a reserved id is refused (R64). -/
def execBtnConsume (id : BitVec 3) (s : State) : StepOutcome :=
  match buttonOfCode id with
  | none => .refused .refusedOperand
  | some i => .next ({ s with keys := { s.keys with btn := s.keys.btn.consumeAction i } }).advance

end Sys2Proof.Machine
end

