-- ==== Sys2Proof/Machine/TimeCalc.lean ====
section
/-!
DEFINITION. The arithmetic of the TimeKeeper unit: BCD (spec/00_scope.md R9), building and decoding a time record
(spec/42_timekeeper.md R90, R91), the step functions of the adjustments (R92), the mode conversion (R98), and the hours
byte the block writes (spec/30_encoding.md R70). It computes in natural numbers and narrows once, in `mkTime` (R8).
-/

namespace Sys2Proof.Machine

/-- `bcd(v)`: tens in the high nibble, units in the low one (R9). -/
def bcd (v : Nat) : Byte := BitVec.ofNat 8 (v / 10 * 16 + v % 10)

/-- `mk_time(s, m, h, mode, period)`: each binary field together with its BCD digits (R26, R90). -/
def mkTime (s m h : Nat) (mode : HourMode) (period : DayPeriod) : TimeRec where
  sec := BitVec.ofNat 6 s
  min := BitVec.ofNat 6 m
  hr := BitVec.ofNat 5 h
  secT := BitVec.ofNat 4 (s / 10)
  secU := BitVec.ofNat 4 (s % 10)
  minT := BitVec.ofNat 4 (m / 10)
  minU := BitVec.ofNat 4 (m % 10)
  hrT := BitVec.ofNat 4 (h / 10)
  hrU := BitVec.ofNat 4 (h % 10)
  mode := mode
  period := period

/-- `DEFAULT_TIME`: 12:00:00, H12, AM (R90, C3). -/
def defaultTime : TimeRec := mkTime 0 0 12 .h12 .am

/-- The period that H24 derives from the hour (R91, R97). -/
def periodOfHour (h : Nat) : DayPeriod := if 12 ≤ h then .pm else .am

/-- The bits `hi` down to `lo` of a chip byte, as a number (R8). -/
def fieldOf (b : Byte) (hi lo : Nat) : Nat := (b.extractLsb' lo (hi - lo + 1)).toNat

/-- The hour, mode and period of an hours byte, not yet checked (R41, R91). -/
def decodeHour (b : Byte) : Option (Nat × HourMode × DayPeriod) :=
  if b.getLsbD 6 then
    let h := 10 * fieldOf b 4 4 + fieldOf b 3 0
    if h < 1 ∨ 12 < h then none else some (h, .h12, if b.getLsbD 5 then .pm else .am)
  else
    let h := 10 * fieldOf b 5 4 + fieldOf b 3 0
    if 23 < h then none else some (h, .h24, periodOfHour h)

/-- `decode(b0, b1, b2)`: the time that the seconds, minutes and hours bytes hold; `none` is Invalid (R91). -/
def decodeTime (b0 b1 b2 : Byte) : Option TimeRec :=
  if 9 < fieldOf b0 3 0 ∨ 9 < fieldOf b1 3 0 ∨ 9 < fieldOf b2 3 0 then none
  else
    let s := 10 * fieldOf b0 6 4 + fieldOf b0 3 0
    let m := 10 * fieldOf b1 6 4 + fieldOf b1 3 0
    if 59 < s ∨ 59 < m then none
    else (decodeHour b2).map fun x => mkTime s m x.1 x.2.1 x.2.2

/-- `flip` (R92). -/
def DayPeriod.flip : DayPeriod → DayPeriod
  | .am => .pm
  | .pm => .am

/-- `min_step` (R92). -/
def minStep (m : Nat) : Direction → Nat
  | .up => if m = 59 then 0 else m + 1
  | .down => if m = 0 then 59 else m - 1

/-- `hour_step_24` (R92). -/
def hourStep24 (h : Nat) : Direction → Nat
  | .up => if h = 23 then 0 else h + 1
  | .down => if h = 0 then 23 else h - 1

/-- `hour_step_12` (R92): the period flips at 11 to 12 and 12 to 1, and back (C7, D22). -/
def hourStep12 (h : Nat) (p : DayPeriod) : Direction → Nat × DayPeriod
  | .up => if h = 11 then (12, p.flip) else if h = 12 then (1, p.flip) else (h + 1, p)
  | .down => if h = 1 then (12, p.flip) else if h = 12 then (11, p.flip) else (h - 1, p)

/-- The hour and period of an hour adjustment, by mode (R97, D21). -/
def hourStep (mode : HourMode) (h : Nat) (p : DayPeriod) (dir : Direction) : Nat × DayPeriod :=
  match mode with
  | .h24 => (hourStep24 h dir, periodOfHour (hourStep24 h dir))
  | .h12 => hourStep12 h p dir

/-- `to12` (R98, D23). -/
def to12 (h : Nat) : Nat × DayPeriod :=
  if h = 0 then (12, .am) else if h < 12 then (h, .am) else if h = 12 then (12, .pm) else (h - 12, .pm)

/-- `to24` (R98). -/
def to24 (h : Nat) (p : DayPeriod) : Nat :=
  if p = .pm ∧ h < 12 then h + 12 else if p = .am ∧ h = 12 then 0 else h

/-- The time after a minute adjustment (R96). -/
def TimeRec.adjustMinute (t : TimeRec) (dir : Direction) : TimeRec :=
  mkTime t.sec.toNat (minStep t.min.toNat dir) t.hr.toNat t.mode t.period

/-- The time after an hour adjustment (R97). -/
def TimeRec.adjustHour (t : TimeRec) (dir : Direction) : TimeRec :=
  let hp := hourStep t.mode t.hr.toNat t.period dir
  mkTime t.sec.toNat t.min.toNat hp.1 t.mode hp.2

/-- The time in the other mode (R98). -/
def TimeRec.toggleMode (t : TimeRec) : TimeRec :=
  match t.mode with
  | .h24 =>
    let hp := to12 t.hr.toNat
    mkTime t.sec.toNat t.min.toNat hp.1 .h12 hp.2
  | .h12 =>
    let h := to24 t.hr.toNat t.period
    mkTime t.sec.toNat t.min.toNat h .h24 (periodOfHour h)

/-- `hour_byte(t)`: the hours register as the block writes it (R70). -/
def hourByte (t : TimeRec) : Byte :=
  let digits := t.hrT.setWidth 8 <<< 4 ||| t.hrU.setWidth 8
  match t.mode with
  | .h12 => 0x40#8 ||| (if t.period = .pm then 0x20#8 else 0x00#8) ||| digits
  | .h24 => digits

end Sys2Proof.Machine
end

