-- ==== Sys2Proof/Machine/TimeOps.lean ====
section
/-!
DEFINITION. The operations that the TimeKeeper commands and the slow handler share (spec/42_timekeeper.md): the halt
bracket (R93), the refresh (R95), and how an operation on the whole state goes on, hangs or faults (spec/60_exceptions.md
R142, R144; spec/70_reset_and_hazards.md R183).
-/

namespace Sys2Proof.Machine

/-- How an operation on the state ends: done, in a wait that never ends (R183), or in a model fault (R142). -/
inductive Flow (α : Type) where
  | done (a : α) (s : State)
  | hang (s : State)
  | fault (f : Fault)
deriving Repr

/-- Run the next operation if this one is done. -/
def Flow.andThen {α β : Type} (x : Flow α) (f : α → State → Flow β) : Flow β :=
  match x with
  | .done a s => f a s
  | .hang s => .hang s
  | .fault e => .fault e

/-- A step's outcome from an operation and what follows it: a hang leaves the thread held where it stands. -/
def Flow.ending {α : Type} (x : Flow α) (f : α → State → State) : StepOutcome :=
  match x with
  | .done a s => .next (f a s)
  | .hang s => .next s.hang
  | .fault e => .fault e

/-- A bus operation's end, in the state whose Bus unit it worked on. -/
def BusOut.into {α : Type} (s : State) (x : BusOut α) : Flow α :=
  match x with
  | .done a u => .done a { s with bus := u }
  | .hang u => .hang { s with bus := u }

/-- `MemRead` on the state (R46). -/
def readChip (reg : Byte) (n : Nat) (s : State) : Flow (BusResult × List Byte) := (memRead s.par reg n s.bus).into s

/-- `MemWrite` of one register on the state (R47). -/
def writeChip (reg v : Byte) (s : State) : Flow BusResult := (memWrite s.par reg [v] s.bus).into s

/-- The chip's registers that the block touches (R40, R42). -/
def regSeconds : Byte := 0x00
def regMinutes : Byte := 0x01
def regHours : Byte := 0x02
def regControl : Byte := 0x07

/-- `time <- t`. -/
def State.setTime (t : TimeRec) (s : State) : State := { s with tk := { s.tk with time := some t } }

/-- `halt_s <- b`. -/
def State.setHalt (b : Byte) (s : State) : State := { s with tk := { s.tk with haltS := some b } }

/-- The seconds byte a halt captures: the one read, else the in-memory seconds; `none` when those are unwritten
(R93, D16). -/
def haltByte (time : Option TimeRec) : BusResult × List Byte → Option Byte
  | (.ok, b :: _) => some b
  | _ => time.map fun t => bcd t.sec.toNat

/-- `halt()` (R93): capture the seconds register, write it back with the halt bit set. -/
def halt (s : State) : Flow BusResult :=
  (readChip regSeconds 1 s).andThen fun rb s =>
    match haltByte s.tk.time rb with
    | none => .fault (.unwritten s)
    | some b => (writeChip regSeconds (b ||| 0x80) (s.setHalt b)).andThen fun r s => .done (firstErr [rb.1, r]) s

/-- `unhalt()` (R93): write the captured byte with the halt bit clear. It always follows a halt, which wrote `halt_s`;
a read of it unwritten would be the fault (spec/93_implementation_defined.md row 15). -/
def unhalt (s : State) : Flow BusResult :=
  match s.tk.haltS with
  | none => .fault (.unwritten s)
  | some b => writeChip regSeconds (b &&& 0x7F) s

/-- `refresh()` (R95): read the three time registers; a bus error leaves `time`, bytes that do not decode fault. -/
def refresh (s : State) : Flow BusResult :=
  (readChip regSeconds 3 s).andThen fun rb s =>
    match rb with
    | (.ok, [b0, b1, b2]) =>
      match decodeTime b0 b1 b2 with
      | some t => .done .ok (s.setTime t)
      | none => .fault (.rtcDataInvalid s)
    | (r, _) => .done r s

end Sys2Proof.Machine
end

