-- ==== Sys2Proof/Machine/SchedulerUnit.lean ====
section
/-!
DEFINITION. The Scheduler unit (spec/45_scheduler.md): the timer events (R121, R122), the handler bodies (R123, R124),
WAIT_TICK (R125) and the DisplayBuffer setters (R126, R127). A handler's entry and return are `enterHandler` and
`leaveHandler`, which the dispatch step puts around its body.
-/

namespace Sys2Proof.Machine

/-- TMR_FAST (R121): a tick that finds its bit set is lost. -/
def execTmrFast (s : State) : StepOutcome := .next { s with sched := { s.sched with fastPending := true } }

/-- TMR_SLOW (R122). -/
def execTmrSlow (s : State) : StepOutcome := .next { s with sched := { s.sched with slowPending := true } }

/-- `fade <- (fade + 1) mod 6` (R123). -/
def nextFade (f : BitVec 3) : BitVec 3 := BitVec.ofNat 3 ((f.toNat + 1) % fadeLevels)

/-- The Scheduler unit after the fast handler's body (R123): the selector advances before the output is loaded. -/
def Scheduler.fastBody (c : Scheduler) : Scheduler :=
  let sel := c.sel + 1
  let val := if c.dispOn then c.digits.get sel else blank
  { c with loopReady := true, sel := sel, outPos := sel, outVal := val, fade := nextFade c.fade,
           dispLog := c.dispLog ++ [⟨sel, val, c.dispOn⟩] }

/-- ISR_FAST (R123). -/
def execIsrFast (s : State) : StepOutcome := .next { s with sched := s.sched.fastBody }

/-- ISR_SLOW (R124): refresh, its result discarded; `tk_result`, `resp` and `pc` are not written (D39). -/
def execIsrSlow (s : State) : StepOutcome := (refresh s).ending fun _ s => s

/-- The registers of a WAIT_TICK entry: `ie <- 1; fg_wait <- 1`, with `pc` kept (R125). -/
def enterWait (s : State) : State := { s with sched := { s.sched with ie := true, fgWait := true } }

/-- The registers of a WAIT_TICK completion, one atomic step (R125, D7). -/
def completeWait (s : State) : State :=
  ({ s with sched := { s.sched with ie := false, loopReady := false, fgWait := false } }).advance

/-- WAIT_TICK (R125): its entry, its completion, or, while neither is enabled, the busy wait of R158, which changes
nothing. -/
def execWaitTick (s : State) : StepOutcome :=
  if s.sched.fgWait then
    if s.sched.ctx = .fg ∧ s.sched.loopReady then .next (completeWait s) else .next s
  else if s.bus.phase ≠ .idle then .refused .refusedBusMisuse
  else .next (enterWait s)

/-- DISP_SET_DIGIT pos, val (R126); a reserved digit code is refused (R64). -/
def execDispSetDigit (pos : BitVec 2) (val : BitVec 4) (s : State) : StepOutcome :=
  if 10 ≤ val.toNat ∧ val ≠ blank then .refused .refusedOperand
  else .next ({ s with sched := { s.sched with digits := s.sched.digits.set pos val } }).advance

/-- DISP_SET_MODE on (R127). -/
def execDispSetMode (on : Bool) (s : State) : StepOutcome :=
  .next ({ s with sched := { s.sched with dispOn := on } }).advance

end Sys2Proof.Machine
end

