-- ==== Sys2Proof/Machine/TimeKeeperUnit.lean ====
section
/-!
DEFINITION. The six commands of the TimeKeeper unit (spec/42_timekeeper.md R94 to R99).
-/

namespace Sys2Proof.Machine

/-- The end of a TimeKeeper command: `tk_result`, its response, `pc` (R94 to R98). -/
def finishTk (r : BusResult) (s : State) : State :=
  (({ s with tk := { s.tk with tkResult := r } }).respond (.tk r)).advance

/-- A TimeKeeper command that uses the bus: refused while a transaction is open (R86, D28). -/
def tkCommand (body : Flow BusResult) (s : State) : StepOutcome :=
  if s.bus.phase ≠ .idle then .refused .refusedBusMisuse else body.ending finishTk

/-- The seconds byte TK_INIT writes back: the one read, else 0x00, with the halt bit clear (R94, D17). -/
def initSeconds : BusResult × List Byte → Byte
  | (.ok, b :: _) => b &&& 0x7F
  | _ => 0x00

/-- The transactions of TK_INIT and its write of `time` (R94). -/
def tkInitBody (s : State) : Flow BusResult :=
  (writeChip regControl 0x00 s).andThen fun r1 s =>
    (readChip regSeconds 1 s).andThen fun rb s =>
      (writeChip regSeconds (initSeconds rb) s).andThen fun r3 s =>
        .done (firstErr [r1, rb.1, r3]) (s.setTime defaultTime)

/-- TK_INIT (R94). -/
def execTkInit (s : State) : StepOutcome := tkCommand (tkInitBody s) s

/-- TK_REFRESH (R95). -/
def execTkRefresh (s : State) : StepOutcome := tkCommand (refresh s) s

/-- A mutation of `time` under the halt bracket (R96, R97): from the time `t` read first, the new time `new t` and the
byte `byte t` written to `reg`; the new time is kept whatever the write returns (D20). -/
def mutateTime (new : TimeRec → TimeRec) (reg : Byte) (byte : TimeRec → Byte) (s : State) : Flow BusResult :=
  match s.tk.time with
  | none => .fault (.unwritten s)
  | some t =>
    (halt s).andThen fun r1 s =>
      (writeChip reg (byte t) (s.setTime (new t))).andThen fun r2 s =>
        (unhalt s).andThen fun r3 s => .done (firstErr [r1, r2, r3]) s

/-- TK_ADJ_MIN dir (R96). -/
def execTkAdjMin (dir : Direction) (s : State) : StepOutcome :=
  tkCommand (mutateTime (fun t => t.adjustMinute dir) regMinutes (fun t => bcd (minStep t.min.toNat dir)) s) s

/-- TK_ADJ_HOUR dir (R97). -/
def execTkAdjHour (dir : Direction) (s : State) : StepOutcome :=
  tkCommand (mutateTime (fun t => t.adjustHour dir) regHours (fun t => hourByte (t.adjustHour dir)) s) s

/-- The body of TK_TOGGLE_MODE (R98): the conversion proceeds on the old `time` when the re-read fails (D15). -/
def toggleBody (s : State) : Flow BusResult :=
  (halt s).andThen fun r1 s =>
    (refresh s).andThen fun r2 s =>
      match s.tk.time with
      | none => .fault (.unwritten s)
      | some t =>
        (writeChip regHours (hourByte t.toggleMode) (s.setTime t.toggleMode)).andThen fun r3 s =>
          (unhalt s).andThen fun r4 s => .done (firstErr [r1, r2, r3, r4]) s

/-- TK_TOGGLE_MODE (R98). -/
def execTkToggleMode (s : State) : StepOutcome := tkCommand (toggleBody s) s

/-- TK_GET_TIME (R99), admitted in every `bus_phase`. -/
def execTkGetTime (s : State) : StepOutcome :=
  match s.tk.time with
  | none => .fault (.unwritten s)
  | some t => .next (s.respond (.time t)).advance

end Sys2Proof.Machine
end

