-- ==== Sys2Proof/Machine/Dispatch.lean ====
section
/-!
DEFINITION. The dispatch of an instruction to its meaning, one arm for each row of spec/opcode_table.json.
-/

namespace Sys2Proof.Machine

def exec (i : Instr) (s : State) : Host.Outcome State Fault Refusal :=
  match i with
  | .tmrFast => Sys2Proof.Machine.execTmrFast s
  | .tmrSlow => Sys2Proof.Machine.execTmrSlow s
  | .isrFast => Sys2Proof.Machine.execIsrFast s
  | .isrSlow => Sys2Proof.Machine.execIsrSlow s
  | .waitTick => Sys2Proof.Machine.execWaitTick s
  | .dispSetDigit pos val => Sys2Proof.Machine.execDispSetDigit pos val s
  | .dispSetMode on => Sys2Proof.Machine.execDispSetMode on s
  | .busBegin b => Sys2Proof.Machine.execBusBegin b s
  | .busWrite b => Sys2Proof.Machine.execBusWrite b s
  | .busRead last => Sys2Proof.Machine.execBusRead last s
  | .busEnd => Sys2Proof.Machine.execBusEnd s
  | .tkInit => Sys2Proof.Machine.execTkInit s
  | .tkRefresh => Sys2Proof.Machine.execTkRefresh s
  | .tkAdjMin dir => Sys2Proof.Machine.execTkAdjMin dir s
  | .tkAdjHour dir => Sys2Proof.Machine.execTkAdjHour dir s
  | .tkToggleMode => Sys2Proof.Machine.execTkToggleMode s
  | .tkGetTime => Sys2Proof.Machine.execTkGetTime s
  | .keyDecode => Sys2Proof.Machine.execKeyDecode s
  | .debStep => Sys2Proof.Machine.execDebStep s
  | .debStepK key => Sys2Proof.Machine.execDebStepK key s
  | .btnGet id => Sys2Proof.Machine.execBtnGet id s
  | .btnConsume id => Sys2Proof.Machine.execBtnConsume id s

end Sys2Proof.Machine
end

