-- ==== Sys2Proof/Machine/Agents.lean ====
section
/-!
DEFINITION. The agents' steps (spec/00_scope.md R10): the foreground step, which decodes and runs the command at `pc`
(spec/10_state.md R22, spec/30_encoding.md R63 to R65), the timers' events, and the dispatch of a pending tick
(spec/60_exceptions.md R147). An agent whose step is not enabled leaves the state as it is (log 7).
-/

namespace Sys2Proof.Machine

/-- The foreground's next command word; `none` at the end of the program (R22, R176). -/
def commandWord (s : State) : Option Word := s.fg.prog[s.fg.pc]?

/-- The foreground has a step: it owns the thread, which does not hang (R10, R148, R183). -/
def foregroundEnabled (s : State) : Bool := !s.hung && s.sched.ctx == .fg

/-- Run a command word of the program (R63, R64, R65). -/
def runWord (w : Word) (s : State) : StepOutcome :=
  match decode w with
  | .error .encoding => .refused .refusedEncoding
  | .error .operand => .refused .refusedOperand
  | .ok i => if i.isAgentEvent then .refused .refusedAgentWord else exec i s

/-- The foreground's step (R22). -/
def foregroundStep (s : State) : StepOutcome :=
  if foregroundEnabled s then
    match commandWord s with
    | none => .next s
    | some w => runWord w s
  else .next s

/-- The tick a dispatch step takes: enabled exactly when `ie = 1`, `ctx = FG` and a tick is pending (R147), and no bus
wait hangs the thread (R183). -/
def dispatchChoice (prefer : Tick) (s : State) : Option Tick :=
  if !s.hung && s.sched.ie && s.sched.ctx == .fg then
    pickTick s.par.tickPriority prefer s.sched.fastPending s.sched.slowPending
  else none

/-- The word of the handler that a tick runs (R145, R149). -/
def handlerOf : Tick → Instr
  | .fast => .isrFast
  | .slow => .isrSlow

/-- The end of a handler run: return, unless its bus wait hangs, which leaves `ctx` in the handler (R147, R183). -/
def afterHandler : StepOutcome → StepOutcome
  | .next t => if t.hung then .next t else .next (leaveHandler t)
  | .fault f => .fault f
  | .refused r => .refused r

/-- The dispatch step (R147): entry, the whole handler body, return. -/
def dispatchStep (prefer : Tick) (s : State) : StepOutcome :=
  match dispatchChoice prefer s with
  | none => .next s
  | some x => afterHandler (exec (handlerOf x) (enterHandler x s))

/-- The step of the agent whose turn it is (R10, R52). -/
def agentStep (t : Turn) (s : State) : StepOutcome :=
  match t with
  | .foreground => foregroundStep s
  | .fastTimer => exec .tmrFast s
  | .slowTimer => exec .tmrSlow s
  | .dispatch prefer => dispatchStep prefer s

/-- The program with `w` as the command at `pc` (log 5). -/
def placeWord (w : Word) (f : Foreground) : Foreground :=
  { f with prog := f.prog.take f.pc ++ List.replicate (f.pc - f.prog.length) 0 ++ w :: f.prog.drop (f.pc + 1) }

/-- The state in which the very next step runs the word `w` (log 5): a command is placed at `pc` and the foreground
given the turn and the thread; a timer event is given its turn; a handler body is made the one pending tick, with
dispatch enabled. -/
def placeNext (w : Word) (s : State) : State :=
  match decode w with
  | .ok .tmrFast => { s with turns := .fastTimer :: s.turns }
  | .ok .tmrSlow => { s with turns := .slowTimer :: s.turns }
  | .ok .isrFast =>
    { s with turns := .dispatch .fast :: s.turns, hung := false
             sched := { s.sched with ie := true, ctx := .fg, fastPending := true, slowPending := false } }
  | .ok .isrSlow =>
    { s with turns := .dispatch .slow :: s.turns, hung := false
             sched := { s.sched with ie := true, ctx := .fg, fastPending := false, slowPending := true } }
  | _ =>
    { s with turns := .foreground :: s.turns, hung := false, fg := placeWord w s.fg
             sched := { s.sched with ctx := .fg } }

end Sys2Proof.Machine
end

