-- ==== Sys2Proof/Machine/Step.lean ====
section
/-!
DEFINITION. One step of the machine (spec/20_memory.md R52): the agent whose turn is next takes its step. And the
placing of a word where the next step runs it.
-/

namespace Sys2Proof.Machine

/-- One step of one agent; each choice of the agent is free (R52, log 6). -/
def step (s : State) : Host.Outcome State Fault Refusal := agentStep s.turn s.consumeTurn

/-- `s` with the opcode-table word `w` placed where the next step runs it (log 5). -/
def State.withFetchWord (s : State) (nbits w : Nat) : State := placeNext (tableWord nbits w) s

end Sys2Proof.Machine
end

