-- ==== Sys2Proof/Safety.lean ====
section
/-!
DEFINITION. What the statements speak of: the environment assumptions a claim may name (spec/00_scope.md R11), the
actions of a transaction with their successes and failures (spec/20_memory.md R46 to R48), what a group of instructions leaves unchanged, how
a TimeKeeper command ends (spec/42_timekeeper.md R93 to R97), the invariant of the machine (spec/10_state.md R26, R27,
R31; spec/45_scheduler.md R129), and runs with their fairness assumptions (spec/70_reset_and_hazards.md R189).
-/

namespace Sys2Proof.Machine

/-- Environment assumption: none of the next `n` bus waits hangs, because it ends or because WAIT_BOUND is a number
(R183, R189). -/
def waitsEnd (n : Nat) (s : State) : Prop :=
  ∀ k < n, s.par.waitBound.isSome = true ∨ (s.bus.comingAnswer k).polls.isSome = true

/-- The bound of the wait that an action with this status ends: READ_POLL_LIMIT for a receive, else WAIT_BOUND (R80). -/
def boundOf (p : Params) : BusStatus → Option Nat
  | .dataRxAck | .dataRxNack => some p.readPollLimit
  | .startOk | .rstartOk | .slaWAck | .slaWNack | .slaRAck | .slaRNack | .dataTxAck | .dataTxNack | .other => p.waitBound

/-- The answer comes in time and carries this status. -/
def grants (p : Params) (a : BusAnswer) (st : BusStatus) : Bool :=
  a.status == st && waitEnd (boundOf p st) a.polls == .ready

/-- Environment assumption: from the `k`-th coming answer on, the answers carry these statuses in time. -/
def grantsAll (p : Params) (u : BusUnit) : Nat → List BusStatus → Bool
  | _, [] => true
  | k, st :: sts => grants p (u.comingAnswer k) st && grantsAll p u (k + 1) sts

/-- The statuses of a successful MemWrite of one byte (R47). -/
def writeStatuses : List BusStatus := [.startOk, .slaWAck, .dataTxAck, .dataTxAck]

/-- The statuses of a successful MemRead of `n + 1` bytes (R46). -/
def readStatuses (n : Nat) : List BusStatus :=
  [.startOk, .slaWAck, .dataTxAck, .rstartOk, .slaRAck] ++ List.replicate n .dataRxAck ++ [.dataRxNack]

/-- The actions of a MemWrite from an idle bus, in order, before the closing stop (R47). -/
def writeActions (p : Params) (reg : Byte) (v : List Byte) : List WireEvent :=
  [.start, .address (addrByte p.rtcAddr false), .write reg] ++ v.map .write

/-- The actions of a MemRead of `n + 1` bytes from an idle bus, in order, before the closing stop (R46). -/
def readActions (p : Params) (reg : Byte) (n : Nat) : List WireEvent :=
  [.start, .address (addrByte p.rtcAddr false), .write reg, .repeatedStart, .address (addrByte p.rtcAddr true)] ++
    List.replicate n (.read false) ++ [.read true]

/-- What a successful MemWrite of one byte puts on the bus (R47). -/
def writeTranscript (p : Params) (reg v : Byte) : List WireEvent := writeActions p reg [v] ++ [.stop]

/-- What a successful MemRead of `n + 1` bytes puts on the bus (R46). -/
def readTranscript (p : Params) (reg : Byte) (n : Nat) : List WireEvent := readActions p reg n ++ [.stop]

/-- Everything but the Bus unit, the TimeKeeper unit and the foreground is the same. -/
def sameOutsideTime (s t : State) : Prop :=
  t.par = s.par ∧ t.sched = s.sched ∧ t.keys = s.keys ∧ t.turns = s.turns ∧ t.turnDraws = s.turnDraws

/-- The foreground after a command that responds `r` (R22, R23). -/
def respondedWith (f : Foreground) (r : Response) : Foreground := { f with resp := f.resp ++ [r], pc := f.pc + 1 }

/-- The state after a bus command that leaves the Bus unit `u` and responds `r`. -/
def busCommandEnd (s : State) (u : BusUnit) (r : Response) : State :=
  { s with bus := u, fg := respondedWith s.fg r }

/-- The state after a TimeKeeper command that leaves the Bus unit `u`, the time `t` and the captured byte `h`, and
reports `r` (R94 to R98). -/
def tkCommandEnd (s : State) (u : BusUnit) (t : TimeRec) (h : Option Byte) (r : BusResult) : State :=
  { s with bus := u, tk := { time := some t, haltS := h, tkResult := r }, fg := respondedWith s.fg (.tk r) }

/-- The engine's events that take an answer and wait for it (R80). -/
def WireEvent.isAction : WireEvent → Bool
  | .start | .repeatedStart | .address _ | .write _ | .read _ => true
  | .stop => false

/-- The engine's events whose wait WAIT_BOUND bounds: a start, an address, a data byte sent (R80). -/
def WireEvent.waitsForBound : WireEvent → Bool
  | .start | .repeatedStart | .address _ | .write _ => true
  | .read _ | .stop => false

/-- The bound of an action's wait: READ_POLL_LIMIT for a read, else WAIT_BOUND (R80). -/
def WireEvent.bound (p : Params) : WireEvent → Option Nat
  | .read _ => some p.readPollLimit
  | .start | .repeatedStart | .address _ | .write _ | .stop => p.waitBound

/-- The statuses with which an action succeeds (R81 to R83): either start status, the acknowledge of the address byte's
direction, the acknowledge of a data byte sent, and after a received byte the one the engine itself returned. -/
def WireEvent.goodStatuses : WireEvent → List BusStatus
  | .start | .repeatedStart => [.startOk, .rstartOk]
  | .address b => [if b.getLsbD 0 then .slaRAck else .slaWAck]
  | .write _ => [.dataTxAck]
  | .read last => [if last then .dataRxNack else .dataRxAck]
  | .stop => []

/-- The error of an action with another status (R140). -/
def WireEvent.statusError : WireEvent → BusResult
  | .start | .repeatedStart => .startFailed
  | .address _ => .addressNacked
  | .write _ | .read _ => .dataNacked
  | .stop => .ok

/-- With the answer `a` the action `e` succeeds (R80 to R83). -/
def WireEvent.succeeds (p : Params) (e : WireEvent) (a : BusAnswer) : Prop :=
  waitEnd (e.bound p) a.polls = .ready ∧ a.status ∈ e.goodStatuses

/-- With the answer `a` the action `e` fails with the error `r` (R80 to R83). -/
def WireEvent.failsWith (p : Params) (e : WireEvent) (a : BusAnswer) (r : BusResult) : Prop :=
  (waitEnd (e.bound p) a.polls = .timedOut ∧ r = .timeout) ∨
  (waitEnd (e.bound p) a.polls = .ready ∧ a.status ∉ e.goodStatuses ∧ r = e.statusError)

/-- The first `k` actions of `l` succeed, with the coming answers in order. -/
def firstSucceed (p : Params) (u : BusUnit) (l : List WireEvent) (k : Nat) : Prop :=
  ∀ j < k, ∀ e, l[j]? = some e → e.succeeds p (u.comingAnswer j)

/-- How many answers a list of events has taken. -/
def actions (l : List WireEvent) : Nat := l.countP WireEvent.isAction

/-- From `s` the command is held, in `t`, in a start, address or transmit wait with no bound whose answer never comes
(R80, R183, log 11); a read wait is always bounded. -/
def stuckWait (s t : State) : Prop :=
  s.par.waitBound = none ∧ t.hung = true ∧ t.fg = s.fg ∧ sameOutsideTime s t ∧
  ∃ l e, t.bus.wire = s.bus.wire ++ l ++ [e] ∧ e.waitsForBound = true ∧
    (s.bus.comingAnswer (actions l)).polls = none

/-- The seconds byte that a halt captures from its read: the byte read, or after an error the in-memory seconds in BCD
(R93). -/
def captures (time : Option TimeRec) (rb : BusResult × List Byte) (h : Byte) : Prop :=
  (rb.1 = .ok → rb.2 = [h]) ∧ (rb.1 ≠ .ok → ∃ t, time = some t ∧ h = bcd t.sec.toNat)

/-- 12:00:00, H12, AM (R90). -/
def noonAm : TimeRec :=
  { sec := 0, min := 0, hr := 12, secT := 0, secU := 0, minT := 0, minU := 0, hrT := 1, hrU := 2, mode := .h12
    period := .am }

/-- TK_INIT from `s` ends in `t`: its three transactions one after the other, each whatever the one before returned, the
time 12:00:00 H12 AM, and the first error reported (R94). After a failed read the seconds byte written is 0x00. -/
def initEffect (s t : State) : Prop :=
  ∃ r1 u1 rb u2 z r3 u3,
    memWrite s.par 0x07 [0x00] s.bus = .done r1 u1 ∧ memRead s.par 0x00 1 u1 = .done rb u2 ∧
    (rb.1 = .ok → ∃ b, rb.2 = [b] ∧ z = b &&& 0x7F) ∧ (rb.1 ≠ .ok → z = 0x00) ∧
    memWrite s.par 0x00 [z] u2 = .done r3 u3 ∧ u3.phase = .idle ∧
    t = tkCommandEnd s u3 noonAm s.tk.haltS (firstErr [r1, rb.1, r3])

/-- An adjustment from `s` to the time `t1`, which writes `byte` to `reg`, ends in `t`: halt, write and un-halt, each
whatever the one before returned, and the first error reported (R93, R96, R97). -/
def adjustEffect (t1 : TimeRec) (reg byte : Byte) (s t : State) : Prop :=
  ∃ rb u1 h r2 u2 r3 u3 r4 u4,
    memRead s.par 0x00 1 s.bus = .done rb u1 ∧ captures s.tk.time rb h ∧
    memWrite s.par 0x00 [h ||| 0x80] u1 = .done r2 u2 ∧ memWrite s.par reg [byte] u2 = .done r3 u3 ∧
    memWrite s.par 0x00 [h &&& 0x7F] u3 = .done r4 u4 ∧ u4.phase = .idle ∧
    t = tkCommandEnd s u4 t1 (some h) (firstErr [rb.1, r2, r3, r4])

/-- Each BCD pair is the tens and units of its field (R26). -/
def TimeRec.bcdOk (t : TimeRec) : Prop :=
  t.secT.toNat = t.sec.toNat / 10 ∧ t.secU.toNat = t.sec.toNat % 10 ∧
  t.minT.toNat = t.min.toNat / 10 ∧ t.minU.toNat = t.min.toNat % 10 ∧
  t.hrT.toNat = t.hr.toNat / 10 ∧ t.hrU.toNat = t.hr.toNat % 10

/-- The ranges of R25. -/
def TimeRec.inRange (t : TimeRec) : Prop :=
  t.sec.toNat ≤ 59 ∧ t.min.toNat ≤ 59 ∧
  (t.mode = .h24 → t.hr.toNat ≤ 23) ∧ (t.mode = .h12 → 1 ≤ t.hr.toNat ∧ t.hr.toNat ≤ 12)

/-- A time the block can hold: in range, its digits right, and in H24 its period that of the hour (R25, R26). -/
def TimeRec.ok (t : TimeRec) : Prop :=
  t.inRange ∧ t.bcdOk ∧ (t.mode = .h24 → t.period = periodOfHour t.hr.toNat)

/-- A button record the block can hold (R31, R109, R116). -/
structure Button.Ok (p : Params) (b : Button) : Prop where
  idle : b.state = .idle → b.count.toNat + 1 ≤ p.tDetect ∧ b.action = false ∧ b.lock = false ∧ b.delay1 = false ∧
    b.delay2 = false ∧ b.delay3 = false
  released : b.state = .released → b.count.toNat + 1 ≤ p.tRelease ∧ b.lock = true ∧ b.delay2 = false
  pushed : b.state = .pushed → b.lock = true ∧
    (b.delay2 = true → b.delay1 = true ∧ p.tDelay1 ≤ b.count.toNat ∧ (b.count.toNat - p.tDelay1) % p.tDelay2 = 0)
  query : b.query = false

/-- The invariant of the machine. -/
structure State.Inv (s : State) : Prop where
  /-- The parameters meet D45 and R101. -/
  par : s.par.ok
  /-- The digit codes are legal (R27, R67). -/
  digits : ∀ p, digitCodeOk (s.sched.digits.get p) = true
  outVal : digitCodeOk s.sched.outVal = true
  /-- The fade counter is 0 to 5 (R20). -/
  fade : s.sched.fade.toNat < fadeLevels
  /-- Interrupts are enabled exactly while the foreground waits and owns the thread (R24, R148). -/
  ie : s.sched.ie = (s.sched.fgWait && s.sched.ctx == .fg)
  /-- Between steps a handler owns the thread only if its bus wait hangs, inside WAIT_TICK (R147, R183). -/
  handler : s.sched.ctx ≠ .fg → s.sched.ctx = .isrSlow ∧ s.hung = true ∧ s.sched.fgWait = true
  /-- `loop_ready = 0` whenever `fg_wait = 0` (R129). -/
  loopReady : s.sched.fgWait = false → s.sched.loopReady = false
  /-- While `fg_wait = 1` the foreground is inside WAIT_TICK, and the bus is idle unless a handler hangs (R24, R86). -/
  waiting : s.sched.fgWait = true → commandWord s = some 0x1000#16 ∧ (s.sched.ctx = .fg → s.hung = false ∧ s.bus.phase = .idle)
  /-- An error has stopped the bus (R140). -/
  stopped : s.bus.result ≠ .ok → s.bus.phase = .idle
  /-- After the last byte of a read the byte is in `bus_data` (R83). -/
  lastByte : s.bus.phase = .done → s.bus.data.isSome = true
  /-- A written time is one the block can hold (R25, R26). -/
  time : ∀ t, s.tk.time = some t → t.ok
  /-- The button records (R31). -/
  buttons : ∀ i, (s.keys.btn.get i).Ok s.par

/-! ### Runs (R52, R189). A claim of progress names these assumptions; log 27 says how R189's words are read. -/

/-- The step of `s` when the coming turn is `t` (log 6). -/
def stepUnder (t : Turn) (s : State) : StepOutcome := step { s with turns := [t] }

/-- `r` is an endless run in which the agents step in the order `sched`: no step faults or is refused. -/
def RunUnder (sched : Nat → Turn) (r : Nat → State) : Prop := ∀ n, stepUnder (sched n) (r n) = .next (r (n + 1))

/-- A turn comes again and again. -/
def Recurs (sched : Nat → Turn) (t : Turn) : Prop := ∀ n, ∃ m, n ≤ m ∧ sched m = t

/-- The tick `x` is pending and a dispatch is enabled (R147). -/
def tickReady (x : Tick) (s : State) : Prop :=
  s.sched.ie = true ∧ s.sched.ctx = .fg ∧
    (match x with
     | .fast => s.sched.fastPending
     | .slow => s.sched.slowPending) = true

/-- At step `n` the tick `x` is dispatched. -/
def dispatchesAt (sched : Nat → Turn) (r : Nat → State) (x : Tick) (n : Nat) : Prop :=
  ∃ prefer, sched n = .dispatch prefer ∧ dispatchChoice prefer (r n) = some x

/-- Dispatch is weakly fair: a tick that stays ready for dispatch is dispatched. -/
def FairDispatch (sched : Nat → Turn) (r : Nat → State) : Prop :=
  ∀ x n, (∀ m, n ≤ m → tickReady x (r m)) → ∃ m, n ≤ m ∧ dispatchesAt sched r x m

/-- No bus wait of the run hangs (R183). -/
def WaitsEnd (r : Nat → State) : Prop := ∀ n, (r n).hung = false

/-- The end state of a program: `pc` at its length, no WAIT_TICK entered, interrupts off (R176). -/
def AtEnd (s : State) : Prop := s.fg.pc = s.fg.prog.length ∧ s.sched.fgWait = false ∧ s.sched.ie = false

end Sys2Proof.Machine
end

