-- ==== Sys2Proof/Certificates/Slice0/Obligations.lean ====
section
/-!
DEFINITION. The statements for the provers, in the order of OBLIGATIONS.json. A docstring says which rule of spec/ a
statement comes from, and names the spec's own decision Dn or the log entry where one of its clauses rests on one.
-/

open Sys2Proof Sys2Proof.Machine

/-! ### Encoding -/

/-- R61, R62, R65: decoding the word of a well-formed instruction gives that instruction, with every operand. -/
def Obligations.DecodeOfEncode : Prop :=
  ∀ i : Instr, i.wellFormed = true → decode (encode i) = .ok i

/-- R61, R62, R64: a word that decodes is the word of the instruction it decodes to, which has no reserved operand. -/
def Obligations.EncodeOfDecode : Prop :=
  ∀ (w : Word) (i : Instr), decode w = .ok i → i.wellFormed = true ∧ encode i = w

/-- R62: no two rows' match and mask admit one word. -/
def Obligations.OpcodeRowsDisjoint : Prop :=
  ∀ w : Word, opcodeRows.Pairwise fun r r' => ¬ (r.selects w = true ∧ r'.selects w = true)

/-- R64: a word that no row matches is refused RefusedEncoding; the reserved digit codes, keys and ids are refused
RefusedOperand. -/
def Obligations.ReservedEncodingsRefused : Prop :=
  (∀ w : Word, (∀ r ∈ opcodeRows, r.selects w = false) → decode w = .error .encoding) ∧
  (∀ (pos : BitVec 2) (val : BitVec 4), 10 ≤ val.toNat → val.toNat ≤ 14 →
    decode (0x1100 ||| pos.setWidth 16 <<< 4 ||| val.setWidth 16) = .error .operand) ∧
  (∀ key : BitVec 3, 5 ≤ key.toNat → decode (0x4200 ||| key.setWidth 16) = .error .operand) ∧
  (∀ id : BitVec 3, id.toNat = 0 ∨ 5 ≤ id.toNat →
    decode (0x4300 ||| id.setWidth 16) = .error .operand ∧ decode (0x4400 ||| id.setWidth 16) = .error .operand)

/-- R73, R62, R94 to R98, R124: the words that the spec writes out decode to the commands they stand for. -/
def Obligations.WrittenWordsDecode : Prop :=
  decode 0x1127 = .ok (.dispSetDigit 2 7) ∧ decode 0x20D0 = .ok (.busBegin 0xD0) ∧
  decode 0x2201 = .ok (.busRead true) ∧ decode 0x3301 = .ok (.tkAdjHour .down) ∧
  decode 0x4200 = .ok (.debStepK 0) ∧ decode 0x4302 = .ok (.btnGet 2) ∧
  decode 0x0011 = .ok .isrFast ∧ decode 0x0012 = .ok .isrSlow ∧ decode 0x1000 = .ok .waitTick ∧
  decode 0x3000 = .ok .tkInit ∧ decode 0x3100 = .ok .tkRefresh ∧ decode 0x3200 = .ok (.tkAdjMin .up) ∧
  decode 0x3201 = .ok (.tkAdjMin .down) ∧ decode 0x3300 = .ok (.tkAdjHour .up) ∧ decode 0x3400 = .ok .tkToggleMode

/-! ### Steps -/

/-- R22, R65: on the foreground's turn, with the thread its own, a step is the command at `pc`. Around it the step only
takes the turn (log 6). -/
def Obligations.StepRunsTheCommand : Prop :=
  ∀ (s : State) (w : Word) (i : Instr), s.turn = .foreground → s.hung = false → s.sched.ctx = .fg →
    commandWord s = some w → decode w = .ok i → i.isAgentEvent = false → step s = exec i s.consumeTurn

/-- R63, R64, R143: a word that does not decode, or a unit-0 word, at `pc` is refused by its name. -/
def Obligations.StepRefusesTheWord : Prop :=
  ∀ (s : State) (w : Word), s.turn = .foreground → s.hung = false → s.sched.ctx = .fg → commandWord s = some w →
    (decode w = .error .encoding → step s = .refused .refusedEncoding) ∧
    (decode w = .error .operand → step s = .refused .refusedOperand) ∧
    (∀ i, decode w = .ok i → i.isAgentEvent = true → step s = .refused .refusedAgentWord)

/-- R121, R122: a timer's turn is its event, in every state. -/
def Obligations.StepRunsTheTimers : Prop :=
  ∀ s : State, (s.turn = .fastTimer → step s = exec .tmrFast s.consumeTurn) ∧
    (s.turn = .slowTimer → step s = exec .tmrSlow s.consumeTurn)

/-- R123, R147: dispatching the fast tick clears its pending bit, runs the handler, and returns with interrupts on. -/
def Obligations.DispatchOfTheFastTick : Prop :=
  ∀ (s : State) (prefer : Tick), s.turn = .dispatch prefer → s.hung = false → s.sched.ie = true →
    s.sched.ctx = .fg → pickTick s.par.tickPriority prefer s.sched.fastPending s.sched.slowPending = some .fast →
    step s = .next { s.consumeTurn with
      sched := { s.sched with
        fastPending := false
        loopReady := true
        sel := s.sched.sel + 1
        outPos := s.sched.sel + 1
        outVal := if s.sched.dispOn then s.sched.digits.get (s.sched.sel + 1) else blank
        fade := nextFade s.sched.fade
        dispLog := s.sched.dispLog ++
          [⟨s.sched.sel + 1, if s.sched.dispOn then s.sched.digits.get (s.sched.sel + 1) else blank,
            s.sched.dispOn⟩] } }

/-- R147, R151, R183: dispatching the slow tick runs ISR_SLOW with the pending bit clear, `ie = 0` and `ctx = ISR_SLOW`;
its end returns, a hang leaves it in the handler, a fault ends the run. -/
def Obligations.DispatchOfTheSlowTick : Prop :=
  ∀ (s e : State) (prefer : Tick), s.turn = .dispatch prefer → s.hung = false → s.sched.ie = true →
    s.sched.ctx = .fg → pickTick s.par.tickPriority prefer s.sched.fastPending s.sched.slowPending = some .slow →
    e = { s.consumeTurn with sched := { s.sched with slowPending := false, ie := false, ctx := .isrSlow } } →
    (∀ t, exec .isrSlow e = .next t → t.hung = false →
      step s = .next { t with sched := { t.sched with ie := true, ctx := .fg } }) ∧
    (∀ t, exec .isrSlow e = .next t → t.hung = true → step s = .next t) ∧
    (∀ f, exec .isrSlow e = .fault f → step s = .fault f)

/-- R145, R146: which tick a dispatch takes. Under Either it is the turn's own choice, which is free (D5, log 8). -/
def Obligations.TickPriorityRule : Prop :=
  ∀ (p : TickPriority) (prefer : Tick),
    pickTick p prefer true false = some .fast ∧ pickTick p prefer false true = some .slow ∧
    pickTick p prefer false false = none ∧ pickTick .fastFirst prefer true true = some .fast ∧
    pickTick .slowFirst prefer true true = some .slow ∧ pickTick .either prefer true true = some prefer

/-- R147, R176, R183: an agent that has no step leaves the state (log 7): dispatch while interrupts are masked, a
handler owns the thread, no tick is pending or the thread hangs; the foreground at the end of the program, inside a
handler, or hung. -/
def Obligations.AgentWithoutAStep : Prop :=
  ∀ s : State,
    (∀ prefer, s.turn = .dispatch prefer →
      s.sched.ie = false ∨ s.sched.ctx ≠ .fg ∨ s.hung = true ∨
        (s.sched.fastPending = false ∧ s.sched.slowPending = false) → step s = .next s.consumeTurn) ∧
    (s.turn = .foreground → s.fg.prog.length ≤ s.fg.pc ∨ s.sched.ctx ≠ .fg ∨ s.hung = true →
      step s = .next s.consumeTurn)

/-! ### Reset -/

/-- R20, R170, R171, R174: the registers after reset. The values are the spec's own decisions but for the buttons'
state and flags (R171). -/
def Obligations.ResetRegisters : Prop :=
  State.reset.fg.pc = 0 ∧ State.reset.fg.resp = [] ∧
  State.reset.sched = { ie := false, fastPending := false, slowPending := false, ctx := .fg, fgWait := false,
                        loopReady := false, sel := 0, fade := 0, digits := ⟨0xF, 0xF, 0xF, 0xF⟩, dispOn := false,
                        outPos := 0, outVal := 0xF, dispLog := [] } ∧
  State.reset.bus.phase = .idle ∧ State.reset.bus.result = .ok ∧ State.reset.bus.data = none ∧
  State.reset.tk = { time := none, haltS := none, tkResult := .ok } ∧ State.reset.keys.keyReg = none ∧
  ∀ i, State.reset.keys.btn.get i = { state := .idle, count := 0, action := false, lock := false, delay1 := false,
                                      delay2 := false, delay3 := false, query := false }

/-- The state after reset meets the invariant (that its parameters meet R101 rests on log 3). -/
def Obligations.ResetMeetsTheInvariant : Prop := State.reset.Inv

/-- R24, R26, R27, R31, R86, R129, R140: every step of every agent keeps the invariant. -/
def Obligations.StepKeepsTheInvariant : Prop :=
  ∀ s t : State, s.Inv → step s = .next t → t.Inv

/-! ### Scheduler unit -/

/-- R121, R122: in every state TMR_FAST sets `fast_pending`, TMR_SLOW sets `slow_pending`, and neither changes anything
else. -/
def Obligations.TimerEventsSetPending : Prop :=
  decode 0x0001 = .ok .tmrFast ∧ decode 0x0002 = .ok .tmrSlow ∧
  ∀ s : State, exec .tmrFast s = .next { s with sched := { s.sched with fastPending := true } } ∧
    exec .tmrSlow s = .next { s with sched := { s.sched with slowPending := true } }

/-- R123: the fast handler's body, in every state, with the selector modulo 4 and the fade counter modulo 6. -/
def Obligations.IsrFastBody : Prop :=
  decode 0x0011 = .ok .isrFast ∧
  ∀ s : State, ∃ (sel : BitVec 2) (fade : BitVec 3) (val : BitVec 4),
    sel.toNat = (s.sched.sel.toNat + 1) % 4 ∧ fade.toNat = (s.sched.fade.toNat + 1) % 6 ∧
    val = (if s.sched.dispOn then s.sched.digits.get sel else 0xF) ∧
    exec .isrFast s = .next { s with
      sched := { s.sched with
        loopReady := true, sel := sel, outPos := sel, outVal := val, fade := fade
        dispLog := s.sched.dispLog ++ [⟨sel, val, s.sched.dispOn⟩] } }

/-- R124, R95: with the three-byte read granted and decodable, ISR_SLOW writes `time`; `tk_result`, `resp` and `pc` are
not written, and the Scheduler and Key units are unchanged. -/
def Obligations.IsrSlowRefreshesTime : Prop :=
  ∀ (s : State) (t0 : TimeRec), s.bus.phase = .idle → grantsAll s.par s.bus 0 (readStatuses 2) = true →
    decodeTime (s.bus.comingAnswer 5).byte (s.bus.comingAnswer 6).byte (s.bus.comingAnswer 7).byte = some t0 →
    ∃ t, exec .isrSlow s = .next t ∧ t.tk = { s.tk with time := some t0 } ∧ t.fg = s.fg ∧ sameOutsideTime s t ∧
      t.hung = s.hung ∧ t.bus.phase = .idle ∧ t.bus.result = .ok ∧ t.bus.data = some (s.bus.comingAnswer 7).byte ∧
      t.bus.wire = s.bus.wire ++ readTranscript s.par 0x00 2

/-- R125, R158: the two steps of WAIT_TICK. The entry with the bus idle enables interrupts and keeps `pc`. Inside it,
once an ISR_FAST has set `loop_ready`, the completion disables interrupts, clears the flag and advances `pc`, in one step
(D7); before that the foreground holds and nothing changes (log 7). -/
def Obligations.WaitTickSteps : Prop :=
  (∀ s : State, s.sched.fgWait = false → s.bus.phase = .idle →
    exec .waitTick s = .next { s with sched := { s.sched with ie := true, fgWait := true } }) ∧
  ∀ s : State, s.sched.fgWait = true →
    (s.sched.ctx = .fg → s.sched.loopReady = true →
      exec .waitTick s = .next { s with sched := { s.sched with ie := false, loopReady := false, fgWait := false }
                                        fg := { s.fg with pc := s.fg.pc + 1 } }) ∧
    (s.sched.loopReady = false → exec .waitTick s = .next s)

/-- R126: DISP_SET_DIGIT, its encoding: it writes the one digit and advances `pc`, the display output unchanged until the
next ISR_FAST that selects the position; a reserved code is refused (D10). -/
def Obligations.DispSetDigitResult : Prop :=
  ∀ (s : State) (pos : BitVec 2) (val : BitVec 4),
    (val.toNat ≤ 9 ∨ val.toNat = 15 →
      decode (0x1100 ||| pos.setWidth 16 <<< 4 ||| val.setWidth 16) = .ok (.dispSetDigit pos val) ∧
      ∃ d : Digits, d.get pos = val ∧
      (∀ q, q ≠ pos → d.get q = s.sched.digits.get q) ∧
      exec (.dispSetDigit pos val) s = .next { s with sched := { s.sched with digits := d }
                                                      fg := { s.fg with pc := s.fg.pc + 1 } } ∧
      ∃ t u, exec .isrFast { s with sched := { s.sched with digits := d } } = .next t ∧ exec .isrFast s = .next u ∧
        (t.sched.outPos ≠ pos → t.sched.outVal = u.sched.outVal) ∧
        (t.sched.outPos = pos → s.sched.dispOn = true → t.sched.outVal = val)) ∧
    (10 ≤ val.toNat → val.toNat ≤ 14 → exec (.dispSetDigit pos val) s = .refused .refusedOperand)

/-- R127: DISP_SET_MODE, its encoding: it writes `disp_on`, advances `pc` and changes nothing else; while the display is
off, ISR_FAST drives BLANK and keeps the digits. -/
def Obligations.DispSetModeResult : Prop :=
  decode 0x1200 = .ok (.dispSetMode false) ∧ decode 0x1201 = .ok (.dispSetMode true) ∧
  ∀ s : State,
    (∀ on : Bool, exec (.dispSetMode on) s = .next { s with sched := { s.sched with dispOn := on }
                                                            fg := { s.fg with pc := s.fg.pc + 1 } }) ∧
    (s.sched.dispOn = false → ∃ t, exec .isrFast s = .next t ∧ t.sched.outVal = 0xF ∧
      t.sched.digits = s.sched.digits ∧ t.sched.dispOn = false)

/-! ### Bus unit -/

/-- R81: BUS_BEGIN with a successful start and the acknowledge of its direction, from every phase. -/
def Obligations.BusBeginSucceeds : Prop :=
  ∀ (s : State) (b : Byte),
    waitEnd s.par.waitBound (s.bus.comingAnswer 0).polls = .ready →
    ((s.bus.comingAnswer 0).status = .startOk ∨ (s.bus.comingAnswer 0).status = .rstartOk) →
    waitEnd s.par.waitBound (s.bus.comingAnswer 1).polls = .ready →
    (s.bus.comingAnswer 1).status = (if b.getLsbD 0 then .slaRAck else .slaWAck) →
    exec (.busBegin b) s = .next (busCommandEnd s
      { s.bus.consume.consume with
        phase := if b.getLsbD 0 then .rx else .tx
        result := .ok
        wire := s.bus.wire ++ [if s.bus.phase = .idle then .start else .repeatedStart, .address b] } (.bus .ok))

/-- R81, R140: the errors of BUS_BEGIN, each of which stops the bus and is the response. -/
def Obligations.BusBeginErrors : Prop :=
  ∀ (s : State) (b : Byte) (e : WireEvent), e = (if s.bus.phase = .idle then .start else .repeatedStart) →
    (waitEnd s.par.waitBound (s.bus.comingAnswer 0).polls = .timedOut →
      exec (.busBegin b) s = .next (busCommandEnd s
        { s.bus.consume with phase := .idle, result := .timeout, wire := s.bus.wire ++ [e, .stop] }
        (.bus .timeout))) ∧
    (waitEnd s.par.waitBound (s.bus.comingAnswer 0).polls = .ready →
      (s.bus.comingAnswer 0).status ≠ .startOk → (s.bus.comingAnswer 0).status ≠ .rstartOk →
      exec (.busBegin b) s = .next (busCommandEnd s
        { s.bus.consume with phase := .idle, result := .startFailed, wire := s.bus.wire ++ [e, .stop] }
        (.bus .startFailed))) ∧
    (waitEnd s.par.waitBound (s.bus.comingAnswer 0).polls = .ready →
      ((s.bus.comingAnswer 0).status = .startOk ∨ (s.bus.comingAnswer 0).status = .rstartOk) →
      (waitEnd s.par.waitBound (s.bus.comingAnswer 1).polls = .timedOut →
        exec (.busBegin b) s = .next (busCommandEnd s
          { s.bus.consume.consume with
            phase := .idle, result := .timeout, wire := s.bus.wire ++ [e, .address b, .stop] } (.bus .timeout))) ∧
      (waitEnd s.par.waitBound (s.bus.comingAnswer 1).polls = .ready →
        (s.bus.comingAnswer 1).status ≠ (if b.getLsbD 0 then .slaRAck else .slaWAck) →
        exec (.busBegin b) s = .next (busCommandEnd s
          { s.bus.consume.consume with
            phase := .idle, result := .addressNacked, wire := s.bus.wire ++ [e, .address b, .stop] }
          (.bus .addressNacked))))

/-- R82: BUS_WRITE, its encoding: in Tx acknowledged, not acknowledged, timed out; outside Tx it is refused (D28). -/
def Obligations.BusWriteResult : Prop :=
  ∀ (s : State) (b : Byte), decode (0x2100 ||| b.setWidth 16) = .ok (.busWrite b) ∧
    (s.bus.phase = .tx →
      (waitEnd s.par.waitBound s.bus.answer.polls = .ready → s.bus.answer.status = .dataTxAck →
        exec (.busWrite b) s = .next (busCommandEnd s
          { s.bus.consume with result := .ok, wire := s.bus.wire ++ [.write b] } (.bus .ok))) ∧
      (waitEnd s.par.waitBound s.bus.answer.polls = .ready → s.bus.answer.status ≠ .dataTxAck →
        exec (.busWrite b) s = .next (busCommandEnd s
          { s.bus.consume with phase := .idle, result := .dataNacked, wire := s.bus.wire ++ [.write b, .stop] }
          (.bus .dataNacked))) ∧
      (waitEnd s.par.waitBound s.bus.answer.polls = .timedOut →
        exec (.busWrite b) s = .next (busCommandEnd s
          { s.bus.consume with phase := .idle, result := .timeout, wire := s.bus.wire ++ [.write b, .stop] }
          (.bus .timeout)))) ∧
    (s.bus.phase ≠ .tx → exec (.busWrite b) s = .refused .refusedBusMisuse)

/-- R83: BUS_READ, its encoding: in Rx with the expected status, the byte in `bus_data` and in the response, and Done
after the last; with another status (D26) or after a timeout, the bus stopped and `bus_data` kept; outside Rx it is
refused (D28). -/
def Obligations.BusReadResult : Prop :=
  decode 0x2200 = .ok (.busRead false) ∧ decode 0x2201 = .ok (.busRead true) ∧
  ∀ (s : State) (last : Bool),
    (s.bus.phase = .rx →
      (waitEnd (some s.par.readPollLimit) s.bus.answer.polls = .ready →
        s.bus.answer.status = (if last then .dataRxNack else .dataRxAck) →
        exec (.busRead last) s = .next (busCommandEnd s
          { s.bus.consume with
            phase := if last then .done else .rx
            result := .ok
            data := some s.bus.answer.byte
            wire := s.bus.wire ++ [.read last] } (.busRead .ok (some s.bus.answer.byte)))) ∧
      (waitEnd (some s.par.readPollLimit) s.bus.answer.polls = .timedOut →
        exec (.busRead last) s = .next (busCommandEnd s
          { s.bus.consume with phase := .idle, result := .timeout, wire := s.bus.wire ++ [.read last, .stop] }
          (.busRead .timeout none))) ∧
      (waitEnd (some s.par.readPollLimit) s.bus.answer.polls = .ready →
        s.bus.answer.status ≠ (if last then .dataRxNack else .dataRxAck) →
        exec (.busRead last) s = .next (busCommandEnd s
          { s.bus.consume with phase := .idle, result := .dataNacked, wire := s.bus.wire ++ [.read last, .stop] }
          (.busRead .dataNacked none)))) ∧
    (s.bus.phase ≠ .rx → exec (.busRead last) s = .refused .refusedBusMisuse)

/-- R84: BUS_END stops the bus in every phase, with no response and `bus_result` kept. -/
def Obligations.BusEndStops : Prop :=
  decode 0x2300 = .ok .busEnd ∧
  ∀ s : State, exec .busEnd s = .next { s with bus := { s.bus with phase := .idle, wire := s.bus.wire ++ [.stop] }
                                               fg := { s.fg with pc := s.fg.pc + 1 } }

/-- R80, R81, R183, D27: when a wait is over: with a bound B it times out when the polls reach B; with none it ends unless
the polls never do. Then a start, an address or a transmit wait hangs the thread: no response, `pc` kept (that the hang is
a next state with `hung` set is log 11). -/
def Obligations.WaitsEndOrHang : Prop :=
  (∀ n d : Nat, (waitEnd (some n) (some d) = .ready ↔ d < n) ∧ (waitEnd (some n) (some d) = .timedOut ↔ n ≤ d) ∧
    waitEnd (some n) none = .timedOut ∧ waitEnd none (some d) = .ready) ∧
  ∀ (s : State) (b : Byte), s.par.waitBound = none →
    (s.bus.answer.polls = none →
      (∃ t, exec (.busBegin b) s = .next t ∧ t.hung = true ∧ t.fg = s.fg ∧ t.sched = s.sched ∧ t.tk = s.tk ∧
        t.keys = s.keys) ∧
      (s.bus.phase = .tx → ∃ t, exec (.busWrite b) s = .next t ∧ t.hung = true ∧ t.fg = s.fg ∧ t.sched = s.sched ∧
        t.tk = s.tk ∧ t.keys = s.keys)) ∧
    ((s.bus.comingAnswer 0).polls.isSome = true →
      ((s.bus.comingAnswer 0).status = .startOk ∨ (s.bus.comingAnswer 0).status = .rstartOk) →
      (s.bus.comingAnswer 1).polls = none →
      ∃ t, exec (.busBegin b) s = .next t ∧ t.hung = true ∧ t.fg = s.fg ∧ t.sched = s.sched ∧ t.tk = s.tk ∧
        t.keys = s.keys ∧
        t.bus.wire = s.bus.wire ++ [if s.bus.phase = .idle then .start else .repeatedStart, .address b])

/-- R86, R125, R143: WAIT_TICK's entry and the TimeKeeper commands other than TK_GET_TIME are refused with the bus
open. -/
def Obligations.OpenBusRefused : Prop :=
  ∀ (s : State) (dir : Direction), s.bus.phase ≠ .idle →
    (s.sched.fgWait = false → exec .waitTick s = .refused .refusedBusMisuse) ∧
    exec .tkInit s = .refused .refusedBusMisuse ∧ exec .tkRefresh s = .refused .refusedBusMisuse ∧
    exec (.tkAdjMin dir) s = .refused .refusedBusMisuse ∧ exec (.tkAdjHour dir) s = .refused .refusedBusMisuse ∧
    exec .tkToggleMode s = .refused .refusedBusMisuse

/-- R46, R47, R48: a transaction from an idle bus whose actions all succeed returns Ok, and the bytes it read in order.
The first action that fails is its last: nothing follows it on the bus but the stop of the error and the closing end()
(two stops in the record, log 12), no further answer is taken, no bytes are returned, and its error is the result. -/
def Obligations.TransactionsEndAtTheFirstError : Prop :=
  ∀ (p : Params) (u : BusUnit) (reg : Byte), u.phase = .idle →
    (∀ v : List Byte,
      (firstSucceed p u (writeActions p reg v) (3 + v.length) → ∃ w, memWrite p reg v u = .done .ok w ∧
        w.phase = .idle ∧ w.result = .ok ∧ w.data = u.data ∧ w.wire = u.wire ++ writeActions p reg v ++ [.stop] ∧
        ∀ j, w.comingAnswer j = u.comingAnswer (j + (3 + v.length))) ∧
      ∀ k e r, (writeActions p reg v)[k]? = some e → firstSucceed p u (writeActions p reg v) k →
        e.failsWith p (u.comingAnswer k) r → ∃ w, memWrite p reg v u = .done r w ∧
        w.phase = .idle ∧ w.result = r ∧ w.data = u.data ∧
        w.wire = u.wire ++ (writeActions p reg v).take (k + 1) ++ [.stop, .stop] ∧
        ∀ j, w.comingAnswer j = u.comingAnswer (j + (k + 1))) ∧
    ∀ n : Nat,
      (firstSucceed p u (readActions p reg n) (6 + n) → ∃ w,
        memRead p reg (n + 1) u = .done (.ok, (List.range (n + 1)).map fun j => (u.comingAnswer (5 + j)).byte) w ∧
        w.phase = .idle ∧ w.result = .ok ∧ w.data = some (u.comingAnswer (5 + n)).byte ∧
        w.wire = u.wire ++ readActions p reg n ++ [.stop] ∧
        ∀ j, w.comingAnswer j = u.comingAnswer (j + (6 + n))) ∧
      ∀ k e r, (readActions p reg n)[k]? = some e → firstSucceed p u (readActions p reg n) k →
        e.failsWith p (u.comingAnswer k) r → ∃ w, memRead p reg (n + 1) u = .done (r, []) w ∧
        w.phase = .idle ∧ w.result = r ∧
        w.data = (if k ≤ 5 then u.data else some (u.comingAnswer (k - 1)).byte) ∧
        w.wire = u.wire ++ (readActions p reg n).take (k + 1) ++ [.stop, .stop] ∧
        ∀ j, w.comingAnswer j = u.comingAnswer (j + (k + 1))

/-! ### TimeKeeper unit -/

/-- R94, R48, R80: from an idle bus TK_INIT ends with its whole effect, or is held in an unbounded wait that never comes
to its end (log 11). It ends if no wait hangs, and then, whatever the bus answers, a read that is never ready included:
all three transactions, `time` 12:00:00 H12 AM, the first error reported, the Scheduler and Key units and `halt_s`
unchanged. -/
def Obligations.TkInitCompletes : Prop :=
  ∀ s : State, s.bus.phase = .idle →
    (waitsEnd 14 s → ∃ t, exec .tkInit s = .next t ∧ initEffect s t) ∧
    ∃ t, exec .tkInit s = .next t ∧ (initEffect s t ∨ stuckWait s t)

/-- R95: with the burst read granted and decodable, TK_REFRESH takes the chip's time. -/
def Obligations.TkRefreshReadsTheChip : Prop :=
  ∀ (s : State) (t0 : TimeRec), s.bus.phase = .idle → grantsAll s.par s.bus 0 (readStatuses 2) = true →
    decodeTime (s.bus.comingAnswer 5).byte (s.bus.comingAnswer 6).byte (s.bus.comingAnswer 7).byte = some t0 →
    ∃ t, exec .tkRefresh s = .next t ∧ t.tk = { s.tk with time := some t0, tkResult := .ok } ∧
      t.fg = respondedWith s.fg (.tk .ok) ∧ sameOutsideTime s t ∧ t.hung = s.hung ∧ t.bus.phase = .idle ∧
      t.bus.result = .ok ∧ t.bus.data = some (s.bus.comingAnswer 7).byte ∧
      t.bus.wire = s.bus.wire ++ readTranscript s.par 0x00 2

/-- R95, R124, R48: any bus error during a refresh leaves `time` as it was, whichever action failed, and the command goes
on: TK_REFRESH reports the error; in ISR_SLOW it is silent: `tk_result`, `resp` and `pc` keep their values (D39). So ends
every TK_REFRESH and ISR_SLOW that leaves an error. -/
def Obligations.RefreshErrorKeepsTime : Prop :=
  (∀ (s : State) (rb : BusResult × List Byte) (u : BusUnit), s.bus.phase = .idle →
    memRead s.par 0x00 3 s.bus = .done rb u → rb.1 ≠ .ok →
    exec .tkRefresh s = .next { s with bus := u, tk := { s.tk with tkResult := rb.1 }
                                       fg := respondedWith s.fg (.tk rb.1) } ∧
    exec .isrSlow s = .next { s with bus := u } ∧ u.phase = .idle ∧ u.result = rb.1) ∧
  ∀ s t : State,
    (exec .tkRefresh s = .next t → t.bus.result ≠ .ok → t.hung = false →
      t.tk = { s.tk with tkResult := t.bus.result } ∧ t.bus.phase = .idle ∧
      t.fg = respondedWith s.fg (.tk t.bus.result) ∧ sameOutsideTime s t) ∧
    (exec .isrSlow s = .next t → t.bus.result ≠ .ok → t.tk = s.tk ∧ t.fg = s.fg ∧ sameOutsideTime s t)

/-- R91, R95, R98, R142, R144: bytes of a granted read that do not decode fault RtcDataInvalid, in TK_REFRESH, in ISR_SLOW
and in the re-read of TK_TOGGLE_MODE, whatever its halt returned; the effects before the fault remain and no other register changes (that the fault
carries the state it leaves is log 14). -/
def Obligations.UndecodableBytesFault : Prop :=
  ∀ s : State, s.bus.phase = .idle →
    (grantsAll s.par s.bus 0 (readStatuses 2) = true →
      decodeTime (s.bus.comingAnswer 5).byte (s.bus.comingAnswer 6).byte (s.bus.comingAnswer 7).byte = none →
      ∃ u : BusUnit, exec .tkRefresh s = .fault (.rtcDataInvalid { s with bus := u }) ∧
        exec .isrSlow s = .fault (.rtcDataInvalid { s with bus := u }) ∧
        u.phase = .idle ∧ u.result = .ok ∧ u.data = some (s.bus.comingAnswer 7).byte) ∧
    (grantsAll s.par s.bus 0 (readStatuses 0 ++ writeStatuses ++ readStatuses 2) = true →
      decodeTime (s.bus.comingAnswer 15).byte (s.bus.comingAnswer 16).byte (s.bus.comingAnswer 17).byte = none →
      ∃ u : BusUnit, exec .tkToggleMode s = .fault (.rtcDataInvalid { s with
          bus := u, tk := { s.tk with haltS := some (s.bus.comingAnswer 5).byte } }) ∧
        u.phase = .idle ∧ u.result = .ok ∧ u.data = some (s.bus.comingAnswer 17).byte) ∧
    ∀ (rb : BusResult × List Byte) (h b0 b1 b2 : Byte) (r2 : BusResult) (u1 u2 u3 : BusUnit),
      memRead s.par 0x00 1 s.bus = .done rb u1 → captures s.tk.time rb h →
      memWrite s.par 0x00 [h ||| 0x80] u1 = .done r2 u2 → memRead s.par 0x00 3 u2 = .done (.ok, [b0, b1, b2]) u3 →
      decodeTime b0 b1 b2 = none →
      exec .tkToggleMode s = .fault (.rtcDataInvalid { s with bus := u3, tk := { s.tk with haltS := some h } }) ∧
        u3.phase = .idle ∧ u3.result = .ok ∧ u3.data = some b2

/-- R92, R93, R96, R48, R80: from an idle bus with a written time TK_ADJ_MIN ends with its whole effect, or is held in an
unbounded wait that never comes to its end (log 11). It ends if no wait hangs, and then, whatever the bus answers, a read
that is never ready included: the minute is R92's, with no carry; halt, write and un-halt are all attempted; the byte
captured is the one read, or the in-memory seconds; the first error is reported. -/
def Obligations.TkAdjMinCompletes : Prop :=
  ∀ (s : State) (dir : Direction) (t0 t1 : TimeRec) (m2 : Nat), s.bus.phase = .idle → s.tk.time = some t0 →
    m2 = (match dir with
      | .up => if t0.min.toNat = 59 then 0 else t0.min.toNat + 1
      | .down => if t0.min.toNat = 0 then 59 else t0.min.toNat - 1) →
    t1 = mkTime t0.sec.toNat m2 t0.hr.toNat t0.mode t0.period →
    (waitsEnd 18 s → ∃ t, exec (.tkAdjMin dir) s = .next t ∧ adjustEffect t1 0x01 (bcd m2) s t) ∧
    ∃ t, exec (.tkAdjMin dir) s = .next t ∧ (adjustEffect t1 0x01 (bcd m2) s t ∨ stuckWait s t)

/-- R92, R93, R97, R48, R80: as TK_ADJ_MIN, for the hour: R92's hour within its mode; the period follows the hour in H24,
and in H12 flips at 11 to 12 and 12 to 1 and back (D21, D22). -/
def Obligations.TkAdjHourCompletes : Prop :=
  ∀ (s : State) (dir : Direction) (t0 t1 : TimeRec) (h2 : Nat) (p2 : DayPeriod), s.bus.phase = .idle →
    s.tk.time = some t0 →
    h2 = (match t0.mode, dir with
      | .h24, .up => if t0.hr.toNat = 23 then 0 else t0.hr.toNat + 1
      | .h24, .down => if t0.hr.toNat = 0 then 23 else t0.hr.toNat - 1
      | .h12, .up => if t0.hr.toNat = 11 then 12 else if t0.hr.toNat = 12 then 1 else t0.hr.toNat + 1
      | .h12, .down => if t0.hr.toNat = 1 then 12 else if t0.hr.toNat = 12 then 11 else t0.hr.toNat - 1) →
    p2 = (match t0.mode, dir with
      | .h24, _ => if 12 ≤ h2 then .pm else .am
      | .h12, .up =>
        if t0.hr.toNat = 11 ∨ t0.hr.toNat = 12 then (if t0.period = .am then .pm else .am) else t0.period
      | .h12, .down =>
        if t0.hr.toNat = 1 ∨ t0.hr.toNat = 12 then (if t0.period = .am then .pm else .am) else t0.period) →
    t1 = mkTime t0.sec.toNat t0.min.toNat h2 t0.mode p2 →
    (waitsEnd 18 s → ∃ t, exec (.tkAdjHour dir) s = .next t ∧ adjustEffect t1 0x02 (hourByte t1) s t) ∧
    ∃ t, exec (.tkAdjHour dir) s = .next t ∧ (adjustEffect t1 0x02 (hourByte t1) s t ∨ stuckWait s t)

/-- R93, R94, R96, R97: with every action granted, TK_INIT clears the control register and writes the seconds byte back
with the halt bit clear; an adjustment halts the chip with the seconds byte it read, writes the new register, and
un-halts. -/
def Obligations.InitAndAdjustmentTranscripts : Prop :=
  (∀ s : State, s.bus.phase = .idle →
    grantsAll s.par s.bus 0 (writeStatuses ++ readStatuses 0 ++ writeStatuses) = true →
    ∃ t, exec .tkInit s = .next t ∧ t.tk.tkResult = .ok ∧ t.bus.result = .ok ∧
      t.bus.data = some (s.bus.comingAnswer 9).byte ∧
      t.bus.wire = s.bus.wire ++ writeTranscript s.par 0x07 0x00 ++ readTranscript s.par 0x00 0 ++
        writeTranscript s.par 0x00 ((s.bus.comingAnswer 9).byte &&& 0x7F)) ∧
  ∀ (s : State) (dir : Direction) (t0 : TimeRec) (b : Byte) (m2 : Nat), s.bus.phase = .idle → s.tk.time = some t0 →
    grantsAll s.par s.bus 0 (readStatuses 0 ++ writeStatuses ++ writeStatuses ++ writeStatuses) = true →
    m2 = (match dir with
      | .up => if t0.min.toNat = 59 then 0 else t0.min.toNat + 1
      | .down => if t0.min.toNat = 0 then 59 else t0.min.toNat - 1) →
    b = (s.bus.comingAnswer 5).byte →
    (∃ t, exec (.tkAdjMin dir) s = .next t ∧ t.tk.haltS = some b ∧ t.tk.tkResult = .ok ∧
      t.bus.wire = s.bus.wire ++ readTranscript s.par 0x00 0 ++ writeTranscript s.par 0x00 (b ||| 0x80) ++
        writeTranscript s.par 0x01 (bcd m2) ++ writeTranscript s.par 0x00 (b &&& 0x7F)) ∧
    (∃ t t1, exec (.tkAdjHour dir) s = .next t ∧ t.tk.haltS = some b ∧ t.tk.tkResult = .ok ∧ t.tk.time = some t1 ∧
      t.bus.wire = s.bus.wire ++ readTranscript s.par 0x00 0 ++ writeTranscript s.par 0x00 (b ||| 0x80) ++
        writeTranscript s.par 0x02 (hourByte t1) ++ writeTranscript s.par 0x00 (b &&& 0x7F))

/-- R93: whatever failed before, the last transaction of a mutation that completes is the un-halt write of the captured
byte, started on an idle bus. -/
def Obligations.BracketAlwaysCloses : Prop :=
  ∀ (s t : State) (dir : Direction) (i : Instr), i = .tkAdjMin dir ∨ i = .tkAdjHour dir ∨ i = .tkToggleMode →
    exec i s = .next t → t.hung = false →
    ∃ h u r, t.tk.haltS = some h ∧ u.phase = .idle ∧ memWrite s.par 0x00 [h &&& 0x7F] u = .done r t.bus

/-- R98: with every action granted and the re-read decodable, TK_TOGGLE_MODE converts the time it read. -/
def Obligations.TkToggleModeConverts : Prop :=
  ∀ (s : State) (t0 : TimeRec) (b : Byte), s.bus.phase = .idle →
    grantsAll s.par s.bus 0
      (readStatuses 0 ++ writeStatuses ++ readStatuses 2 ++ writeStatuses ++ writeStatuses) = true →
    b = (s.bus.comingAnswer 5).byte →
    decodeTime (s.bus.comingAnswer 15).byte (s.bus.comingAnswer 16).byte (s.bus.comingAnswer 17).byte = some t0 →
    ∃ t, exec .tkToggleMode s = .next t ∧
      t.tk = { time := some t0.toggleMode, haltS := some b, tkResult := .ok } ∧
      t.fg = respondedWith s.fg (.tk .ok) ∧ t.bus.phase = .idle ∧ t.hung = s.hung ∧ sameOutsideTime s t ∧
      t.bus.wire = s.bus.wire ++ readTranscript s.par 0x00 0 ++ writeTranscript s.par 0x00 (b ||| 0x80) ++
        readTranscript s.par 0x00 2 ++ writeTranscript s.par 0x02 (hourByte t0.toggleMode) ++
        writeTranscript s.par 0x00 (b &&& 0x7F)

/-- R98, R93, R48, D15: whatever its five transactions return, TK_TOGGLE_MODE ends, unless the bytes re-read do not decode
or there is no time: the time re-read, or the old time if the re-read failed at whichever of its actions, is converted,
the new hours byte is written, the un-halt write of the captured byte closes the bracket, and the first error of the five
is reported. -/
def Obligations.TkToggleModeEnds : Prop :=
  ∀ (s : State) (t0 : TimeRec) (rb rr : BusResult × List Byte) (h : Byte) (r2 r4 r5 : BusResult)
    (u1 u2 u3 u4 u5 : BusUnit), s.bus.phase = .idle →
    memRead s.par 0x00 1 s.bus = .done rb u1 → captures s.tk.time rb h →
    memWrite s.par 0x00 [h ||| 0x80] u1 = .done r2 u2 →
    memRead s.par 0x00 3 u2 = .done rr u3 →
    (rr.1 ≠ .ok → s.tk.time = some t0) →
    (rr.1 = .ok → ∃ b0 b1 b2, rr.2 = [b0, b1, b2] ∧ decodeTime b0 b1 b2 = some t0) →
    memWrite s.par 0x02 [hourByte t0.toggleMode] u3 = .done r4 u4 →
    memWrite s.par 0x00 [h &&& 0x7F] u4 = .done r5 u5 →
    exec .tkToggleMode s =
      .next (tkCommandEnd s u5 t0.toggleMode (some h) (firstErr [rb.1, r2, rr.1, r4, r5])) ∧
    u5.phase = .idle

/-- R99: TK_GET_TIME, its encoding: it appends the whole record, in any `bus_phase`, and changes nothing else but `pc`;
before the first write of `time` it faults (D11). -/
def Obligations.TkGetTimeSnapshot : Prop :=
  decode 0x3500 = .ok .tkGetTime ∧
  ∀ s : State,
    (∀ t0 : TimeRec, s.tk.time = some t0 →
      exec .tkGetTime s = .next { s with fg := respondedWith s.fg (.time t0) }) ∧
    (s.tk.time = none → exec .tkGetTime s = .fault (.unwritten s))

/-- R142, R144, R96 to R98: a mutation that reads `time` while it is unwritten faults Unwritten. In the adjustments that
is before any bus action, so the state they leave is the state before. In TK_TOGGLE_MODE it is after the halt read, when
that failed at whichever of its actions, and else after a failed re-read (log 14). -/
def Obligations.UnwrittenTimeFaults : Prop :=
  ∀ (s : State) (dir : Direction), s.tk.time = none → s.bus.phase = .idle →
    exec (.tkAdjMin dir) s = .fault (.unwritten s) ∧ exec (.tkAdjHour dir) s = .fault (.unwritten s) ∧
    (∀ (rb : BusResult × List Byte) (u : BusUnit), memRead s.par 0x00 1 s.bus = .done rb u → rb.1 ≠ .ok →
      exec .tkToggleMode s = .fault (.unwritten { s with bus := u }) ∧ u.phase = .idle ∧ u.result = rb.1 ∧
        u.data = s.bus.data) ∧
    ∀ (h : Byte) (r2 : BusResult) (rr : BusResult × List Byte) (u1 u2 u3 : BusUnit),
      memRead s.par 0x00 1 s.bus = .done (.ok, [h]) u1 → memWrite s.par 0x00 [h ||| 0x80] u1 = .done r2 u2 →
      memRead s.par 0x00 3 u2 = .done rr u3 → rr.1 ≠ .ok →
      exec .tkToggleMode s = .fault (.unwritten { s with bus := u3, tk := { s.tk with haltS := some h } }) ∧
      u3.phase = .idle ∧ u3.result = rr.1

/-- R9, R91, R70, R25, R26: which bytes are Invalid: a units digit over 9, seconds or minutes over 59, an hour outside its
mode's range. Any others decode to a time the block can hold, with the fields their bits give; bit 7 of each byte is
ignored. And the bytes the block writes, digit by digit in BCD with the mode and period bits, decode to the time they were
made from. -/
def Obligations.TimeBytesRoundTrip : Prop :=
  (∀ (b0 b1 b2 : Byte) (s m h : Nat), s = 10 * (b0.toNat / 16 % 8) + b0.toNat % 16 →
    m = 10 * (b1.toNat / 16 % 8) + b1.toNat % 16 →
    h = 10 * (if b2.getLsbD 6 then b2.toNat / 16 % 2 else b2.toNat / 16 % 4) + b2.toNat % 16 →
    (decodeTime b0 b1 b2 = none ↔
      9 < b0.toNat % 16 ∨ 9 < b1.toNat % 16 ∨ 9 < b2.toNat % 16 ∨ 59 < s ∨ 59 < m ∨
      (b2.getLsbD 6 = true ∧ (h < 1 ∨ 12 < h)) ∨ (b2.getLsbD 6 = false ∧ 23 < h)) ∧
    (∀ t : TimeRec, decodeTime b0 b1 b2 = some t → t.ok ∧ t.sec.toNat = s ∧ t.min.toNat = m ∧ t.hr.toNat = h ∧
      t.mode = (if b2.getLsbD 6 then .h12 else .h24) ∧
      t.period = (if (if b2.getLsbD 6 then b2.getLsbD 5 else decide (12 ≤ h)) then .pm else .am)) ∧
    decodeTime (b0 ||| 0x80) b1 b2 = decodeTime b0 b1 b2 ∧ decodeTime b0 (b1 ||| 0x80) b2 = decodeTime b0 b1 b2 ∧
    decodeTime b0 b1 (b2 ||| 0x80) = decodeTime b0 b1 b2) ∧
  (∀ v : Nat, v ≤ 99 → (bcd v).toNat = 16 * (v / 10) + v % 10) ∧
  (∀ t : TimeRec, t.ok →
    (hourByte t).toNat = (if t.mode = .h12 then 64 else 0) + (if t.mode = .h12 ∧ t.period = .pm then 32 else 0) +
      16 * (t.hr.toNat / 10) + t.hr.toNat % 10 ∧
    decodeTime (bcd t.sec.toNat) (bcd t.min.toNat) (hourByte t) = some t)

/-- R92 and the source's §8 law: an adjustment of a valid time moves the minute modulo 60 and no hour, or the hour modulo
24 or within 1 to 12 and no minute, and its opposite gives back the time. -/
def Obligations.AdjustmentsAreInverse : Prop :=
  ∀ t : TimeRec, t.ok →
    ((t.adjustMinute .up).min.toNat = (t.min.toNat + 1) % 60 ∧ (t.adjustMinute .up).hr = t.hr ∧
      (t.adjustMinute .down).min.toNat = (t.min.toNat + 59) % 60 ∧ (t.adjustMinute .down).hr = t.hr) ∧
    (t.mode = .h24 → (t.adjustHour .up).hr.toNat = (t.hr.toNat + 1) % 24 ∧
      (t.adjustHour .down).hr.toNat = (t.hr.toNat + 23) % 24) ∧
    (t.mode = .h12 → (t.adjustHour .up).hr.toNat = t.hr.toNat % 12 + 1 ∧
      (t.adjustHour .down).hr.toNat = (t.hr.toNat + 10) % 12 + 1) ∧
    (t.adjustHour .up).min = t.min ∧ (t.adjustHour .down).min = t.min ∧
    (t.adjustMinute .up).adjustMinute .down = t ∧ (t.adjustMinute .down).adjustMinute .up = t ∧
    (t.adjustHour .up).adjustHour .down = t ∧ (t.adjustHour .down).adjustHour .up = t

/-- R98 and the source's §8 law: toggling the mode of a valid time gives the same hour of the day in the other mode, and
toggling twice gives back the time. -/
def Obligations.ToggleTwiceIsIdentity : Prop :=
  ∀ t : TimeRec, t.ok → t.toggleMode.ok ∧ t.toggleMode.mode ≠ t.mode ∧ t.toggleMode.sec = t.sec ∧
    t.toggleMode.min = t.min ∧ t.toggleMode.period = t.period ∧
    (t.mode = .h24 → t.toggleMode.hr.toNat = (t.hr.toNat + 11) % 12 + 1) ∧
    (t.mode = .h12 → t.toggleMode.hr.toNat = t.hr.toNat % 12 + (if t.period = .pm then 12 else 0)) ∧
    t.toggleMode.toggleMode = t

/-- R93: `first_err` of several results is the first that is an error, and Ok if none is. That the TimeKeeper commands
report it is said in the statements about their ends. -/
def Obligations.FirstErrLaw : Prop :=
  ∀ before after : List BusResult, (∀ r ∈ before, r = .ok) →
    firstErr before = .ok ∧ ∀ r, r ≠ .ok → firstErr (before ++ r :: after) = r

/-! ### Key unit -/

/-- R102: KEY_DECODE, its encoding: it takes the next sample, and puts its band in `key_reg` and in the response. -/
def Obligations.KeyDecodeResult : Prop :=
  decode 0x4000 = .ok .keyDecode ∧
  ∀ s : State, exec .keyDecode s = .next { s with
    keys := { s.keys.consume with keyReg := band s.par s.keys.sample }
    fg := respondedWith s.fg (.key (band s.par s.keys.sample)) }

/-- R100, R101: with parameters that meet R101, the bands are contiguous, closed below and open above (D30), and the
source's three samples decode as it says. -/
def Obligations.BandsClassifySamples : Prop :=
  ∀ (p : Params) (x : Sample), p.ok →
    (band p x = some .b1 ↔ x.toNat < p.keyT1) ∧
    (band p x = some .b2 ↔ p.keyT1 ≤ x.toNat ∧ x.toNat < p.keyT2) ∧
    (band p x = some .b3 ↔ p.keyT2 ≤ x.toNat ∧ x.toNat < p.keyT3) ∧
    (band p x = some .b4 ↔ p.keyT3 ≤ x.toNat ∧ x.toNat < p.keyT4) ∧
    (band p x = none ↔ p.keyT4 ≤ x.toNat) ∧
    band p 0x2F6 = some .b4 ∧ band p 0x08E = some .b1 ∧ band p 0x3C5 = none

/-- R112, R113, R105: the debounce commands, their encodings: they step every button with its own match, and change
nothing else but `pc`; a reserved key is refused. -/
def Obligations.DebounceCommands : Prop :=
  decode 0x4100 = .ok .debStep ∧
  ∀ (s : State) (key : BitVec 3),
    (∃ b : Buttons, (∀ i, b.get i = bstep s.par (decide (s.keys.keyReg = some i)) (s.keys.btn.get i)) ∧
      exec .debStep s = .next { s with keys := { s.keys with btn := b }, fg := { s.fg with pc := s.fg.pc + 1 } }) ∧
    (key.toNat ≤ 4 → decode (0x4200 ||| key.setWidth 16) = .ok (.debStepK key) ∧ ∃ b : Buttons,
      (∀ i, b.get i = bstep s.par (decide (key = i.code)) (s.keys.btn.get i)) ∧
      exec (.debStepK key) s = .next { s with keys := { s.keys with btn := b }
                                              fg := { s.fg with pc := s.fg.pc + 1 } }) ∧
    (5 ≤ key.toNat → exec (.debStepK key) s = .refused .refusedOperand)

/-- R106, R107: an Idle step, below the widest count: up on a match, down otherwise, to Pushed at T_DETECT, and at rest
the flags clear. -/
def Obligations.IdleStep : Prop :=
  ∀ (p : Params) (b : Button) (m : Bool) (n : Nat), b.state = .idle → b.count.toNat < 2 ^ 16 - 1 →
    n = (if m then b.count.toNat + 1 else b.count.toNat - 1) →
    (p.tDetect ≤ n → bstep p m b =
      { b with state := .pushed, count := 0, action := true, lock := true, delay2 := false }) ∧
    (n < p.tDetect → n = 0 → bstep p m b =
      { b with count := 0, action := false, lock := false, query := false, delay2 := false }) ∧
    (n < p.tDetect → n ≠ 0 → bstep p m b = { b with count := BitVec.ofNat 16 n, delay2 := false })

/-- R106, R108, R109: a Pushed step clears `delay2` first; matched, the count free-runs modulo 2^16, delay1 and delay3
latch, and delay2 pulses (D32, D34, D35); unmatched, delay1 and delay3 keep what they have latched. -/
def Obligations.PushedMatchedStep : Prop :=
  ∀ (p : Params) (b : Button) (n : Nat), b.state = .pushed → n = (b.count.toNat + 1) % 2 ^ 16 →
    bstep p true b = { b with
      count := BitVec.ofNat 16 n
      delay1 := b.delay1 || decide (p.tDelay1 ≤ n)
      delay2 := (b.delay1 || decide (p.tDelay1 ≤ n)) && decide (p.tDelay1 ≤ n) &&
        decide ((n - p.tDelay1) % p.tDelay2 = 0)
      delay3 := b.delay3 || decide (p.tDelay3 ≤ n) } ∧
    (bstep p false b).delay1 = b.delay1 ∧ (bstep p false b).delay3 = b.delay3 ∧ (bstep p false b).delay2 = false

/-- R106, R110, R111: a Pushed step without a match goes to Released with the flags kept (D51); a Released step counts
the quiet period, restarts it on a match, which is the spec's own choice (D36), and at T_RELEASE returns to Idle with
every flag clear. The widest count is left out of the Released steps, because R111 states no wrap (log 17). -/
def Obligations.ReleaseSteps : Prop :=
  ∀ (p : Params) (b : Button),
    (b.state = .pushed → bstep p false b = { b with state := .released, count := 0, delay2 := false }) ∧
    (b.state = .released → bstep p true b = { b with count := 0, delay2 := false }) ∧
    (b.state = .released → b.count.toNat < 2 ^ 16 - 1 → b.count.toNat + 1 < p.tRelease →
      bstep p false b = { b with count := b.count + 1, delay2 := false }) ∧
    (b.state = .released → b.count.toNat < 2 ^ 16 - 1 → p.tRelease ≤ b.count.toNat + 1 →
      bstep p false b = { state := .idle, count := 0, action := false, lock := false, delay1 := false,
                          delay2 := false, delay3 := false, query := false })

/-- R116: in Pushed and Released a debounce step keeps `action`, unless it is the one that returns the button to
Idle. -/
def Obligations.ActionIsKept : Prop :=
  ∀ (p : Params) (b : Button) (m : Bool), b.state ≠ .idle → b.action = true →
    ((bstep p m b).state ≠ .idle ∧ (bstep p m b).action = true) ∨
    (b.state = .released ∧ m = false ∧ p.tRelease ≤ (b.count + 1).toNat ∧ (bstep p m b).state = .idle)

/-- R117: from rest, the T_DETECT-th consecutive matched step enters Pushed with `action` and `lock` set, and no earlier
one does. -/
def Obligations.PressIsDetected : Prop :=
  ∀ (p : Params) (b : Button) (k : Nat), 1 ≤ p.tDetect → p.tDetect < 2 ^ 16 → b.state = .idle → b.count = 0 →
    (k < p.tDetect → (Nat.iterate (bstep p true) k b).state = .idle ∧
      (Nat.iterate (bstep p true) k b).count.toNat = k) ∧
    ((Nat.iterate (bstep p true) p.tDetect b).state = .pushed ∧
      (Nat.iterate (bstep p true) p.tDetect b).count = 0 ∧
      (Nat.iterate (bstep p true) p.tDetect b).action = true ∧
      (Nat.iterate (bstep p true) p.tDetect b).lock = true)

/-- R114, R115: the button commands, their encodings: BTN_GET appends the button's record; BTN_CONSUME clears its
`action` and no other field of any button (D50); a reserved id is refused. -/
def Obligations.ButtonCommands : Prop :=
  ∀ (s : State) (id : BitVec 3),
    (∀ i : ButtonId, id = i.code →
      decode (0x4300 ||| id.setWidth 16) = .ok (.btnGet id) ∧
      decode (0x4400 ||| id.setWidth 16) = .ok (.btnConsume id) ∧
      exec (.btnGet id) s = .next { s with fg := respondedWith s.fg (.button i (s.keys.btn.get i)) } ∧
      ∃ b : Buttons, b.get i = { s.keys.btn.get i with action := false } ∧
        (∀ j, j ≠ i → b.get j = s.keys.btn.get j) ∧
        exec (.btnConsume id) s = .next { s with keys := { s.keys with btn := b }
                                                 fg := { s.fg with pc := s.fg.pc + 1 } }) ∧
    (id.toNat = 0 ∨ 5 ≤ id.toNat →
      exec (.btnGet id) s = .refused .refusedOperand ∧ exec (.btnConsume id) s = .refused .refusedOperand)

/-! ### The whole machine -/

/-- R22, R35: no step writes the parameters or the program, and `pc` moves only by one, on the foreground's turn. -/
def Obligations.PcMovesByOne : Prop :=
  ∀ s t : State, step s = .next t →
    t.par = s.par ∧ t.fg.prog = s.fg.prog ∧
    (t.fg.pc = s.fg.pc ∨ (s.turn = .foreground ∧ t.fg.pc = s.fg.pc + 1))

/-- R23: a step only appends to the response log, the display log and the record of the bus. -/
def Obligations.LogsOnlyGrow : Prop :=
  ∀ s t : State, step s = .next t →
    (∃ l, t.fg.resp = s.fg.resp ++ l) ∧ (∃ l, t.sched.dispLog = s.sched.dispLog ++ l) ∧
    (∃ l, t.bus.wire = s.bus.wire ++ l)

/-- R53, R124, R186: outside the foreground's turn the Key unit, the foreground's registers, `tk_result` and `halt_s`
are unchanged; and while interrupts are masked (between two WAIT_TICKs) so is everything but the pending bits and the
turns. -/
def Obligations.HandlersKeepTheForeground : Prop :=
  ∀ s t : State, step s = .next t → s.turn ≠ .foreground →
    t.keys = s.keys ∧ t.fg = s.fg ∧ t.tk.tkResult = s.tk.tkResult ∧ t.tk.haltS = s.tk.haltS ∧
    t.sched.fgWait = s.sched.fgWait ∧ t.sched.digits = s.sched.digits ∧ t.sched.dispOn = s.sched.dispOn ∧
    (s.sched.ie = false → t.tk = s.tk ∧ t.bus = s.bus ∧ t.hung = s.hung ∧
      t.sched = { s.sched with fastPending := t.sched.fastPending, slowPending := t.sched.slowPending })

/-- R28: the display output and its log change only in a step that dispatches the fast tick, which logs the output. -/
def Obligations.OnlyTheFastHandlerDrivesTheDisplay : Prop :=
  ∀ s t : State, step s = .next t →
    t.sched.outPos ≠ s.sched.outPos ∨ t.sched.outVal ≠ s.sched.outVal ∨ t.sched.dispLog ≠ s.sched.dispLog →
    (∃ prefer, s.turn = .dispatch prefer ∧
      pickTick s.par.tickPriority prefer s.sched.fastPending s.sched.slowPending = some .fast) ∧
      s.sched.ie = true ∧ s.sched.ctx = .fg ∧ s.sched.fastPending = true ∧ t.sched.fastPending = false ∧
      t.sched.slowPending = s.sched.slowPending ∧
      t.sched.dispLog = s.sched.dispLog ++ [⟨t.sched.outPos, t.sched.outVal, t.sched.dispOn⟩]

/-- R183: once a bus wait hangs, no step changes anything but the pending bits and the turns. -/
def Obligations.HungThreadIsFrozen : Prop :=
  ∀ s : State, s.hung = true → ∃ t, step s = .next t ∧ t.par = s.par ∧ t.fg = s.fg ∧ t.bus = s.bus ∧ t.tk = s.tk ∧
    t.keys = s.keys ∧ t.hung = true ∧
    t.sched = { s.sched with fastPending := t.sched.fastPending, slowPending := t.sched.slowPending }

/-- R189, R176, R22: progress. In an endless run from a state that meets the invariant, with no bus wait hanging, a
foreground turn completes any command but WAIT_TICK; and if the turns of the foreground and of the fast timer recur and
dispatch is weakly fair (log 27), every WAIT_TICK entered is completed, and the program reaches its end. -/
def Obligations.FairRunsReachTheEnd : Prop :=
  ∀ (sched : Nat → Turn) (r : Nat → State), RunUnder sched r → (r 0).Inv → WaitsEnd r →
    (∀ n w, sched n = .foreground → commandWord (r n) = some w → w ≠ 0x1000 →
      (r (n + 1)).fg.pc = (r n).fg.pc + 1) ∧
    (Recurs sched .foreground → Recurs sched .fastTimer → FairDispatch sched r →
      (∀ n, (r n).sched.fgWait = true → ∃ m, n < m ∧ (r m).sched.fgWait = false ∧ (r m).sched.ie = false ∧
        (r m).fg.pc = (r n).fg.pc + 1) ∧
      ((r 0).fg.pc ≤ (r 0).fg.prog.length → ∃ n, AtEnd (r n)))
end

