-- ==== Sys2Proof/Laws/State.lean ====
section
/-!
SUPPORT. One lemma per field per named update of the state and of the Bus unit, so that no later proof unfolds one.
-/

namespace Sys2Proof.Machine

/-! `State.advance` -/

@[simp] theorem State.advance_par (s : State) : (s.advance).par = s.par := rfl

@[simp] theorem State.advance_sched (s : State) : (s.advance).sched = s.sched := rfl

@[simp] theorem State.advance_bus (s : State) : (s.advance).bus = s.bus := rfl

@[simp] theorem State.advance_tk (s : State) : (s.advance).tk = s.tk := rfl

@[simp] theorem State.advance_keys (s : State) : (s.advance).keys = s.keys := rfl

@[simp] theorem State.advance_turns (s : State) : (s.advance).turns = s.turns := rfl

@[simp] theorem State.advance_turnDraws (s : State) : (s.advance).turnDraws = s.turnDraws := rfl

@[simp] theorem State.advance_hung (s : State) : (s.advance).hung = s.hung := rfl

@[simp] theorem State.advance_prog (s : State) : (s.advance).fg.prog = s.fg.prog := rfl

@[simp] theorem State.advance_pc (s : State) : (s.advance).fg.pc = s.fg.pc + 1 := rfl

@[simp] theorem State.advance_resp (s : State) : (s.advance).fg.resp = s.fg.resp := rfl

/-! `State.respond` -/

@[simp] theorem State.respond_par (r : Response) (s : State) : (s.respond r).par = s.par := rfl

@[simp] theorem State.respond_sched (r : Response) (s : State) : (s.respond r).sched = s.sched := rfl

@[simp] theorem State.respond_bus (r : Response) (s : State) : (s.respond r).bus = s.bus := rfl

@[simp] theorem State.respond_tk (r : Response) (s : State) : (s.respond r).tk = s.tk := rfl

@[simp] theorem State.respond_keys (r : Response) (s : State) : (s.respond r).keys = s.keys := rfl

@[simp] theorem State.respond_turns (r : Response) (s : State) : (s.respond r).turns = s.turns := rfl

@[simp] theorem State.respond_turnDraws (r : Response) (s : State) : (s.respond r).turnDraws = s.turnDraws := rfl

@[simp] theorem State.respond_hung (r : Response) (s : State) : (s.respond r).hung = s.hung := rfl

@[simp] theorem State.respond_prog (r : Response) (s : State) : (s.respond r).fg.prog = s.fg.prog := rfl

@[simp] theorem State.respond_pc (r : Response) (s : State) : (s.respond r).fg.pc = s.fg.pc := rfl

@[simp] theorem State.respond_resp (r : Response) (s : State) : (s.respond r).fg.resp = s.fg.resp ++ [r] := rfl

/-! `State.hang` -/

@[simp] theorem State.hang_par (s : State) : (s.hang).par = s.par := rfl

@[simp] theorem State.hang_fg (s : State) : (s.hang).fg = s.fg := rfl

@[simp] theorem State.hang_sched (s : State) : (s.hang).sched = s.sched := rfl

@[simp] theorem State.hang_bus (s : State) : (s.hang).bus = s.bus := rfl

@[simp] theorem State.hang_tk (s : State) : (s.hang).tk = s.tk := rfl

@[simp] theorem State.hang_keys (s : State) : (s.hang).keys = s.keys := rfl

@[simp] theorem State.hang_turns (s : State) : (s.hang).turns = s.turns := rfl

@[simp] theorem State.hang_turnDraws (s : State) : (s.hang).turnDraws = s.turnDraws := rfl

@[simp] theorem State.hang_hung (s : State) : (s.hang).hung = true := rfl

/-! `State.setTime` -/

@[simp] theorem State.setTime_par (t : TimeRec) (s : State) : (s.setTime t).par = s.par := rfl

@[simp] theorem State.setTime_fg (t : TimeRec) (s : State) : (s.setTime t).fg = s.fg := rfl

@[simp] theorem State.setTime_sched (t : TimeRec) (s : State) : (s.setTime t).sched = s.sched := rfl

@[simp] theorem State.setTime_bus (t : TimeRec) (s : State) : (s.setTime t).bus = s.bus := rfl

@[simp] theorem State.setTime_keys (t : TimeRec) (s : State) : (s.setTime t).keys = s.keys := rfl

@[simp] theorem State.setTime_turns (t : TimeRec) (s : State) : (s.setTime t).turns = s.turns := rfl

@[simp] theorem State.setTime_turnDraws (t : TimeRec) (s : State) : (s.setTime t).turnDraws = s.turnDraws := rfl

@[simp] theorem State.setTime_hung (t : TimeRec) (s : State) : (s.setTime t).hung = s.hung := rfl

@[simp] theorem State.setTime_time (t : TimeRec) (s : State) : (s.setTime t).tk.time = some t := rfl

@[simp] theorem State.setTime_haltS (t : TimeRec) (s : State) : (s.setTime t).tk.haltS = s.tk.haltS := rfl

@[simp] theorem State.setTime_tkResult (t : TimeRec) (s : State) : (s.setTime t).tk.tkResult = s.tk.tkResult := rfl

/-! `State.setHalt` -/

@[simp] theorem State.setHalt_par (b : Byte) (s : State) : (s.setHalt b).par = s.par := rfl

@[simp] theorem State.setHalt_fg (b : Byte) (s : State) : (s.setHalt b).fg = s.fg := rfl

@[simp] theorem State.setHalt_sched (b : Byte) (s : State) : (s.setHalt b).sched = s.sched := rfl

@[simp] theorem State.setHalt_bus (b : Byte) (s : State) : (s.setHalt b).bus = s.bus := rfl

@[simp] theorem State.setHalt_keys (b : Byte) (s : State) : (s.setHalt b).keys = s.keys := rfl

@[simp] theorem State.setHalt_turns (b : Byte) (s : State) : (s.setHalt b).turns = s.turns := rfl

@[simp] theorem State.setHalt_turnDraws (b : Byte) (s : State) : (s.setHalt b).turnDraws = s.turnDraws := rfl

@[simp] theorem State.setHalt_hung (b : Byte) (s : State) : (s.setHalt b).hung = s.hung := rfl

@[simp] theorem State.setHalt_time (b : Byte) (s : State) : (s.setHalt b).tk.time = s.tk.time := rfl

@[simp] theorem State.setHalt_haltS (b : Byte) (s : State) : (s.setHalt b).tk.haltS = some b := rfl

@[simp] theorem State.setHalt_tkResult (b : Byte) (s : State) : (s.setHalt b).tk.tkResult = s.tk.tkResult := rfl

/-! `leaveHandler` -/

@[simp] theorem leaveHandler_par (s : State) : (leaveHandler s).par = s.par := rfl

@[simp] theorem leaveHandler_fg (s : State) : (leaveHandler s).fg = s.fg := rfl

@[simp] theorem leaveHandler_bus (s : State) : (leaveHandler s).bus = s.bus := rfl

@[simp] theorem leaveHandler_tk (s : State) : (leaveHandler s).tk = s.tk := rfl

@[simp] theorem leaveHandler_keys (s : State) : (leaveHandler s).keys = s.keys := rfl

@[simp] theorem leaveHandler_turns (s : State) : (leaveHandler s).turns = s.turns := rfl

@[simp] theorem leaveHandler_turnDraws (s : State) : (leaveHandler s).turnDraws = s.turnDraws := rfl

@[simp] theorem leaveHandler_hung (s : State) : (leaveHandler s).hung = s.hung := rfl

@[simp] theorem leaveHandler_ctx (s : State) : (leaveHandler s).sched.ctx = .fg := rfl

@[simp] theorem leaveHandler_ie (s : State) : (leaveHandler s).sched.ie = true := rfl

@[simp] theorem leaveHandler_fgWait (s : State) : (leaveHandler s).sched.fgWait = s.sched.fgWait := rfl

@[simp] theorem leaveHandler_loopReady (s : State) : (leaveHandler s).sched.loopReady = s.sched.loopReady := rfl

@[simp] theorem leaveHandler_digits (s : State) : (leaveHandler s).sched.digits = s.sched.digits := rfl

@[simp] theorem leaveHandler_outVal (s : State) : (leaveHandler s).sched.outVal = s.sched.outVal := rfl

@[simp] theorem leaveHandler_fade (s : State) : (leaveHandler s).sched.fade = s.sched.fade := rfl

@[simp] theorem leaveHandler_dispLog (s : State) : (leaveHandler s).sched.dispLog = s.sched.dispLog := rfl

/-! `enterHandler` -/

@[simp] theorem enterHandler_par (x : Tick) (s : State) : (enterHandler x s).par = s.par := by cases x <;> rfl

@[simp] theorem enterHandler_fg (x : Tick) (s : State) : (enterHandler x s).fg = s.fg := by cases x <;> rfl

@[simp] theorem enterHandler_bus (x : Tick) (s : State) : (enterHandler x s).bus = s.bus := by cases x <;> rfl

@[simp] theorem enterHandler_tk (x : Tick) (s : State) : (enterHandler x s).tk = s.tk := by cases x <;> rfl

@[simp] theorem enterHandler_keys (x : Tick) (s : State) : (enterHandler x s).keys = s.keys := by cases x <;> rfl

@[simp] theorem enterHandler_turns (x : Tick) (s : State) : (enterHandler x s).turns = s.turns := by cases x <;> rfl

@[simp] theorem enterHandler_turnDraws (x : Tick) (s : State) : (enterHandler x s).turnDraws = s.turnDraws := by cases x <;> rfl

@[simp] theorem enterHandler_hung (x : Tick) (s : State) : (enterHandler x s).hung = s.hung := by cases x <;> rfl

@[simp] theorem enterHandler_ie (x : Tick) (s : State) : (enterHandler x s).sched.ie = false := by cases x <;> rfl

@[simp] theorem enterHandler_fgWait (x : Tick) (s : State) : (enterHandler x s).sched.fgWait = s.sched.fgWait := by cases x <;> rfl

@[simp] theorem enterHandler_loopReady (x : Tick) (s : State) : (enterHandler x s).sched.loopReady = s.sched.loopReady := by cases x <;> rfl

@[simp] theorem enterHandler_digits (x : Tick) (s : State) : (enterHandler x s).sched.digits = s.sched.digits := by cases x <;> rfl

@[simp] theorem enterHandler_outVal (x : Tick) (s : State) : (enterHandler x s).sched.outVal = s.sched.outVal := by cases x <;> rfl

@[simp] theorem enterHandler_fade (x : Tick) (s : State) : (enterHandler x s).sched.fade = s.sched.fade := by cases x <;> rfl

@[simp] theorem enterHandler_dispLog (x : Tick) (s : State) : (enterHandler x s).sched.dispLog = s.sched.dispLog := by cases x <;> rfl

/-! `State.consumeTurn` -/

@[simp] theorem State.consumeTurn_par (s : State) : (s.consumeTurn).par = s.par := by unfold State.consumeTurn; split <;> rfl

@[simp] theorem State.consumeTurn_fg (s : State) : (s.consumeTurn).fg = s.fg := by unfold State.consumeTurn; split <;> rfl

@[simp] theorem State.consumeTurn_sched (s : State) : (s.consumeTurn).sched = s.sched := by unfold State.consumeTurn; split <;> rfl

@[simp] theorem State.consumeTurn_bus (s : State) : (s.consumeTurn).bus = s.bus := by unfold State.consumeTurn; split <;> rfl

@[simp] theorem State.consumeTurn_tk (s : State) : (s.consumeTurn).tk = s.tk := by unfold State.consumeTurn; split <;> rfl

@[simp] theorem State.consumeTurn_keys (s : State) : (s.consumeTurn).keys = s.keys := by unfold State.consumeTurn; split <;> rfl

@[simp] theorem State.consumeTurn_hung (s : State) : (s.consumeTurn).hung = s.hung := by unfold State.consumeTurn; split <;> rfl

/-! `enterWait` -/

@[simp] theorem enterWait_par (s : State) : (enterWait s).par = s.par := rfl

@[simp] theorem enterWait_fg (s : State) : (enterWait s).fg = s.fg := rfl

@[simp] theorem enterWait_bus (s : State) : (enterWait s).bus = s.bus := rfl

@[simp] theorem enterWait_tk (s : State) : (enterWait s).tk = s.tk := rfl

@[simp] theorem enterWait_keys (s : State) : (enterWait s).keys = s.keys := rfl

@[simp] theorem enterWait_turns (s : State) : (enterWait s).turns = s.turns := rfl

@[simp] theorem enterWait_turnDraws (s : State) : (enterWait s).turnDraws = s.turnDraws := rfl

@[simp] theorem enterWait_hung (s : State) : (enterWait s).hung = s.hung := rfl

@[simp] theorem enterWait_ie (s : State) : (enterWait s).sched.ie = true := rfl

@[simp] theorem enterWait_fgWait (s : State) : (enterWait s).sched.fgWait = true := rfl

/-! `completeWait` -/

@[simp] theorem completeWait_par (s : State) : (completeWait s).par = s.par := rfl

@[simp] theorem completeWait_bus (s : State) : (completeWait s).bus = s.bus := rfl

@[simp] theorem completeWait_tk (s : State) : (completeWait s).tk = s.tk := rfl

@[simp] theorem completeWait_keys (s : State) : (completeWait s).keys = s.keys := rfl

@[simp] theorem completeWait_turns (s : State) : (completeWait s).turns = s.turns := rfl

@[simp] theorem completeWait_turnDraws (s : State) : (completeWait s).turnDraws = s.turnDraws := rfl

@[simp] theorem completeWait_hung (s : State) : (completeWait s).hung = s.hung := rfl

@[simp] theorem completeWait_ie (s : State) : (completeWait s).sched.ie = false := rfl

@[simp] theorem completeWait_fgWait (s : State) : (completeWait s).sched.fgWait = false := rfl

@[simp] theorem completeWait_loopReady (s : State) : (completeWait s).sched.loopReady = false := rfl

@[simp] theorem completeWait_ctx (s : State) : (completeWait s).sched.ctx = s.sched.ctx := rfl

@[simp] theorem completeWait_prog (s : State) : (completeWait s).fg.prog = s.fg.prog := rfl

@[simp] theorem completeWait_pc (s : State) : (completeWait s).fg.pc = s.fg.pc + 1 := rfl

@[simp] theorem completeWait_resp (s : State) : (completeWait s).fg.resp = s.fg.resp := rfl

/-! `stepButtons` -/

@[simp] theorem stepButtons_par (k : Key) (s : State) : (stepButtons k s).par = s.par := rfl

@[simp] theorem stepButtons_fg (k : Key) (s : State) : (stepButtons k s).fg = s.fg := rfl

@[simp] theorem stepButtons_sched (k : Key) (s : State) : (stepButtons k s).sched = s.sched := rfl

@[simp] theorem stepButtons_bus (k : Key) (s : State) : (stepButtons k s).bus = s.bus := rfl

@[simp] theorem stepButtons_tk (k : Key) (s : State) : (stepButtons k s).tk = s.tk := rfl

@[simp] theorem stepButtons_turns (k : Key) (s : State) : (stepButtons k s).turns = s.turns := rfl

@[simp] theorem stepButtons_turnDraws (k : Key) (s : State) : (stepButtons k s).turnDraws = s.turnDraws := rfl

@[simp] theorem stepButtons_hung (k : Key) (s : State) : (stepButtons k s).hung = s.hung := rfl

@[simp] theorem stepButtons_btn (k : Key) (s : State) : (stepButtons k s).keys.btn = s.keys.btn.step s.par k := rfl

@[simp] theorem stepButtons_keyReg (k : Key) (s : State) : (stepButtons k s).keys.keyReg = s.keys.keyReg := rfl

/-! `finishTk` -/

@[simp] theorem finishTk_par (r : BusResult) (s : State) : (finishTk r s).par = s.par := rfl

@[simp] theorem finishTk_sched (r : BusResult) (s : State) : (finishTk r s).sched = s.sched := rfl

@[simp] theorem finishTk_bus (r : BusResult) (s : State) : (finishTk r s).bus = s.bus := rfl

@[simp] theorem finishTk_keys (r : BusResult) (s : State) : (finishTk r s).keys = s.keys := rfl

@[simp] theorem finishTk_turns (r : BusResult) (s : State) : (finishTk r s).turns = s.turns := rfl

@[simp] theorem finishTk_turnDraws (r : BusResult) (s : State) : (finishTk r s).turnDraws = s.turnDraws := rfl

@[simp] theorem finishTk_hung (r : BusResult) (s : State) : (finishTk r s).hung = s.hung := rfl

@[simp] theorem finishTk_prog (r : BusResult) (s : State) : (finishTk r s).fg.prog = s.fg.prog := rfl

@[simp] theorem finishTk_pc (r : BusResult) (s : State) : (finishTk r s).fg.pc = s.fg.pc + 1 := rfl

@[simp] theorem finishTk_resp (r : BusResult) (s : State) : (finishTk r s).fg.resp = s.fg.resp ++ [.tk r] := rfl

@[simp] theorem finishTk_time (r : BusResult) (s : State) : (finishTk r s).tk.time = s.tk.time := rfl

@[simp] theorem finishTk_haltS (r : BusResult) (s : State) : (finishTk r s).tk.haltS = s.tk.haltS := rfl

@[simp] theorem finishTk_tkResult (r : BusResult) (s : State) : (finishTk r s).tk.tkResult = r := rfl

/-! `BusUnit.emit` -/

@[simp] theorem BusUnit.emit_phase (e : WireEvent) (u : BusUnit) : (u.emit e).phase = u.phase := rfl

@[simp] theorem BusUnit.emit_result (e : WireEvent) (u : BusUnit) : (u.emit e).result = u.result := rfl

@[simp] theorem BusUnit.emit_data (e : WireEvent) (u : BusUnit) : (u.emit e).data = u.data := rfl

@[simp] theorem BusUnit.emit_answers (e : WireEvent) (u : BusUnit) : (u.emit e).answers = u.answers := rfl

@[simp] theorem BusUnit.emit_answerDraws (e : WireEvent) (u : BusUnit) : (u.emit e).answerDraws = u.answerDraws := rfl

@[simp] theorem BusUnit.emit_wire (e : WireEvent) (u : BusUnit) : (u.emit e).wire = u.wire ++ [e] := rfl

/-! `BusUnit.stop` -/

@[simp] theorem BusUnit.stop_result (u : BusUnit) : (u.stop).result = u.result := rfl

@[simp] theorem BusUnit.stop_data (u : BusUnit) : (u.stop).data = u.data := rfl

@[simp] theorem BusUnit.stop_answers (u : BusUnit) : (u.stop).answers = u.answers := rfl

@[simp] theorem BusUnit.stop_answerDraws (u : BusUnit) : (u.stop).answerDraws = u.answerDraws := rfl

@[simp] theorem BusUnit.stop_wire (u : BusUnit) : (u.stop).wire = u.wire ++ [.stop] := rfl

@[simp] theorem BusUnit.stop_phase (u : BusUnit) : (u.stop).phase = .idle := rfl

/-! `BusUnit.abort` -/

@[simp] theorem BusUnit.abort_data (r : BusResult) (u : BusUnit) : (u.abort r).data = u.data := rfl

@[simp] theorem BusUnit.abort_answers (r : BusResult) (u : BusUnit) : (u.abort r).answers = u.answers := rfl

@[simp] theorem BusUnit.abort_answerDraws (r : BusResult) (u : BusUnit) : (u.abort r).answerDraws = u.answerDraws := rfl

@[simp] theorem BusUnit.abort_wire (r : BusResult) (u : BusUnit) : (u.abort r).wire = u.wire ++ [.stop] := rfl

@[simp] theorem BusUnit.abort_phase (r : BusResult) (u : BusUnit) : (u.abort r).phase = .idle := rfl

@[simp] theorem BusUnit.abort_result (r : BusResult) (u : BusUnit) : (u.abort r).result = r := rfl

/-! `BusUnit.consume` -/

@[simp] theorem BusUnit.consume_phase (u : BusUnit) : (u.consume).phase = u.phase := by unfold BusUnit.consume; split <;> rfl

@[simp] theorem BusUnit.consume_result (u : BusUnit) : (u.consume).result = u.result := by unfold BusUnit.consume; split <;> rfl

@[simp] theorem BusUnit.consume_data (u : BusUnit) : (u.consume).data = u.data := by unfold BusUnit.consume; split <;> rfl

@[simp] theorem BusUnit.consume_wire (u : BusUnit) : (u.consume).wire = u.wire := by unfold BusUnit.consume; split <;> rfl

/-! `KeyUnit.consume` -/

@[simp] theorem KeyUnit.consume_keyReg (k : KeyUnit) : k.consume.keyReg = k.keyReg := by unfold KeyUnit.consume; split <;> rfl

@[simp] theorem KeyUnit.consume_btn (k : KeyUnit) : k.consume.btn = k.btn := by unfold KeyUnit.consume; split <;> rfl

end Sys2Proof.Machine
end

