-- ==== Sys2Proof/Laws/Bus.lean ====
section
/-!
SUPPORT. What the bus engine's operations can do (spec/41_bus.md, spec/20_memory.md R46 to R48): the answers they take,
when they hang, what they keep of the Bus unit, how they end, their whole effect when every action is granted, and how
an operation ends at its first failing action.
-/

namespace Sys2Proof.Machine

/-! ### The coming answers -/

@[simp] theorem BusUnit.emit_comingAnswer (e : WireEvent) (u : BusUnit) (k : Nat) :
    (u.emit e).comingAnswer k = u.comingAnswer k := rfl

@[simp] theorem BusUnit.stop_comingAnswer (u : BusUnit) (k : Nat) : u.stop.comingAnswer k = u.comingAnswer k := rfl

@[simp] theorem BusUnit.abort_comingAnswer (r : BusResult) (u : BusUnit) (k : Nat) :
    (u.abort r).comingAnswer k = u.comingAnswer k := rfl

@[simp] theorem BusUnit.consume_comingAnswer (u : BusUnit) (k : Nat) :
    u.consume.comingAnswer k = u.comingAnswer (k + 1) := by
  rcases h : u.answers with _ | ⟨a, as⟩
  · simp [BusUnit.consume, BusUnit.comingAnswer, h, Nat.add_comm, Nat.add_left_comm]
  · simp [BusUnit.consume, BusUnit.comingAnswer, h]

/-- The coming answers depend on nothing but the queue and the counter. -/
theorem BusUnit.comingAnswer_congr {u v : BusUnit} (ha : v.answers = u.answers) (hd : v.answerDraws = u.answerDraws)
    (k : Nat) : v.comingAnswer k = u.comingAnswer k := by
  unfold BusUnit.comingAnswer
  rw [ha, hd]

@[simp] theorem BusUnit.answer_eq (u : BusUnit) : u.answer = u.comingAnswer 0 := rfl

/-! ### Sequencing -/

theorem BusOut.andThen_eq_done {α β : Type} {x : BusOut α} {f : α → BusUnit → BusOut β} {b : β} {v : BusUnit} :
    x.andThen f = .done b v ↔ ∃ a u, x = .done a u ∧ f a u = .done b v := by
  cases x <;> simp [BusOut.andThen]

theorem BusOut.andThen_eq_hang {α β : Type} {x : BusOut α} {f : α → BusUnit → BusOut β} {v : BusUnit} :
    x.andThen f = .hang v ↔ x = .hang v ∨ ∃ a u, x = .done a u ∧ f a u = .hang v := by
  cases x <;> simp [BusOut.andThen]

@[simp] theorem BusOut.andThen_done {α β : Type} (a : α) (u : BusUnit) (f : α → BusUnit → BusOut β) :
    (BusOut.done a u).andThen f = f a u := rfl

@[simp] theorem BusOut.andThen_hang {α β : Type} (u : BusUnit) (f : α → BusUnit → BusOut β) :
    (BusOut.hang u : BusOut α).andThen f = .hang u := rfl

/-! ### Which answers an operation takes, and when it hangs -/

/-- From `u` the operation takes at most `n` answers, and it hangs only in an unbounded wait that never ends. -/
def BusOut.Within {α : Type} (p : Params) (u : BusUnit) (n : Nat) (x : BusOut α) : Prop :=
  match x with
  | .done _ v => ∃ k ≤ n, ∀ j, v.comingAnswer j = u.comingAnswer (j + k)
  | .hang _ => p.waitBound = none ∧ ∃ k < n, (u.comingAnswer k).polls = none

theorem BusOut.Within.andThen {α β : Type} {p : Params} {u : BusUnit} {n m : Nat} {x : BusOut α}
    {f : α → BusUnit → BusOut β} (hx : x.Within p u n) (hf : ∀ a v, x = .done a v → (f a v).Within p v m) :
    (x.andThen f).Within p u (n + m) := by
  cases x with
  | hang v =>
    obtain ⟨hb, k, hk, h⟩ := hx
    exact ⟨hb, k, by omega, h⟩
  | done a v =>
    obtain ⟨k, hk, hv⟩ := hx
    have h := hf a v rfl
    simp only [BusOut.andThen_done]
    cases hfa : f a v with
    | done b w =>
      obtain ⟨l, hl, hw⟩ := hfa ▸ h
      refine ⟨k + l, by omega, fun j => ?_⟩
      rw [hw, hv, Nat.add_assoc, Nat.add_comm l k]
    | hang w =>
      obtain ⟨hb, l, hl, hw⟩ := hfa ▸ h
      refine ⟨hb, l + k, by omega, ?_⟩
      rw [← hv, hw]

theorem BusOut.Within.mono {α : Type} {p : Params} {u : BusUnit} {n m : Nat} {x : BusOut α} (h : x.Within p u n)
    (hnm : n ≤ m) : x.Within p u m := by
  cases x with
  | done a v =>
    obtain ⟨k, hk, hv⟩ := h
    exact ⟨k, by omega, hv⟩
  | hang v =>
    obtain ⟨hb, k, hk, hv⟩ := h
    exact ⟨hb, k, by omega, hv⟩

/-- An operation that takes no answer. -/
theorem BusOut.Within.done_same {α : Type} {p : Params} {u v : BusUnit} {a : α}
    (h : ∀ j, v.comingAnswer j = u.comingAnswer j) : (BusOut.done a v).Within p u 0 :=
  ⟨0, le_rfl, h⟩

theorem waitEnd_forever {bound polls : Option Nat} (h : waitEnd bound polls = .forever) :
    bound = none ∧ polls = none := by
  cases bound <;> cases polls <;> simp [waitEnd] at h ⊢
  split at h <;> cases h

theorem busAction_within (p : Params) (e : WireEvent) (u : BusUnit) : (busAction p.waitBound e u).Within p u 1 := by
  unfold busAction
  split
  · exact ⟨1, le_rfl, fun j => by simp⟩
  · exact ⟨1, le_rfl, fun j => by simp⟩
  · next h => exact ⟨(waitEnd_forever h).1, 0, Nat.one_pos, (waitEnd_forever h).2⟩

theorem busAction_bounded_within (p : Params) (n : Nat) (e : WireEvent) (u : BusUnit) :
    (busAction (some n) e u).Within p u 1 := by
  unfold busAction
  split
  · exact ⟨1, le_rfl, fun j => by simp⟩
  · exact ⟨1, le_rfl, fun j => by simp⟩
  · next h => cases (waitEnd_forever h).1

theorem engineBegin_within (p : Params) (b : Byte) (u : BusUnit) : (engineBegin p b u).Within p u 2 := by
  refine (busAction_within p _ u).andThen (m := 1) fun a v _ => ?_
  rcases a with _ | a
  · exact (BusOut.Within.done_same fun j => by simp).mono (by omega)
  · dsimp only
    split
    · exact (BusOut.Within.done_same fun j => by simp).mono (by omega)
    · refine ((busAction_within p _ v).andThen (m := 0) fun c w _ => ?_)
      rcases c with _ | c
      · exact BusOut.Within.done_same fun j => by simp
      · dsimp only
        split
        · exact BusOut.Within.done_same fun j => by simp
        · exact BusOut.Within.done_same fun j => rfl

theorem engineWrite_within (p : Params) (b : Byte) (u : BusUnit) : (engineWrite p b u).Within p u 1 := by
  refine (busAction_within p _ u).andThen (m := 0) fun a v _ => ?_
  rcases a with _ | a
  · exact BusOut.Within.done_same fun j => by simp
  · dsimp only
    split
    · exact BusOut.Within.done_same fun j => by simp
    · exact BusOut.Within.done_same fun j => rfl

theorem engineRead_within (p : Params) (last : Bool) (u : BusUnit) : (engineRead p last u).Within p u 1 := by
  refine (busAction_bounded_within p _ _ u).andThen (m := 0) fun a v _ => ?_
  rcases a with _ | a
  · exact BusOut.Within.done_same fun j => by simp
  · dsimp only
    split
    · exact BusOut.Within.done_same fun j => by simp
    · exact BusOut.Within.done_same fun j => rfl

theorem readBytes_within (p : Params) (n : Nat) (u : BusUnit) : (readBytes p n u).Within p u n := by
  induction n generalizing u with
  | zero => exact BusOut.Within.done_same fun j => rfl
  | succ n ih =>
    unfold readBytes
    refine ((engineRead_within p _ u).andThen (m := n) fun rb v _ => ?_).mono (by omega)
    split
    · refine ((ih v).andThen (m := 0) fun rest w _ => ?_)
      split <;> exact BusOut.Within.done_same fun j => rfl
    · exact (BusOut.Within.done_same fun j => rfl).mono (by omega)

theorem writeBytes_within (p : Params) (bs : List Byte) (u : BusUnit) :
    (writeBytes p bs u).Within p u bs.length := by
  induction bs generalizing u with
  | nil => exact BusOut.Within.done_same fun j => rfl
  | cons b bs ih =>
    unfold writeBytes
    refine ((engineWrite_within p b u).andThen (m := bs.length) fun r v _ => ?_).mono
      (by simp only [List.length_cons]; omega)
    split
    · exact ih v
    · exact (BusOut.Within.done_same fun j => rfl).mono (by omega)

/-- A MemWrite of one byte takes at most four answers (R47). -/
theorem memWrite_within (p : Params) (reg v : Byte) (u : BusUnit) : (memWrite p reg [v] u).Within p u 4 := by
  refine (engineBegin_within p _ u).andThen (m := 2) fun r w _ => ?_
  split
  · exact (BusOut.Within.done_same fun j => by simp).mono (by omega)
  · refine (engineWrite_within p _ w).andThen (m := 1) fun r x _ => ?_
    split
    · exact (BusOut.Within.done_same fun j => by simp).mono (by omega)
    · exact (writeBytes_within p _ x).andThen (m := 0) fun r y _ => BusOut.Within.done_same fun j => by simp

/-- A MemRead of `n` bytes takes at most `5 + n` answers (R46). -/
theorem memRead_within (p : Params) (reg : Byte) (n : Nat) (u : BusUnit) :
    (memRead p reg n u).Within p u (5 + n) := by
  refine ((engineBegin_within p _ u).andThen (m := 3 + n) fun r w _ => ?_).mono (by omega)
  split
  · exact (BusOut.Within.done_same fun j => by simp).mono (by omega)
  · refine ((engineWrite_within p _ w).andThen (m := 2 + n) fun r x _ => ?_).mono (by omega)
    split
    · exact (BusOut.Within.done_same fun j => by simp).mono (by omega)
    · refine ((engineBegin_within p _ x).andThen (m := n) fun r y _ => ?_)
      split
      · exact (BusOut.Within.done_same fun j => by simp).mono (by omega)
      · exact (readBytes_within p n y).andThen (m := 0) fun rb z _ => BusOut.Within.done_same fun j => by simp

/-! ### The events of an operation: one answer taken for each action, and the wait it hangs in -/

/-- From `u` the operation adds events to the record and takes one answer for each action among them. It hangs only in a
start, address or transmit wait with no bound, whose answer never comes. -/
def BusOut.Traces {α : Type} (p : Params) (u : BusUnit) (x : BusOut α) : Prop :=
  match x with
  | .done _ v => ∃ l, v.wire = u.wire ++ l ∧ ∀ j, v.comingAnswer j = u.comingAnswer (j + actions l)
  | .hang v => p.waitBound = none ∧ ∃ l e, v.wire = u.wire ++ l ++ [e] ∧ e.waitsForBound = true ∧
      (u.comingAnswer (actions l)).polls = none

@[simp] theorem actions_append (l m : List WireEvent) : actions (l ++ m) = actions l + actions m :=
  List.countP_append ..

theorem BusOut.Traces.andThen {α β : Type} {p : Params} {u : BusUnit} {x : BusOut α} {f : α → BusUnit → BusOut β}
    (hx : x.Traces p u) (hf : ∀ a v, x = .done a v → (f a v).Traces p v) : (x.andThen f).Traces p u := by
  cases x with
  | hang v => exact hx
  | done a v =>
    obtain ⟨l, hl, hv⟩ := hx
    have h := hf a v rfl
    simp only [BusOut.andThen_done]
    cases hfa : f a v with
    | done b w =>
      obtain ⟨m, hm, hw⟩ := hfa ▸ h
      refine ⟨l ++ m, by rw [hm, hl, List.append_assoc], fun j => ?_⟩
      rw [hw, hv, actions_append, Nat.add_assoc, Nat.add_comm (actions m)]
    | hang w =>
      obtain ⟨hb, m, e, hm, he, hp⟩ := hfa ▸ h
      refine ⟨hb, l ++ m, e, by rw [hm, hl]; simp, he, ?_⟩
      rw [actions_append, Nat.add_comm, ← hv]
      exact hp

theorem BusOut.Traces.same {α : Type} {p : Params} {u v : BusUnit} (a : α) (hw : v.wire = u.wire)
    (hc : ∀ j, v.comingAnswer j = u.comingAnswer j) : (BusOut.done a v).Traces p u :=
  ⟨[], by simp [hw], hc⟩

theorem BusOut.Traces.stop {α : Type} {p : Params} (a : α) (u : BusUnit) : (BusOut.done a u.stop).Traces p u :=
  ⟨[.stop], rfl, fun _ => rfl⟩

theorem BusOut.Traces.abort {α : Type} {p : Params} (a : α) (r : BusResult) (u : BusUnit) :
    (BusOut.done a (u.abort r)).Traces p u :=
  ⟨[.stop], rfl, fun _ => rfl⟩

/-- An action with WAIT_BOUND. -/
theorem busAction_traces (p : Params) {e : WireEvent} (he : e.waitsForBound = true) (u : BusUnit) :
    (busAction p.waitBound e u).Traces p u := by
  have ha : actions [e] = 1 := by cases e <;> first | rfl | cases he
  unfold busAction
  split
  · exact ⟨[e], by simp, fun j => by simp [ha]⟩
  · exact ⟨[e], by simp, fun j => by simp [ha]⟩
  · next h => exact ⟨(waitEnd_forever h).1, [], e, by simp, he, (waitEnd_forever h).2⟩

/-- A read, whose wait is always bounded. -/
theorem busAction_read_traces (p : Params) (n : Nat) (last : Bool) (u : BusUnit) :
    (busAction (some n) (.read last) u).Traces p u := by
  unfold busAction
  split
  · exact ⟨[.read last], by simp, fun j => by simp [actions, WireEvent.isAction]⟩
  · exact ⟨[.read last], by simp, fun j => by simp [actions, WireEvent.isAction]⟩
  · next h => cases (waitEnd_forever h).1

theorem engineBegin_traces (p : Params) (b : Byte) (u : BusUnit) : (engineBegin p b u).Traces p u := by
  refine (busAction_traces p (by unfold startEvent; split <;> rfl) u).andThen fun a v _ => ?_
  rcases a with _ | a
  · exact .abort _ _ v
  · dsimp only
    split
    · exact .abort _ _ v
    · refine (busAction_traces p rfl v).andThen fun c w _ => ?_
      rcases c with _ | c
      · exact .abort _ _ w
      · dsimp only
        split
        · exact .abort _ _ w
        · exact .same _ rfl fun _ => rfl

theorem engineWrite_traces (p : Params) (b : Byte) (u : BusUnit) : (engineWrite p b u).Traces p u := by
  refine (busAction_traces p rfl u).andThen fun a v _ => ?_
  rcases a with _ | a
  · exact .abort _ _ v
  · dsimp only
    split
    · exact .abort _ _ v
    · exact .same _ rfl fun _ => rfl

theorem engineRead_traces (p : Params) (last : Bool) (u : BusUnit) : (engineRead p last u).Traces p u := by
  refine (busAction_read_traces p _ last u).andThen fun a v _ => ?_
  rcases a with _ | a
  · exact .abort _ _ v
  · dsimp only
    split
    · exact .abort _ _ v
    · exact .same _ rfl fun _ => rfl

theorem readBytes_traces (p : Params) (n : Nat) (u : BusUnit) : (readBytes p n u).Traces p u := by
  induction n generalizing u with
  | zero => exact .same _ rfl fun _ => rfl
  | succ n ih =>
    unfold readBytes
    refine (engineRead_traces p _ u).andThen fun rb v _ => ?_
    split
    · refine (ih v).andThen fun rest w _ => ?_
      split <;> exact .same _ rfl fun _ => rfl
    · exact .same _ rfl fun _ => rfl

theorem writeBytes_traces (p : Params) (bs : List Byte) (u : BusUnit) : (writeBytes p bs u).Traces p u := by
  induction bs generalizing u with
  | nil => exact .same _ rfl fun _ => rfl
  | cons b bs ih =>
    unfold writeBytes
    refine (engineWrite_traces p b u).andThen fun r v _ => ?_
    split
    · exact ih v
    · exact .same _ rfl fun _ => rfl

theorem memWrite_traces (p : Params) (reg : Byte) (bs : List Byte) (u : BusUnit) :
    (memWrite p reg bs u).Traces p u := by
  refine (engineBegin_traces p _ u).andThen fun r w _ => ?_
  split
  · exact .stop _ w
  · refine (engineWrite_traces p _ w).andThen fun r x _ => ?_
    split
    · exact .stop _ x
    · exact (writeBytes_traces p _ x).andThen fun r y _ => .stop _ y

theorem memRead_traces (p : Params) (reg : Byte) (n : Nat) (u : BusUnit) : (memRead p reg n u).Traces p u := by
  refine (engineBegin_traces p _ u).andThen fun r w _ => ?_
  split
  · exact .stop _ w
  · refine (engineWrite_traces p _ w).andThen fun r x _ => ?_
    split
    · exact .stop _ x
    · refine (engineBegin_traces p _ x).andThen fun r y _ => ?_
      split
      · exact .stop _ y
      · exact (readBytes_traces p n y).andThen fun rb z _ => .stop _ z

/-! ### What an operation keeps -/

/-- The Bus unit's part of the invariant: an error has stopped the bus, and after a last byte the byte is there. -/
def BusUnit.Sound (u : BusUnit) : Prop :=
  (u.result ≠ .ok → u.phase = .idle) ∧ (u.phase = .done → u.data.isSome = true)

/-- Done or hung, the operation keeps the Bus unit sound and has only added to the record of the bus. -/
def BusOut.Keeps {α : Type} (u : BusUnit) (x : BusOut α) : Prop :=
  match x with
  | .done _ v => (u.Sound → v.Sound) ∧ ∃ l, v.wire = u.wire ++ l
  | .hang v => (u.Sound → v.Sound) ∧ ∃ l, v.wire = u.wire ++ l

theorem BusOut.Keeps.andThen {α β : Type} {u : BusUnit} {x : BusOut α} {f : α → BusUnit → BusOut β}
    (hx : x.Keeps u) (hf : ∀ a v, x = .done a v → (f a v).Keeps v) : (x.andThen f).Keeps u := by
  cases x with
  | hang v => exact hx
  | done a v =>
    obtain ⟨hs, l, hl⟩ := hx
    have h := hf a v rfl
    simp only [BusOut.andThen_done]
    cases hfa : f a v with
    | done b w =>
      obtain ⟨hs', l', hl'⟩ := hfa ▸ h
      exact ⟨hs' ∘ hs, l ++ l', by rw [hl', hl, List.append_assoc]⟩
    | hang w =>
      obtain ⟨hs', l', hl'⟩ := hfa ▸ h
      exact ⟨hs' ∘ hs, l ++ l', by rw [hl', hl, List.append_assoc]⟩

theorem BusOut.Keeps.stop {α : Type} (a : α) (u : BusUnit) : (BusOut.done a u.stop).Keeps u :=
  ⟨fun _ => ⟨fun _ => rfl, fun h => by simp at h⟩, [.stop], rfl⟩

theorem BusOut.Keeps.abort {α : Type} (a : α) (r : BusResult) (u : BusUnit) : (BusOut.done a (u.abort r)).Keeps u :=
  ⟨fun _ => ⟨fun _ => rfl, fun h => by simp at h⟩, [.stop], rfl⟩

theorem BusOut.Keeps.same {α : Type} (a : α) (u : BusUnit) : (BusOut.done a u).Keeps u :=
  ⟨id, [], by simp⟩

theorem busAction_keeps (bound : Option Nat) (e : WireEvent) (u : BusUnit) : (busAction bound e u).Keeps u := by
  have h : (u.Sound → (u.emit e).consume.Sound) ∧ ∃ l, (u.emit e).consume.wire = u.wire ++ l :=
    ⟨fun hs => by simpa [BusUnit.Sound] using hs, [e], by simp⟩
  unfold busAction
  split <;> exact h

theorem engineBegin_keeps (p : Params) (b : Byte) (u : BusUnit) : (engineBegin p b u).Keeps u := by
  refine (busAction_keeps _ _ u).andThen fun a v _ => ?_
  rcases a with _ | a
  · exact .abort _ _ v
  · dsimp only
    split
    · exact .abort _ _ v
    · refine (busAction_keeps _ _ v).andThen fun c w _ => ?_
      rcases c with _ | c
      · exact .abort _ _ w
      · dsimp only
        split
        · exact .abort _ _ w
        · refine ⟨fun _ => ⟨fun h => absurd rfl h, fun h => ?_⟩, [], by simp⟩
          simp only [addressPhase] at h
          split at h <;> cases h

theorem engineWrite_keeps (p : Params) (b : Byte) (u : BusUnit) : (engineWrite p b u).Keeps u := by
  refine (busAction_keeps _ _ u).andThen fun a v _ => ?_
  rcases a with _ | a
  · exact .abort _ _ v
  · dsimp only
    split
    · exact .abort _ _ v
    · exact ⟨fun hs => ⟨fun h => absurd rfl h, hs.2⟩, [], by simp⟩

theorem engineRead_keeps (p : Params) (last : Bool) (u : BusUnit) : (engineRead p last u).Keeps u := by
  refine (busAction_keeps _ _ u).andThen fun a v _ => ?_
  rcases a with _ | a
  · exact .abort _ _ v
  · dsimp only
    split
    · exact .abort _ _ v
    · exact ⟨fun _ => ⟨fun h => absurd rfl h, fun _ => rfl⟩, [], by simp⟩

theorem readBytes_keeps (p : Params) (n : Nat) (u : BusUnit) : (readBytes p n u).Keeps u := by
  induction n generalizing u with
  | zero => exact .same _ u
  | succ n ih =>
    unfold readBytes
    refine (engineRead_keeps p _ u).andThen fun rb v _ => ?_
    split
    · refine (ih v).andThen fun rest w _ => ?_
      split <;> exact .same _ w
    · exact .same _ v

theorem writeBytes_keeps (p : Params) (bs : List Byte) (u : BusUnit) : (writeBytes p bs u).Keeps u := by
  induction bs generalizing u with
  | nil => exact .same _ u
  | cons b bs ih =>
    unfold writeBytes
    refine (engineWrite_keeps p b u).andThen fun r v _ => ?_
    split
    · exact ih v
    · exact .same _ v

theorem memWrite_keeps (p : Params) (reg : Byte) (bs : List Byte) (u : BusUnit) : (memWrite p reg bs u).Keeps u := by
  refine (engineBegin_keeps p _ u).andThen fun r w _ => ?_
  split
  · exact .stop _ w
  · refine (engineWrite_keeps p _ w).andThen fun r x _ => ?_
    split
    · exact .stop _ x
    · exact (writeBytes_keeps p _ x).andThen fun r y _ => .stop _ y

theorem memRead_keeps (p : Params) (reg : Byte) (n : Nat) (u : BusUnit) : (memRead p reg n u).Keeps u := by
  refine (engineBegin_keeps p _ u).andThen fun r w _ => ?_
  split
  · exact .stop _ w
  · refine (engineWrite_keeps p _ w).andThen fun r x _ => ?_
    split
    · exact .stop _ x
    · refine (engineBegin_keeps p _ x).andThen fun r y _ => ?_
      split
      · exact .stop _ y
      · exact (readBytes_keeps p n y).andThen fun rb z _ => .stop _ z

/-! ### How an operation ends -/

theorem engineBegin_result {p : Params} {b : Byte} {u v : BusUnit} {r : BusResult}
    (h : engineBegin p b u = .done r v) : v.result = r := by
  simp only [engineBegin, BusOut.andThen_eq_done] at h
  obtain ⟨a, w, -, h⟩ := h
  rcases a with _ | a
  · cases h; rfl
  · dsimp only at h
    split at h
    · cases h; rfl
    · simp only [BusOut.andThen_eq_done] at h
      obtain ⟨c, x, -, h⟩ := h
      rcases c with _ | c
      · cases h; rfl
      · dsimp only at h
        split at h <;> · cases h; rfl

theorem engineWrite_result {p : Params} {b : Byte} {u v : BusUnit} {r : BusResult}
    (h : engineWrite p b u = .done r v) : v.result = r := by
  simp only [engineWrite, BusOut.andThen_eq_done] at h
  obtain ⟨a, w, -, h⟩ := h
  rcases a with _ | a
  · cases h; rfl
  · dsimp only at h
    split at h <;> · cases h; rfl

theorem engineRead_result {p : Params} {last : Bool} {u v : BusUnit} {rb : BusResult × Option Byte}
    (h : engineRead p last u = .done rb v) :
    v.result = rb.1 ∧ (rb.1 = .ok → ∃ b, rb.2 = some b ∧ v.data = some b) := by
  simp only [engineRead, BusOut.andThen_eq_done] at h
  obtain ⟨a, w, -, h⟩ := h
  rcases a with _ | a
  · cases h; simp
  · dsimp only at h
    split at h
    · cases h; simp
    · cases h; simp

theorem writeBytes_result {p : Params} {bs : List Byte} {u v : BusUnit} {r : BusResult} (hu : u.result = .ok)
    (h : writeBytes p bs u = .done r v) : v.result = r := by
  induction bs generalizing u with
  | nil => cases h; exact hu
  | cons b bs ih =>
    simp only [writeBytes, BusOut.andThen_eq_done] at h
    obtain ⟨r', w, hw, h⟩ := h
    split at h
    · next hr => exact ih ((engineWrite_result hw).trans hr) h
    · cases h; exact engineWrite_result hw

theorem readBytes_result {p : Params} {n : Nat} {u v : BusUnit} {rb : BusResult × List Byte} (hu : u.result = .ok)
    (h : readBytes p n u = .done rb v) : v.result = rb.1 ∧ (rb.1 = .ok → rb.2.length = n) := by
  induction n generalizing u v rb with
  | zero => cases h; exact ⟨hu, fun _ => rfl⟩
  | succ n ih =>
    simp only [readBytes, BusOut.andThen_eq_done] at h
    obtain ⟨⟨r, ob⟩, w, hw, h⟩ := h
    have hr := engineRead_result hw
    split at h
    · next b heq =>
      cases heq
      simp only [BusOut.andThen_eq_done] at h
      obtain ⟨rest, x, hx, h⟩ := h
      have hrest := ih hr.1 hx
      split at h
      · next hok => cases h; exact ⟨hrest.1.trans hok, fun _ => by simp [hrest.2 hok]⟩
      · next hok => cases h; exact ⟨hrest.1, fun hc => absurd hc hok⟩
    · next r' ob' hne heq =>
      cases heq
      cases h
      refine ⟨hr.1, fun hok => ?_⟩
      obtain ⟨b, hb, -⟩ := hr.2 hok
      exact (hne b hok hb).elim

/-- A MemWrite that is done has stopped the bus and left its result in `bus_result`. -/
theorem memWrite_end {p : Params} {reg : Byte} {bs : List Byte} {u v : BusUnit} {r : BusResult}
    (h : memWrite p reg bs u = .done r v) : v.phase = .idle ∧ v.result = r := by
  simp only [memWrite, BusOut.andThen_eq_done] at h
  obtain ⟨r1, w, hw, h⟩ := h
  split at h
  · cases h; exact ⟨rfl, by simpa using engineBegin_result hw⟩
  · simp only [BusOut.andThen_eq_done] at h
    obtain ⟨r2, x, hx, h⟩ := h
    split at h
    · cases h; exact ⟨rfl, by simpa using engineWrite_result hx⟩
    · next hok =>
      simp only [BusOut.andThen_eq_done] at h
      obtain ⟨r3, y, hy, h⟩ := h
      cases h
      exact ⟨rfl, by simpa using writeBytes_result ((engineWrite_result hx).trans (not_not.mp hok)) hy⟩

/-- A MemRead that is done has stopped the bus, left its result in `bus_result`, and on Ok has all its bytes. -/
theorem memRead_end {p : Params} {reg : Byte} {n : Nat} {u v : BusUnit} {rb : BusResult × List Byte}
    (h : memRead p reg n u = .done rb v) :
    v.phase = .idle ∧ v.result = rb.1 ∧ (rb.1 = .ok → rb.2.length = n) := by
  simp only [memRead, BusOut.andThen_eq_done] at h
  obtain ⟨r1, w, hw, h⟩ := h
  split at h
  · next hr => cases h; exact ⟨rfl, by simpa using engineBegin_result hw, fun hc => absurd hc hr⟩
  · simp only [BusOut.andThen_eq_done] at h
    obtain ⟨r2, x, hx, h⟩ := h
    split at h
    · next hr => cases h; exact ⟨rfl, by simpa using engineWrite_result hx, fun hc => absurd hc hr⟩
    · simp only [BusOut.andThen_eq_done] at h
      obtain ⟨r3, y, hy, h⟩ := h
      split at h
      · next hr => cases h; exact ⟨rfl, by simpa using engineBegin_result hy, fun hc => absurd hc hr⟩
      · next hok =>
        simp only [BusOut.andThen_eq_done] at h
        obtain ⟨rb', z, hz, h⟩ := h
        cases h
        have := readBytes_result ((engineBegin_result hy).trans (not_not.mp hok)) hz
        exact ⟨rfl, by simpa using this.1, this.2⟩

/-! ### The whole effect of a granted operation -/

theorem grants_iff {p : Params} {a : BusAnswer} {st : BusStatus} :
    grants p a st = true ↔ a.status = st ∧ waitEnd (boundOf p st) a.polls = .ready := by
  simp [grants]

theorem busAction_ready {bound : Option Nat} {e : WireEvent} {u : BusUnit}
    (h : waitEnd bound (u.comingAnswer 0).polls = .ready) :
    busAction bound e u = .done (some (u.comingAnswer 0)) (u.emit e).consume := by
  simp [busAction, h]

theorem busAction_timedOut {bound : Option Nat} {e : WireEvent} {u : BusUnit}
    (h : waitEnd bound (u.comingAnswer 0).polls = .timedOut) : busAction bound e u = .done none (u.emit e).consume := by
  simp [busAction, h]

theorem busAction_forever {bound : Option Nat} {e : WireEvent} {u : BusUnit}
    (h : waitEnd bound (u.comingAnswer 0).polls = .forever) : busAction bound e u = .hang (u.emit e).consume := by
  simp [busAction, h]

/-- A begin whose start and address are granted. -/
theorem engineBegin_granted {p : Params} {b : Byte} {u : BusUnit}
    (hw0 : waitEnd p.waitBound (u.comingAnswer 0).polls = .ready)
    (hs0 : (u.comingAnswer 0).status = .startOk ∨ (u.comingAnswer 0).status = .rstartOk)
    (hw1 : waitEnd p.waitBound (u.comingAnswer 1).polls = .ready)
    (hs1 : (u.comingAnswer 1).status = addressAck b) :
    engineBegin p b u = .done .ok { u.consume.consume with
      phase := addressPhase b, result := .ok, wire := u.wire ++ [startEvent u.phase, .address b] } := by
  unfold engineBegin
  rw [busAction_ready hw0]
  simp only [BusOut.andThen_done]
  rw [if_neg (by rcases hs0 with h | h <;> simp [h])]
  rw [busAction_ready (by simpa using hw1)]
  simp only [BusOut.andThen_done]
  rw [if_neg (by simpa using hs1)]
  rcases h : u.answers with _ | ⟨a, _ | ⟨c, as⟩⟩ <;>
    simp [BusUnit.consume, BusUnit.emit, h]

theorem engineWrite_granted {p : Params} {b : Byte} {u : BusUnit}
    (hw : waitEnd p.waitBound (u.comingAnswer 0).polls = .ready)
    (hs : (u.comingAnswer 0).status = .dataTxAck) :
    engineWrite p b u = .done .ok { u.consume with result := .ok, wire := u.wire ++ [.write b] } := by
  unfold engineWrite
  rw [busAction_ready hw]
  simp only [BusOut.andThen_done]
  rw [if_neg (by simp [hs])]
  rcases h : u.answers with _ | ⟨a, as⟩ <;> simp [BusUnit.consume, BusUnit.emit, h]

theorem engineRead_granted {p : Params} {last : Bool} {u : BusUnit}
    (hw : waitEnd (some p.readPollLimit) (u.comingAnswer 0).polls = .ready)
    (hs : (u.comingAnswer 0).status = readStatus last) :
    engineRead p last u = .done (.ok, some (u.comingAnswer 0).byte) { u.consume with
      data := some (u.comingAnswer 0).byte, result := .ok, phase := if last then .done else u.phase
      wire := u.wire ++ [.read last] } := by
  unfold engineRead
  rw [busAction_ready hw]
  simp only [BusOut.andThen_done]
  rw [if_neg (by simp [hs])]
  rcases h : u.answers with _ | ⟨a, as⟩ <;> simp [BusUnit.consume, BusUnit.emit, h]

@[simp] theorem consume_iterate_comingAnswer (n : Nat) (u : BusUnit) (k : Nat) :
    (BusUnit.consume^[n] u).comingAnswer k = u.comingAnswer (k + n) := by
  induction n generalizing u with
  | zero => rfl
  | succ n ih => rw [Function.iterate_succ_apply, ih, BusUnit.consume_comingAnswer]; congr 1

@[simp] theorem consume_iterate_phase (n : Nat) (u : BusUnit) : (BusUnit.consume^[n] u).phase = u.phase := by
  induction n generalizing u with
  | zero => rfl
  | succ n ih => rw [Function.iterate_succ_apply, ih, BusUnit.consume_phase]

/-- Taking answers looks at nothing but the queue and the counter. -/
theorem BusUnit.consume_with (u : BusUnit) (ph : BusPhase) (r : BusResult) (d : Option Byte) (w : List WireEvent) :
    ({ u with phase := ph, result := r, data := d, wire := w } : BusUnit).consume =
      { u.consume with phase := ph, result := r, data := d, wire := w } := by
  rcases h : u.answers with _ | ⟨a, as⟩ <;> simp [BusUnit.consume, h]

/-- The Bus unit after `n` answers, with its registers and record as given. -/
def BusUnit.taken (n : Nat) (u : BusUnit) (ph : BusPhase) (r : BusResult) (d : Option Byte) (w : List WireEvent) :
    BusUnit := { BusUnit.consume^[n] u with phase := ph, result := r, data := d, wire := w }

@[simp] theorem BusUnit.taken_comingAnswer (n : Nat) (u : BusUnit) (ph : BusPhase) (r : BusResult) (d : Option Byte)
    (w : List WireEvent) (k : Nat) : (u.taken n ph r d w).comingAnswer k = u.comingAnswer (k + n) :=
  (BusUnit.comingAnswer_congr rfl rfl k).trans (consume_iterate_comingAnswer n u k)

@[simp] theorem BusUnit.taken_consume (n : Nat) (u : BusUnit) (ph : BusPhase) (r : BusResult) (d : Option Byte)
    (w : List WireEvent) : (u.taken n ph r d w).consume = u.taken (n + 1) ph r d w := by
  unfold BusUnit.taken
  rw [BusUnit.consume_with, Function.iterate_succ_apply']

theorem BusUnit.taken_zero (u : BusUnit) : u = u.taken 0 u.phase u.result u.data u.wire := rfl

theorem grantsAll_cons {p : Params} {u : BusUnit} {k : Nat} {st : BusStatus} {sts : List BusStatus} :
    grantsAll p u k (st :: sts) = true ↔
      grants p (u.comingAnswer k) st = true ∧ grantsAll p u (k + 1) sts = true := by
  simp [grantsAll]

theorem grantsAll_append {p : Params} {u : BusUnit} {k : Nat} {xs ys : List BusStatus} :
    grantsAll p u k (xs ++ ys) = true ↔ grantsAll p u k xs = true ∧ grantsAll p u (k + xs.length) ys = true := by
  induction xs generalizing k with
  | nil => simp [grantsAll]
  | cons x xs ih =>
    rw [List.cons_append, grantsAll_cons, grantsAll_cons, ih, and_assoc, List.length_cons, Nat.add_assoc,
      Nat.add_comm 1]

/-- A begin granted from the `n`-th answer on. -/
theorem engineBegin_taken {p : Params} {b : Byte} {n : Nat} {u : BusUnit} {ph : BusPhase} {r : BusResult}
    {d : Option Byte} {w : List WireEvent} {st : BusStatus} (hst : st = .startOk ∨ st = .rstartOk)
    (h : grantsAll p u n [st, addressAck b] = true) :
    engineBegin p b (u.taken n ph r d w) =
      .done .ok (u.taken (n + 2) (addressPhase b) .ok d (w ++ [startEvent ph, .address b])) := by
  simp only [grantsAll_cons, grants_iff] at h
  obtain ⟨⟨hs0, hw0⟩, ⟨hs1, hw1⟩, -⟩ := h
  have hb : boundOf p st = p.waitBound := by rcases hst with rfl | rfl <;> rfl
  have ha : boundOf p (addressAck b) = p.waitBound := by unfold addressAck; split <;> rfl
  rw [engineBegin_granted (by simpa [← hb] using hw0) (by simpa [hs0] using hst)
    (by simpa [← ha, Nat.add_comm] using hw1) (by simpa [Nat.add_comm] using hs1)]
  simp only [BusUnit.taken_consume]
  rfl

theorem engineWrite_taken {p : Params} {b : Byte} {n : Nat} {u : BusUnit} {ph : BusPhase} {r : BusResult}
    {d : Option Byte} {w : List WireEvent} (h : grants p (u.comingAnswer n) .dataTxAck = true) :
    engineWrite p b (u.taken n ph r d w) = .done .ok (u.taken (n + 1) ph .ok d (w ++ [.write b])) := by
  rw [grants_iff] at h
  rw [engineWrite_granted (by simpa [boundOf] using h.2) (by simpa using h.1)]
  simp only [BusUnit.taken_consume]
  rfl

theorem engineRead_taken {p : Params} {last : Bool} {n : Nat} {u : BusUnit} {ph : BusPhase} {r : BusResult}
    {d : Option Byte} {w : List WireEvent} (h : grants p (u.comingAnswer n) (readStatus last) = true) :
    engineRead p last (u.taken n ph r d w) = .done (.ok, some (u.comingAnswer n).byte)
      (u.taken (n + 1) (if last then .done else ph) .ok (some (u.comingAnswer n).byte) (w ++ [.read last])) := by
  rw [grants_iff] at h
  have hb : boundOf p (readStatus last) = some p.readPollLimit := by cases last <;> rfl
  rw [engineRead_granted (by simpa [← hb] using h.2) (by simpa using h.1)]
  simp only [BusUnit.taken_consume, BusUnit.taken_comingAnswer, Nat.zero_add]
  rfl

theorem addressAck_write (a : BitVec 7) : addressAck (addrByte a false) = .slaWAck := by
  have : addressedForRead (addrByte a false) = false := by revert a; decide
  simp [addressAck, this]

theorem addressAck_read (a : BitVec 7) : addressAck (addrByte a true) = .slaRAck := by
  have : addressedForRead (addrByte a true) = true := by revert a; decide
  simp [addressAck, this]

/-- A MemWrite of one byte whose actions are granted from the `n`-th answer on, started on an idle bus (R47). -/
theorem memWrite_granted {p : Params} {reg v : Byte} {n : Nat} {u : BusUnit} {r : BusResult} {d : Option Byte}
    {w : List WireEvent} (h : grantsAll p u n writeStatuses = true) :
    memWrite p reg [v] (u.taken n .idle r d w) =
      .done .ok (u.taken (n + 4) .idle .ok d (w ++ writeTranscript p reg v)) := by
  have hs : writeStatuses = [.startOk, addressAck (addrByte p.rtcAddr false)] ++ [.dataTxAck, .dataTxAck] := by
    rw [addressAck_write]; rfl
  rw [hs, grantsAll_append] at h
  simp only [List.length_cons, List.length_nil, grantsAll_cons] at h
  unfold memWrite
  rw [engineBegin_taken (.inl rfl) (by simpa only [grantsAll_cons] using h.1)]
  simp only [BusOut.andThen_done, ne_eq, not_true_eq_false, if_false]
  rw [engineWrite_taken h.2.1]
  simp only [BusOut.andThen_done, not_true_eq_false, if_false, writeBytes]
  rw [engineWrite_taken h.2.2.1]
  simp [BusUnit.stop, BusUnit.emit, BusUnit.taken, writeTranscript, writeActions, startEvent]

/-- The bytes of the next answers. -/
def BusUnit.bytes (u : BusUnit) (k n : Nat) : List Byte := (List.range n).map fun j => (u.comingAnswer (k + j)).byte

theorem BusUnit.bytes_succ (u : BusUnit) (k n : Nat) :
    u.bytes k (n + 1) = (u.comingAnswer k).byte :: u.bytes (k + 1) n := by
  simp [BusUnit.bytes, List.range_succ_eq_map, Function.comp_def, Nat.add_assoc, Nat.add_comm 1]

/-- The data bytes of a MemRead whose actions are granted (R46). -/
theorem readBytes_granted {p : Params} {n k : Nat} {u : BusUnit} {r : BusResult} {d : Option Byte}
    {w : List WireEvent} (h : grantsAll p u k (List.replicate n .dataRxAck ++ [.dataRxNack]) = true) :
    readBytes p (n + 1) (u.taken k .rx r d w) = .done (.ok, u.bytes k (n + 1))
      (u.taken (k + n + 1) .done .ok (some (u.comingAnswer (k + n)).byte)
        (w ++ (List.replicate n (.read false) ++ [.read true]))) := by
  induction n generalizing k r d w with
  | zero =>
    simp only [List.replicate, List.nil_append, grantsAll_cons] at h
    unfold readBytes
    rw [engineRead_taken (last := (0 == 0)) h.1]
    simp [readBytes, BusUnit.bytes]
  | succ n ih =>
    simp only [List.replicate, List.cons_append, grantsAll_cons] at h
    unfold readBytes
    rw [engineRead_taken (last := (n + 1 == 0)) h.1]
    simp only [BusOut.andThen_done]
    rw [show (if (n + 1 == 0) = true then BusPhase.done else .rx) = .rx from rfl, ih h.2]
    simp only [BusOut.andThen_done, if_true]
    rw [u.bytes_succ k (n + 1)]
    simp [List.replicate, Nat.add_assoc, Nat.add_comm 1]

/-- A MemRead of `m + 1` bytes whose actions are granted from the `n`-th answer on, started on an idle bus (R46). -/
theorem memRead_granted {p : Params} {reg : Byte} {m n : Nat} {u : BusUnit} {r : BusResult} {d : Option Byte}
    {w : List WireEvent} (h : grantsAll p u n (readStatuses m) = true) :
    memRead p reg (m + 1) (u.taken n .idle r d w) = .done (.ok, u.bytes (n + 5) (m + 1))
      (u.taken (n + 5 + m + 1) .idle .ok (some (u.comingAnswer (n + 5 + m)).byte) (w ++ readTranscript p reg m)) := by
  have hs : readStatuses m = [.startOk, addressAck (addrByte p.rtcAddr false)] ++ ([.dataTxAck] ++
      ([.rstartOk, addressAck (addrByte p.rtcAddr true)] ++ (List.replicate m .dataRxAck ++ [.dataRxNack]))) := by
    rw [addressAck_write, addressAck_read]; rfl
  rw [hs, grantsAll_append, grantsAll_append, grantsAll_append] at h
  obtain ⟨h1, h2, h3, h4⟩ := h
  simp only [List.length_cons, List.length_nil] at h2 h3 h4
  unfold memRead
  rw [engineBegin_taken (.inl rfl) h1]
  simp only [BusOut.andThen_done, ne_eq, not_true_eq_false, if_false]
  rw [engineWrite_taken (grantsAll_cons.mp h2).1]
  simp only [BusOut.andThen_done, not_true_eq_false, if_false]
  rw [engineBegin_taken (.inr rfl) (by simpa only [Nat.add_assoc] using h3)]
  simp only [BusOut.andThen_done, not_true_eq_false, if_false]
  have hp : addressPhase (addrByte p.rtcAddr true) = .rx := by
    have : addressedForRead (addrByte p.rtcAddr true) = true := by generalize p.rtcAddr = a; revert a; decide
    simp [addressPhase, this]
  have hq : addressPhase (addrByte p.rtcAddr false) = .tx := by
    have : addressedForRead (addrByte p.rtcAddr false) = false := by generalize p.rtcAddr = a; revert a; decide
    simp [addressPhase, this]
  rw [hp, hq, readBytes_granted (by simpa only [Nat.add_assoc] using h4)]
  simp [BusUnit.stop, BusUnit.emit, BusUnit.taken, readTranscript, readActions, startEvent, Nat.add_assoc]

/-! ### The first failing action of an operation (R48) -/

theorem startEvent_bound (p : Params) (ph : BusPhase) : (startEvent ph).bound p = p.waitBound := by
  unfold startEvent; split <;> rfl

theorem startEvent_goodStatuses (ph : BusPhase) : (startEvent ph).goodStatuses = [.startOk, .rstartOk] := by
  unfold startEvent; split <;> rfl

theorem startEvent_statusError (ph : BusPhase) : (startEvent ph).statusError = .startFailed := by
  unfold startEvent; split <;> rfl

theorem WireEvent.bound_address (p : Params) (b : Byte) : (WireEvent.address b).bound p = p.waitBound := rfl

theorem WireEvent.bound_write (p : Params) (b : Byte) : (WireEvent.write b).bound p = p.waitBound := rfl

theorem WireEvent.bound_read (p : Params) (last : Bool) : (WireEvent.read last).bound p = some p.readPollLimit := rfl

@[simp] theorem BusUnit.taken_phase (n : Nat) (u : BusUnit) (ph : BusPhase) (r : BusResult) (d : Option Byte)
    (w : List WireEvent) : (u.taken n ph r d w).phase = ph := rfl

variable {p : Params} {u : BusUnit} {n : Nat} {ph : BusPhase} {r e : BusResult} {d : Option Byte} {w : List WireEvent}

/-- Sending an event and taking its answer. -/
theorem emit_consume_taken (ev : WireEvent) :
    ((u.taken n ph r d w).emit ev).consume = u.taken (n + 1) ph r d (w ++ [ev]) := by
  rw [← BusUnit.taken_consume]
  rfl

theorem abort_taken : (u.taken n ph r d w).abort e = u.taken n .idle e d (w ++ [.stop]) := rfl

theorem engineBegin_succeeds {b : Byte} (h0 : (startEvent ph).succeeds p (u.comingAnswer n))
    (h1 : (WireEvent.address b).succeeds p (u.comingAnswer (n + 1))) :
    engineBegin p b (u.taken n ph r d w) =
      .done .ok (u.taken (n + 2) (addressPhase b) .ok d (w ++ [startEvent ph, .address b])) := by
  simp only [WireEvent.succeeds, startEvent_bound, startEvent_goodStatuses] at h0
  rw [engineBegin_granted (by simpa using h0.1) (by simpa using h0.2)
    (by simpa [Nat.add_comm, WireEvent.bound_address] using h1.1)
    (by simpa [Nat.add_comm, WireEvent.goodStatuses, addressAck, addressedForRead] using h1.2)]
  simp only [BusUnit.taken_consume]
  rfl

/-- A begin whose start fails (R81). -/
theorem engineBegin_startFails {b : Byte} (h : (startEvent ph).failsWith p (u.comingAnswer n) e) :
    engineBegin p b (u.taken n ph r d w) =
      .done e (u.taken (n + 1) .idle e d (w ++ [startEvent ph, .stop])) := by
  simp only [WireEvent.failsWith, startEvent_bound, startEvent_goodStatuses, startEvent_statusError] at h
  unfold engineBegin
  rcases h with ⟨hw, rfl⟩ | ⟨hw, hs, rfl⟩
  · rw [busAction_timedOut (by simpa using hw), emit_consume_taken]
    simp [abort_taken]
  · rw [busAction_ready (by simpa using hw), emit_consume_taken]
    simp only [BusOut.andThen_done]
    rw [if_pos (by simpa using hs)]
    simp [abort_taken]

/-- A begin whose address is not acknowledged in time (R81). -/
theorem engineBegin_addressFails {b : Byte} (h0 : (startEvent ph).succeeds p (u.comingAnswer n))
    (h1 : (WireEvent.address b).failsWith p (u.comingAnswer (n + 1)) e) :
    engineBegin p b (u.taken n ph r d w) =
      .done e (u.taken (n + 2) .idle e d (w ++ [startEvent ph, .address b, .stop])) := by
  simp only [WireEvent.succeeds, startEvent_bound, startEvent_goodStatuses] at h0
  unfold engineBegin
  rw [busAction_ready (by simpa using h0.1), emit_consume_taken]
  simp only [BusOut.andThen_done]
  rw [if_neg (by have := h0.2; simp at this; simp; tauto)]
  rcases h1 with ⟨hw, rfl⟩ | ⟨hw, hs, rfl⟩
  · rw [busAction_timedOut (by simpa [Nat.add_comm, WireEvent.bound_address] using hw), emit_consume_taken]
    simp [abort_taken]
  · rw [busAction_ready (by simpa [Nat.add_comm, WireEvent.bound_address] using hw), emit_consume_taken]
    simp only [BusOut.andThen_done]
    rw [if_pos (by simpa [Nat.add_comm, WireEvent.goodStatuses, addressAck, addressedForRead] using hs)]
    simp [abort_taken, WireEvent.statusError]

theorem engineWrite_succeeds {b : Byte} (h : (WireEvent.write b).succeeds p (u.comingAnswer n)) :
    engineWrite p b (u.taken n ph r d w) = .done .ok (u.taken (n + 1) ph .ok d (w ++ [.write b])) :=
  engineWrite_taken (grants_iff.mpr ⟨by simpa [WireEvent.goodStatuses] using h.2, h.1⟩)

theorem engineWrite_fails {b : Byte} (h : (WireEvent.write b).failsWith p (u.comingAnswer n) e) :
    engineWrite p b (u.taken n ph r d w) = .done e (u.taken (n + 1) .idle e d (w ++ [.write b, .stop])) := by
  unfold engineWrite
  rcases h with ⟨hw, rfl⟩ | ⟨hw, hs, rfl⟩
  · rw [busAction_timedOut (by simpa [WireEvent.bound_write] using hw), emit_consume_taken]
    simp [abort_taken]
  · rw [busAction_ready (by simpa [WireEvent.bound_write] using hw), emit_consume_taken]
    simp only [BusOut.andThen_done]
    rw [if_pos (by simpa [WireEvent.goodStatuses] using hs)]
    simp [abort_taken, WireEvent.statusError]

theorem engineRead_succeeds {last : Bool} (h : (WireEvent.read last).succeeds p (u.comingAnswer n)) :
    engineRead p last (u.taken n ph r d w) = .done (.ok, some (u.comingAnswer n).byte)
      (u.taken (n + 1) (if last then .done else ph) .ok (some (u.comingAnswer n).byte) (w ++ [.read last])) :=
  engineRead_taken (grants_iff.mpr
    ⟨by simpa [WireEvent.goodStatuses, readStatus] using h.2, by cases last <;> exact h.1⟩)

theorem engineRead_fails {last : Bool} (h : (WireEvent.read last).failsWith p (u.comingAnswer n) e) :
    engineRead p last (u.taken n ph r d w) =
      .done (e, none) (u.taken (n + 1) .idle e d (w ++ [.read last, .stop])) := by
  unfold engineRead
  rcases h with ⟨hw, rfl⟩ | ⟨hw, hs, rfl⟩
  · rw [busAction_timedOut (by simpa [WireEvent.bound_read] using hw), emit_consume_taken]
    simp [abort_taken]
  · rw [busAction_ready (by simpa [WireEvent.bound_read] using hw), emit_consume_taken]
    simp only [BusOut.andThen_done]
    rw [if_pos (by simpa [WireEvent.goodStatuses, readStatus] using hs)]
    simp [abort_taken, WireEvent.statusError]

/-- The data bytes of a MemWrite whose action `k` is the first that fails (R47, R48). -/
theorem writeBytes_fails {v : List Byte} {k : Nat} {b : Byte} (hb : v[k]? = some b)
    (hs : ∀ j < k, ∀ c, v[j]? = some c → (WireEvent.write c).succeeds p (u.comingAnswer (n + j)))
    (hf : (WireEvent.write b).failsWith p (u.comingAnswer (n + k)) e) (he : e ≠ .ok) :
    writeBytes p v (u.taken n ph r d w) =
      .done e (u.taken (n + k + 1) .idle e d (w ++ (v.map .write).take (k + 1) ++ [.stop])) := by
  induction v generalizing n k r w with
  | nil => cases hb
  | cons c v ih =>
    unfold writeBytes
    cases k with
    | zero =>
      cases hb
      rw [engineWrite_fails (n := n) hf]
      simp [he]
    | succ k =>
      rw [engineWrite_succeeds (n := n) (hs 0 (Nat.succ_pos k) c rfl)]
      simp only [BusOut.andThen_done, if_true]
      rw [ih (k := k) (by simpa using hb)
        (fun j hj c' hc => by
          have := hs (j + 1) (by omega) c' (by simpa using hc)
          rwa [show n + 1 + j = n + (j + 1) by omega])
        (by rwa [show n + 1 + k = n + (k + 1) by omega])]
      simp [show n + 1 + k + 1 = n + (k + 1) + 1 by omega]

theorem writeBytes_succeeds {v : List Byte}
    (hs : ∀ j c, v[j]? = some c → (WireEvent.write c).succeeds p (u.comingAnswer (n + j))) :
    writeBytes p v (u.taken n ph .ok d w) = .done .ok (u.taken (n + v.length) ph .ok d (w ++ v.map .write)) := by
  induction v generalizing n w with
  | nil => simp [writeBytes]
  | cons c v ih =>
    unfold writeBytes
    rw [engineWrite_succeeds (n := n) (hs 0 c rfl)]
    simp only [BusOut.andThen_done, if_true]
    rw [ih (fun j c' hc => by
          have := hs (j + 1) c' (by simpa using hc)
          rwa [show n + 1 + j = n + (j + 1) by omega])]
    simp [show n + 1 + v.length = n + (v.length + 1) by omega]

/-- The data bytes of a MemRead of `m + 1` bytes whose action `k` is the first that fails (R46, R48). -/
theorem readBytes_fails {m k : Nat} {ev : WireEvent}
    (hb : (List.replicate m (WireEvent.read false) ++ [.read true])[k]? = some ev)
    (hs : ∀ j < k, ∀ c, (List.replicate m (WireEvent.read false) ++ [.read true])[j]? = some c →
      c.succeeds p (u.comingAnswer (n + j)))
    (hf : ev.failsWith p (u.comingAnswer (n + k)) e) (he : e ≠ .ok) :
    readBytes p (m + 1) (u.taken n ph r d w) =
      .done (e, []) (u.taken (n + k + 1) .idle e (if k = 0 then d else some (u.comingAnswer (n + k - 1)).byte)
        (w ++ (List.replicate m (WireEvent.read false) ++ [WireEvent.read true]).take (k + 1) ++ [.stop])) := by
  induction m generalizing n k r d w ph with
  | zero =>
    obtain rfl : k = 0 := by
      rcases k with _ | k
      · rfl
      · simp at hb
    simp at hb; subst hb
    unfold readBytes
    rw [engineRead_fails (n := n) (last := (0 == 0)) hf]
    simp
  | succ m ih =>
    rw [List.replicate_succ, List.cons_append] at hb hs ⊢
    unfold readBytes
    cases k with
    | zero =>
      cases hb
      rw [engineRead_fails (n := n) (last := (m + 1 == 0)) hf]
      simp
    | succ k =>
      rw [engineRead_succeeds (n := n) (last := (m + 1 == 0)) (hs 0 (Nat.succ_pos k) _ rfl)]
      simp only [BusOut.andThen_done]
      rw [ih (k := k) (by simpa using hb)
        (fun j hj c' hc => by
          have := hs (j + 1) (by omega) c' (by simpa using hc)
          rwa [show n + 1 + j = n + (j + 1) by omega])
        (by rwa [show n + 1 + k = n + (k + 1) by omega])]
      rcases k with _ | k
      · simp [he]
      · simp [he, show n + 1 + (k + 1) + 1 = n + (k + 1 + 1) + 1 by omega, show n + 1 + k = n + (k + 1) by omega]
end Sys2Proof.Machine
end

