-- ==== Sys2Proof/Laws/PerInstr.lean ====
section
/-!
SUPPORT. The family EncodesToItsRow: the word of an instruction selects the row of the instruction's own mnemonic, and
reading that row's operands from the word gives the instruction back (spec/30_encoding.md R61, R62).
-/

namespace Sys2Proof.Laws.EncodesToItsRow

/-- The mnemonic of an instruction's row (R62). -/
def mnemonicOf : Instr → String
  | .tmrFast => "TMR_FAST"
  | .tmrSlow => "TMR_SLOW"
  | .isrFast => "ISR_FAST"
  | .isrSlow => "ISR_SLOW"
  | .waitTick => "WAIT_TICK"
  | .dispSetDigit _ _ => "DISP_SET_DIGIT"
  | .dispSetMode _ => "DISP_SET_MODE"
  | .busBegin _ => "BUS_BEGIN"
  | .busWrite _ => "BUS_WRITE"
  | .busRead _ => "BUS_READ"
  | .busEnd => "BUS_END"
  | .tkInit => "TK_INIT"
  | .tkRefresh => "TK_REFRESH"
  | .tkAdjMin _ => "TK_ADJ_MIN"
  | .tkAdjHour _ => "TK_ADJ_HOUR"
  | .tkToggleMode => "TK_TOGGLE_MODE"
  | .tkGetTime => "TK_GET_TIME"
  | .keyDecode => "KEY_DECODE"
  | .debStep => "DEB_STEP"
  | .debStepK _ => "DEB_STEP_K"
  | .btnGet _ => "BTN_GET"
  | .btnConsume _ => "BTN_CONSUME"

/-- An instruction encodes to a word of its own row, from which its operands are read back. -/
def Statement (i : Instr) : Prop :=
  ∃ r, opcodeRows.find? (fun r => r.selects (encode i)) = some r ∧ r.mnemonic = mnemonicOf i ∧ r.read (encode i) = i

/-- A decidable form: the row found has the mnemonic and reads the instruction. -/
def holds (i : Instr) : Bool :=
  match opcodeRows.find? (fun r => r.selects (encode i)) with
  | none => false
  | some r => r.mnemonic == mnemonicOf i && r.read (encode i) == i

theorem statement_of_holds {i : Instr} (h : holds i = true) : Statement i := by
  unfold holds at h
  split at h
  · cases h
  · next r hr =>
    simp only [Bool.and_eq_true, beq_iff_eq] at h
    exact ⟨r, hr, h.1, h.2⟩

theorem tmrFast : Statement .tmrFast := statement_of_holds (by decide)

theorem tmrSlow : Statement .tmrSlow := statement_of_holds (by decide)

theorem isrFast : Statement .isrFast := statement_of_holds (by decide)

theorem isrSlow : Statement .isrSlow := statement_of_holds (by decide)

theorem waitTick : Statement .waitTick := statement_of_holds (by decide)

theorem dispSetDigit (pos : BitVec 2) (val : BitVec 4) : Statement (.dispSetDigit pos val) :=
  statement_of_holds (by revert pos val; decide)

theorem dispSetMode (on : Bool) : Statement (.dispSetMode on) :=
  statement_of_holds (by revert on; decide)

theorem busBegin (b : Byte) : Statement (.busBegin b) :=
  statement_of_holds (by revert b; decide)

theorem busWrite (b : Byte) : Statement (.busWrite b) :=
  statement_of_holds (by revert b; decide)

theorem busRead (last : Bool) : Statement (.busRead last) :=
  statement_of_holds (by revert last; decide)

theorem busEnd : Statement .busEnd := statement_of_holds (by decide)

theorem tkInit : Statement .tkInit := statement_of_holds (by decide)

theorem tkRefresh : Statement .tkRefresh := statement_of_holds (by decide)

theorem tkAdjMin (dir : Direction) : Statement (.tkAdjMin dir) :=
  statement_of_holds (by cases dir <;> decide)

theorem tkAdjHour (dir : Direction) : Statement (.tkAdjHour dir) :=
  statement_of_holds (by cases dir <;> decide)

theorem tkToggleMode : Statement .tkToggleMode := statement_of_holds (by decide)

theorem tkGetTime : Statement .tkGetTime := statement_of_holds (by decide)

theorem keyDecode : Statement .keyDecode := statement_of_holds (by decide)

theorem debStep : Statement .debStep := statement_of_holds (by decide)

theorem debStepK (key : BitVec 3) : Statement (.debStepK key) :=
  statement_of_holds (by revert key; decide)

theorem btnGet (id : BitVec 3) : Statement (.btnGet id) :=
  statement_of_holds (by revert id; decide)

theorem btnConsume (id : BitVec 3) : Statement (.btnConsume id) :=
  statement_of_holds (by revert id; decide)

end Sys2Proof.Laws.EncodesToItsRow
end

