-- ==== Sys2Proof/Laws/TimeOps.lean ====
section
/-!
SUPPORT. What the shared operations of the TimeKeeper unit can do (spec/42_timekeeper.md R93 to R98): what they leave of
the state, when they hang, how they end, and their whole effect when every action is granted.
-/

namespace Sys2Proof.Machine

/-! ### Sequencing -/

theorem Flow.andThen_eq_done {α β : Type} {x : Flow α} {f : α → State → Flow β} {b : β} {t : State} :
    x.andThen f = .done b t ↔ ∃ a s, x = .done a s ∧ f a s = .done b t := by
  cases x <;> simp [Flow.andThen]

theorem Flow.andThen_eq_hang {α β : Type} {x : Flow α} {f : α → State → Flow β} {t : State} :
    x.andThen f = .hang t ↔ x = .hang t ∨ ∃ a s, x = .done a s ∧ f a s = .hang t := by
  cases x <;> simp [Flow.andThen]

theorem Flow.andThen_eq_fault {α β : Type} {x : Flow α} {f : α → State → Flow β} {e : Fault} :
    x.andThen f = .fault e ↔ x = .fault e ∨ ∃ a s, x = .done a s ∧ f a s = .fault e := by
  cases x <;> simp [Flow.andThen]

@[simp] theorem Flow.andThen_done {α β : Type} (a : α) (s : State) (f : α → State → Flow β) :
    (Flow.done a s).andThen f = f a s := rfl

@[simp] theorem Flow.ending_done {α : Type} (a : α) (s : State) (f : α → State → State) :
    (Flow.done a s).ending f = .next (f a s) := rfl

/-- A step that goes on comes from an operation that is done, or that hangs. -/
theorem Flow.ending_eq_next {α : Type} {x : Flow α} {f : α → State → State} {t : State} (h : x.ending f = .next t) :
    (∃ a s, x = .done a s ∧ t = f a s) ∨ (∃ s, x = .hang s ∧ t = s.hang) := by
  cases x with
  | done a s => exact .inl ⟨a, s, rfl, by cases h; rfl⟩
  | hang s => exact .inr ⟨s, rfl, by cases h; rfl⟩
  | fault e => cases h

theorem Flow.ending_ne_refused {α : Type} (x : Flow α) (f : α → State → State) (r : Refusal) :
    x.ending f ≠ .refused r := by
  cases x <;> simp [Flow.ending]

/-! ### The frame of a TimeKeeper operation -/

/-- Nothing but the Bus unit, `time` and `halt_s` has changed; the Bus unit stays sound and its record only grows. -/
structure TimeFrame (s t : State) : Prop where
  outside : sameOutsideTime s t
  fg : t.fg = s.fg
  hung : t.hung = s.hung
  tkResult : t.tk.tkResult = s.tk.tkResult
  sound : s.bus.Sound → t.bus.Sound
  wire : ∃ l, t.bus.wire = s.bus.wire ++ l

theorem TimeFrame.refl (s : State) : TimeFrame s s :=
  ⟨⟨rfl, rfl, rfl, rfl, rfl⟩, rfl, rfl, rfl, id, [], by simp⟩

theorem TimeFrame.trans {s t u : State} (h : TimeFrame s t) (h' : TimeFrame t u) : TimeFrame s u := by
  obtain ⟨l, hl⟩ := h.wire
  obtain ⟨l', hl'⟩ := h'.wire
  obtain ⟨a1, a2, a3, a4, a5⟩ := h.outside
  obtain ⟨b1, b2, b3, b4, b5⟩ := h'.outside
  exact ⟨⟨b1.trans a1, b2.trans a2, b3.trans a3, b4.trans a4, b5.trans a5⟩, h'.fg.trans h.fg, h'.hung.trans h.hung,
    h'.tkResult.trans h.tkResult, h'.sound ∘ h.sound, l ++ l', by rw [hl', hl, List.append_assoc]⟩

theorem TimeFrame.setTime (t : TimeRec) (s : State) : TimeFrame s (s.setTime t) :=
  ⟨⟨rfl, rfl, rfl, rfl, rfl⟩, rfl, rfl, rfl, id, [], by simp⟩

theorem TimeFrame.setHalt (b : Byte) (s : State) : TimeFrame s (s.setHalt b) :=
  ⟨⟨rfl, rfl, rfl, rfl, rfl⟩, rfl, rfl, rfl, id, [], by simp⟩

/-- Done, hung or faulted, the operation has the frame of a TimeKeeper operation. -/
def Flow.Frames {α : Type} (s : State) (x : Flow α) : Prop :=
  match x with
  | .done _ t => TimeFrame s t
  | .hang t => TimeFrame s t
  | .fault (.unwritten t) => TimeFrame s t
  | .fault (.rtcDataInvalid t) => TimeFrame s t

theorem Flow.Frames.andThen {α β : Type} {s : State} {x : Flow α} {f : α → State → Flow β} (hx : x.Frames s)
    (hf : ∀ a t, x = .done a t → (f a t).Frames t) : (x.andThen f).Frames s := by
  cases x with
  | hang t => exact hx
  | fault e => cases e <;> exact hx
  | done a t =>
    have h := hf a t rfl
    simp only [Flow.andThen_done]
    cases hfa : f a t with
    | done b u => rw [hfa] at h; exact TimeFrame.trans hx h
    | hang u => rw [hfa] at h; exact TimeFrame.trans hx h
    | fault e => rw [hfa] at h; cases e <;> exact TimeFrame.trans hx h

theorem Flow.Frames.prepend {α : Type} {s t : State} {x : Flow α} (h : TimeFrame s t) (hx : x.Frames t) :
    x.Frames s :=
  Flow.Frames.andThen (x := .done () t) (f := fun _ _ => x) h fun _ _ he => by cases he; exact hx

theorem BusOut.Keeps.into {α : Type} {s : State} {x : BusOut α} (h : x.Keeps s.bus) : (x.into s).Frames s := by
  cases x with
  | done a u => exact ⟨⟨rfl, rfl, rfl, rfl, rfl⟩, rfl, rfl, rfl, h.1, h.2⟩
  | hang u => exact ⟨⟨rfl, rfl, rfl, rfl, rfl⟩, rfl, rfl, rfl, h.1, h.2⟩

theorem readChip_frames (reg : Byte) (n : Nat) (s : State) : (readChip reg n s).Frames s :=
  (memRead_keeps _ _ _ _).into

theorem writeChip_frames (reg v : Byte) (s : State) : (writeChip reg v s).Frames s :=
  (memWrite_keeps _ _ _ _).into

theorem halt_frames (s : State) : (halt s).Frames s := by
  refine (readChip_frames _ _ _).andThen fun rb t _ => ?_
  split
  · exact TimeFrame.refl t
  · refine Flow.Frames.prepend (TimeFrame.setHalt _ t) ((writeChip_frames _ _ _).andThen fun r u _ => ?_)
    exact TimeFrame.refl u

theorem unhalt_frames (s : State) : (unhalt s).Frames s := by
  unfold unhalt
  split
  · exact TimeFrame.refl s
  · exact writeChip_frames _ _ _

theorem refresh_frames (s : State) : (refresh s).Frames s := by
  refine (readChip_frames _ _ _).andThen fun rb t _ => ?_
  split
  · split
    · exact TimeFrame.setTime _ t
    · exact TimeFrame.refl t
  · exact TimeFrame.refl t

theorem tkInitBody_frames (s : State) : (tkInitBody s).Frames s := by
  refine (writeChip_frames _ _ _).andThen fun r1 t _ => ?_
  refine (readChip_frames _ _ _).andThen fun rb u _ => ?_
  refine (writeChip_frames _ _ _).andThen fun r3 v _ => ?_
  exact TimeFrame.setTime _ v

theorem mutateTime_frames (new : TimeRec → TimeRec) (reg : Byte) (byte : TimeRec → Byte) (s : State) :
    (mutateTime new reg byte s).Frames s := by
  unfold mutateTime
  split
  · exact TimeFrame.refl s
  · refine (halt_frames s).andThen fun r1 t _ => ?_
    refine Flow.Frames.prepend (TimeFrame.setTime _ t) ((writeChip_frames _ _ _).andThen fun r2 u _ => ?_)
    exact (unhalt_frames u).andThen fun r3 v _ => TimeFrame.refl v

theorem toggleBody_frames (s : State) : (toggleBody s).Frames s := by
  refine (halt_frames s).andThen fun r1 t _ => ?_
  refine (refresh_frames t).andThen fun r2 u _ => ?_
  split
  · exact TimeFrame.refl u
  · refine Flow.Frames.prepend (TimeFrame.setTime _ u) ((writeChip_frames _ _ _).andThen fun r3 v _ => ?_)
    exact (unhalt_frames v).andThen fun r4 w _ => TimeFrame.refl w

/-! ### When a TimeKeeper operation hangs -/

/-- From `s` the operation takes at most `n` answers, and hangs only in an unbounded wait that never ends. -/
def Flow.Within {α : Type} (s : State) (n : Nat) (x : Flow α) : Prop :=
  match x with
  | .done _ t => t.par = s.par ∧ ∃ k ≤ n, ∀ j, t.bus.comingAnswer j = s.bus.comingAnswer (j + k)
  | .hang _ => s.par.waitBound = none ∧ ∃ k < n, (s.bus.comingAnswer k).polls = none
  | .fault _ => True

theorem Flow.Within.andThen {α β : Type} {s : State} {n m : Nat} {x : Flow α} {f : α → State → Flow β}
    (hx : x.Within s n) (hf : ∀ a t, x = .done a t → (f a t).Within t m) : (x.andThen f).Within s (n + m) := by
  cases x with
  | fault e => trivial
  | hang t =>
    obtain ⟨hb, k, hk, h⟩ := hx
    exact ⟨hb, k, by omega, h⟩
  | done a t =>
    obtain ⟨hp, k, hk, ht⟩ := hx
    have h := hf a t rfl
    simp only [Flow.andThen_done]
    cases hfa : f a t with
    | fault e => trivial
    | done b u =>
      obtain ⟨hq, l, hl, hu⟩ := hfa ▸ h
      exact ⟨hq.trans hp, k + l, by omega, fun j => by rw [hu, ht, Nat.add_assoc, Nat.add_comm l k]⟩
    | hang u =>
      obtain ⟨hb, l, hl, hu⟩ := hfa ▸ h
      exact ⟨hp ▸ hb, l + k, by omega, by rw [← ht, hu]⟩

theorem Flow.Within.mono {α : Type} {s : State} {n m : Nat} {x : Flow α} (h : x.Within s n) (hnm : n ≤ m) :
    x.Within s m := by
  cases x with
  | fault e => trivial
  | done a t =>
    obtain ⟨hp, k, hk, ht⟩ := h
    exact ⟨hp, k, by omega, ht⟩
  | hang t =>
    obtain ⟨hb, k, hk, ht⟩ := h
    exact ⟨hb, k, by omega, ht⟩

theorem Flow.Within.done_same {α : Type} {s t : State} {a : α} (hp : t.par = s.par) (hb : t.bus = s.bus) :
    (Flow.done a t).Within s 0 := ⟨hp, 0, le_rfl, fun j => by rw [hb]; rfl⟩

/-- The premise reads the same parameters and the same answers. -/
theorem Flow.Within.congr {α : Type} {s s' : State} {n : Nat} {x : Flow α} (hp : s'.par = s.par)
    (hb : s'.bus = s.bus) (h : x.Within s' n) : x.Within s n := by
  cases x with
  | done a t => rw [Flow.Within, ← hp, ← hb]; exact h
  | hang t => rw [Flow.Within, ← hp, ← hb]; exact h
  | fault e => trivial

theorem BusOut.Within.into {α : Type} {s : State} {n : Nat} {x : BusOut α} (h : x.Within s.par s.bus n) :
    (x.into s).Within s n := by
  cases x with
  | done a u => exact ⟨rfl, h⟩
  | hang u => exact h

theorem readChip_within (reg : Byte) (n : Nat) (s : State) : (readChip reg n s).Within s (5 + n) :=
  (memRead_within _ _ _ _).into

theorem writeChip_within (reg v : Byte) (s : State) : (writeChip reg v s).Within s 4 :=
  (memWrite_within _ _ _ _).into

theorem halt_within (s : State) : (halt s).Within s 10 := by
  refine (readChip_within _ _ _).andThen (m := 4) fun rb t _ => ?_
  split
  · trivial
  · refine Flow.Within.congr (s' := t.setHalt _) rfl rfl
      ((writeChip_within _ _ _).andThen (m := 0) fun r u _ => ?_)
    exact Flow.Within.done_same rfl rfl

theorem unhalt_within (s : State) : (unhalt s).Within s 4 := by
  unfold unhalt
  split
  · trivial
  · exact writeChip_within _ _ _

theorem refresh_within (s : State) : (refresh s).Within s 8 := by
  refine (readChip_within _ _ _).andThen (m := 0) fun rb t _ => ?_
  split
  · split
    · exact Flow.Within.done_same rfl rfl
    · trivial
  · exact Flow.Within.done_same rfl rfl

theorem tkInitBody_within (s : State) : (tkInitBody s).Within s 14 := by
  refine (writeChip_within _ _ _).andThen (m := 10) fun r1 t _ => ?_
  refine (readChip_within _ _ _).andThen (m := 4) fun rb u _ => ?_
  exact (writeChip_within _ _ _).andThen (m := 0) fun r3 v _ => Flow.Within.done_same rfl rfl

theorem mutateTime_within (new : TimeRec → TimeRec) (reg : Byte) (byte : TimeRec → Byte) (s : State) :
    (mutateTime new reg byte s).Within s 18 := by
  unfold mutateTime
  split
  · trivial
  · refine (halt_within s).andThen (m := 8) fun r1 t _ => ?_
    refine Flow.Within.congr (s' := t.setTime _) rfl rfl
      ((writeChip_within _ _ _).andThen (m := 4) fun r2 u _ => ?_)
    exact (unhalt_within u).andThen (m := 0) fun r3 v _ => Flow.Within.done_same rfl rfl

theorem toggleBody_within (s : State) : (toggleBody s).Within s 26 := by
  refine (halt_within s).andThen (m := 16) fun r1 t _ => ?_
  refine (refresh_within t).andThen (m := 8) fun r2 u _ => ?_
  split
  · trivial
  · refine Flow.Within.congr (s' := u.setTime _) rfl rfl
      ((writeChip_within _ _ _).andThen (m := 4) fun r3 v _ => ?_)
    exact (unhalt_within v).andThen (m := 0) fun r4 w _ => Flow.Within.done_same rfl rfl

/-- An operation whose waits end does not hang. -/
theorem Flow.Within.not_hang {α : Type} {s : State} {n : Nat} {x : Flow α} (h : x.Within s n) (hw : waitsEnd n s)
    (t : State) : x ≠ .hang t := by
  rintro rfl
  obtain ⟨hb, k, hk, hp⟩ := h
  rcases hw k hk with h1 | h1
  · simp [hb] at h1
  · simp [hp] at h1

/-! ### The wait that a TimeKeeper operation hangs in -/

/-- As `BusOut.Traces`, for an operation on the state. -/
def Flow.Traces {α : Type} (s : State) (x : Flow α) : Prop :=
  match x with
  | .done _ t => t.par = s.par ∧ ∃ l, t.bus.wire = s.bus.wire ++ l ∧
      ∀ j, t.bus.comingAnswer j = s.bus.comingAnswer (j + actions l)
  | .hang t => s.par.waitBound = none ∧ ∃ l e, t.bus.wire = s.bus.wire ++ l ++ [e] ∧ e.waitsForBound = true ∧
      (s.bus.comingAnswer (actions l)).polls = none
  | .fault _ => True

theorem Flow.Traces.andThen {α β : Type} {s : State} {x : Flow α} {f : α → State → Flow β} (hx : x.Traces s)
    (hf : ∀ a t, x = .done a t → (f a t).Traces t) : (x.andThen f).Traces s := by
  cases x with
  | fault e => trivial
  | hang t => exact hx
  | done a t =>
    obtain ⟨hp, l, hl, ht⟩ := hx
    have h := hf a t rfl
    simp only [Flow.andThen_done]
    cases hfa : f a t with
    | fault e => trivial
    | done b u =>
      obtain ⟨hq, m, hm, hu⟩ := hfa ▸ h
      refine ⟨hq.trans hp, l ++ m, by rw [hm, hl, List.append_assoc], fun j => ?_⟩
      rw [hu, ht, actions_append, Nat.add_assoc, Nat.add_comm (actions m)]
    | hang u =>
      obtain ⟨hb, m, e, hm, he, hn⟩ := hfa ▸ h
      refine ⟨hp ▸ hb, l ++ m, e, by rw [hm, hl]; simp, he, ?_⟩
      rw [actions_append, Nat.add_comm, ← ht]
      exact hn

theorem Flow.Traces.same {α : Type} {s t : State} (a : α) (hp : t.par = s.par) (hb : t.bus = s.bus) :
    (Flow.done a t).Traces s := ⟨hp, [], by simp [hb], fun j => by rw [hb]; rfl⟩

/-- The premise reads the same parameters and the same Bus unit. -/
theorem Flow.Traces.congr {α : Type} {s s' : State} {x : Flow α} (hp : s'.par = s.par) (hb : s'.bus = s.bus)
    (h : x.Traces s') : x.Traces s := by
  cases x with
  | done a t => rw [Flow.Traces, ← hp, ← hb]; exact h
  | hang t => rw [Flow.Traces, ← hp, ← hb]; exact h
  | fault e => trivial

theorem BusOut.Traces.into {α : Type} {s : State} {x : BusOut α} (h : x.Traces s.par s.bus) :
    (x.into s).Traces s := by
  cases x with
  | done a u => exact ⟨rfl, h⟩
  | hang u => exact h

theorem readChip_traces (reg : Byte) (n : Nat) (s : State) : (readChip reg n s).Traces s :=
  (memRead_traces _ _ _ _).into

theorem writeChip_traces (reg v : Byte) (s : State) : (writeChip reg v s).Traces s :=
  (memWrite_traces _ _ _ _).into

theorem halt_traces (s : State) : (halt s).Traces s := by
  refine (readChip_traces _ _ _).andThen fun rb t _ => ?_
  split
  · trivial
  · exact Flow.Traces.congr (s' := t.setHalt _) rfl rfl
      ((writeChip_traces _ _ _).andThen fun r u _ => .same _ rfl rfl)

theorem unhalt_traces (s : State) : (unhalt s).Traces s := by
  unfold unhalt
  split
  · trivial
  · exact writeChip_traces _ _ _

theorem tkInitBody_traces (s : State) : (tkInitBody s).Traces s := by
  refine (writeChip_traces _ _ _).andThen fun r1 t _ => ?_
  refine (readChip_traces _ _ _).andThen fun rb u _ => ?_
  exact (writeChip_traces _ _ _).andThen fun r3 v _ => .same _ rfl rfl

theorem mutateTime_traces (new : TimeRec → TimeRec) (reg : Byte) (byte : TimeRec → Byte) (s : State) :
    (mutateTime new reg byte s).Traces s := by
  unfold mutateTime
  split
  · trivial
  · refine (halt_traces s).andThen fun r1 t _ => ?_
    refine Flow.Traces.congr (s' := t.setTime _) rfl rfl ((writeChip_traces _ _ _).andThen fun r2 u _ => ?_)
    exact (unhalt_traces u).andThen fun r3 v _ => .same _ rfl rfl

/-- A TimeKeeper command that hangs is held in an unbounded wait (R183). -/
theorem Flow.Traces.stuckWait {α : Type} {s t : State} {x : Flow α} (hx : x.Traces s) (hf : x.Frames s)
    (h : x = .hang t) : stuckWait s t.hang := by
  subst h
  obtain ⟨hb, l, e, hl, he, hp⟩ := hx
  exact ⟨hb, rfl, hf.fg, hf.outside, l, e, hl, he, hp⟩

/-! ### How a TimeKeeper operation ends -/

theorem readChip_done {reg : Byte} {n : Nat} {s t : State} {rb : BusResult × List Byte}
    (h : readChip reg n s = .done rb t) :
    (∃ u, t = { s with bus := u }) ∧ t.bus.phase = .idle ∧ t.bus.result = rb.1 ∧ (rb.1 = .ok → rb.2.length = n) := by
  unfold readChip at h
  cases hm : memRead s.par reg n s.bus with
  | hang u => rw [hm] at h; cases h
  | done a u => rw [hm] at h; cases h; exact ⟨⟨u, rfl⟩, memRead_end hm⟩

theorem writeChip_done {reg v : Byte} {s t : State} {r : BusResult} (h : writeChip reg v s = .done r t) :
    ∃ u, t = { s with bus := u } ∧ memWrite s.par reg [v] s.bus = .done r u ∧ u.phase = .idle ∧ u.result = r := by
  unfold writeChip at h
  cases hm : memWrite s.par reg [v] s.bus with
  | hang u => rw [hm] at h; cases h
  | done a u => rw [hm] at h; cases h; exact ⟨u, rfl, rfl, (memWrite_end hm).1, (memWrite_end hm).2⟩

/-- A halt that is done has captured a byte, left `time`, and stopped the bus (R93). -/
theorem halt_done {s t : State} {r : BusResult} (h : halt s = .done r t) :
    (∃ b, t.tk = { s.tk with haltS := some b }) ∧ t.bus.phase = .idle := by
  simp only [halt, Flow.andThen_eq_done] at h
  obtain ⟨rb, u, hu, h⟩ := h
  obtain ⟨⟨v, rfl⟩, -⟩ := readChip_done hu
  split at h
  · cases h
  · next b hb =>
    simp only [Flow.andThen_eq_done] at h
    obtain ⟨r2, w, hw, h⟩ := h
    obtain ⟨x, rfl, -, hx, -⟩ := writeChip_done hw
    cases h
    exact ⟨⟨b, rfl⟩, hx⟩

/-- An un-halt that is done has written the captured byte (R93). -/
theorem unhalt_done {s t : State} {r : BusResult} (h : unhalt s = .done r t) :
    ∃ b, s.tk.haltS = some b ∧ t.tk = s.tk ∧ t.bus.phase = .idle ∧
      memWrite s.par regSeconds [b &&& 0x7F] s.bus = .done r t.bus := by
  unfold unhalt at h
  split at h
  · cases h
  · next b hb =>
    obtain ⟨u, rfl, hm, hi, -⟩ := writeChip_done h
    exact ⟨b, hb, rfl, hi, hm⟩

/-- A refresh that is done has read a time that decodes, or met an error and left `time` (R95). -/
theorem refresh_done {s t : State} {r : BusResult} (h : refresh s = .done r t) :
    t.bus.phase = .idle ∧ t.bus.result = r ∧
    ((r = .ok ∧ ∃ b0 b1 b2 x, decodeTime b0 b1 b2 = some x ∧ t.tk = { s.tk with time := some x }) ∨
      (r ≠ .ok ∧ t.tk = s.tk)) := by
  simp only [refresh, Flow.andThen_eq_done] at h
  obtain ⟨⟨r', bs⟩, u, hu, h⟩ := h
  obtain ⟨⟨v, rfl⟩, hi, hr, hl⟩ := readChip_done hu
  dsimp only at h hr hl
  split at h
  · next b0 b1 b2 heq =>
    cases heq
    split at h
    · next x hx => cases h; exact ⟨hi, hr, .inl ⟨rfl, b0, b1, b2, x, hx, rfl⟩⟩
    · cases h
  · next r'' bs' hne heq =>
    cases heq
    cases h
    refine ⟨hi, hr, .inr ⟨fun hok => ?_, rfl⟩⟩
    obtain ⟨b0, b1, b2, rfl⟩ := List.length_eq_three.mp (hl hok)
    exact hne b0 b1 b2 hok rfl

/-! ### The transactions of a TimeKeeper operation, one after the other -/

theorem readChip_eq {reg : Byte} {n : Nat} {s : State} {rb : BusResult × List Byte} {u : BusUnit}
    (h : memRead s.par reg n s.bus = .done rb u) : readChip reg n s = .done rb { s with bus := u } := by
  unfold readChip
  rw [h]
  rfl

theorem writeChip_eq {reg v : Byte} {s : State} {r : BusResult} {u : BusUnit}
    (h : memWrite s.par reg [v] s.bus = .done r u) : writeChip reg v s = .done r { s with bus := u } := by
  unfold writeChip
  rw [h]
  rfl

theorem readChip_mem {reg : Byte} {n : Nat} {s t : State} {rb : BusResult × List Byte}
    (h : readChip reg n s = .done rb t) :
    ∃ u, memRead s.par reg n s.bus = .done rb u ∧ t = { s with bus := u } := by
  unfold readChip at h
  cases hm : memRead s.par reg n s.bus with
  | hang u => rw [hm] at h; cases h
  | done a u => rw [hm] at h; cases h; exact ⟨u, rfl, rfl⟩

/-- The byte a halt captures from a read of one byte. -/
theorem haltByte_eq_some {time : Option TimeRec} {rb : BusResult × List Byte} {h : Byte}
    (hl : rb.1 = .ok → rb.2.length = 1) : haltByte time rb = some h ↔ captures time rb h := by
  obtain ⟨r, bs⟩ := rb
  by_cases hr : r = .ok
  · subst hr
    obtain ⟨b, rfl⟩ := List.length_eq_one_iff.mp (hl rfl)
    simp [haltByte, captures]
  · cases r with
    | ok => exact absurd rfl hr
    | startFailed => simp [haltByte, captures, eq_comm]
    | addressNacked => simp [haltByte, captures, eq_comm]
    | dataNacked => simp [haltByte, captures, eq_comm]
    | timeout => simp [haltByte, captures, eq_comm]

/-- A halt, from its two transactions (R93). -/
theorem halt_eq {s : State} {rb : BusResult × List Byte} {h : Byte} {r : BusResult} {u v : BusUnit}
    (h1 : memRead s.par regSeconds 1 s.bus = .done rb u) (hc : captures s.tk.time rb h)
    (h2 : memWrite s.par regSeconds [h ||| 0x80] u = .done r v) :
    halt s = .done (firstErr [rb.1, r]) { s with bus := v, tk := { s.tk with haltS := some h } } := by
  unfold halt
  rw [readChip_eq h1]
  simp only [Flow.andThen_done]
  rw [(haltByte_eq_some (memRead_end h1).2.2).mpr hc]
  dsimp only
  rw [writeChip_eq (s := State.setHalt h { s with bus := u }) h2]
  rfl

/-- The two transactions of a halt that is done (R93). -/
theorem halt_mem {s t : State} {r : BusResult} (h : halt s = .done r t) :
    ∃ rb u b r2 v, memRead s.par regSeconds 1 s.bus = .done rb u ∧ captures s.tk.time rb b ∧
      memWrite s.par regSeconds [b ||| 0x80] u = .done r2 v ∧ r = firstErr [rb.1, r2] ∧
      t = { s with bus := v, tk := { s.tk with haltS := some b } } := by
  simp only [halt, Flow.andThen_eq_done] at h
  obtain ⟨rb, w, hw, h⟩ := h
  obtain ⟨u, h1, rfl⟩ := readChip_mem hw
  split at h
  · cases h
  · next b hb =>
    simp only [Flow.andThen_eq_done] at h
    obtain ⟨r2, x, hx, h⟩ := h
    obtain ⟨v, rfl, h2, -, -⟩ := writeChip_done hx
    cases h
    exact ⟨rb, u, b, r2, v, h1, (haltByte_eq_some (memRead_end h1).2.2).mp hb, h2, rfl, rfl⟩

/-- An un-halt, from its transaction (R93). -/
theorem unhalt_eq {s : State} {h : Byte} {r : BusResult} {u : BusUnit} (hh : s.tk.haltS = some h)
    (h1 : memWrite s.par regSeconds [h &&& 0x7F] s.bus = .done r u) : unhalt s = .done r { s with bus := u } := by
  unfold unhalt
  rw [hh]
  exact writeChip_eq h1

/-- A refresh whose bytes decode takes their time (R95). -/
theorem refresh_decoded {s : State} {b0 b1 b2 : Byte} {x : TimeRec} {u : BusUnit}
    (h : memRead s.par regSeconds 3 s.bus = .done (.ok, [b0, b1, b2]) u) (hd : decodeTime b0 b1 b2 = some x) :
    refresh s = .done .ok (State.setTime x { s with bus := u }) := by
  unfold refresh
  rw [readChip_eq h]
  simp only [Flow.andThen_done, hd]

/-- A refresh whose bytes do not decode faults (R91, R142). -/
theorem refresh_invalid {s : State} {b0 b1 b2 : Byte} {u : BusUnit}
    (h : memRead s.par regSeconds 3 s.bus = .done (.ok, [b0, b1, b2]) u) (hd : decodeTime b0 b1 b2 = none) :
    refresh s = .fault (.rtcDataInvalid { s with bus := u }) := by
  unfold refresh
  rw [readChip_eq h]
  simp only [Flow.andThen_done, hd]

/-- A refresh whose read fails leaves everything but the Bus unit (R95). -/
theorem refresh_failed {s : State} {rb : BusResult × List Byte} {u : BusUnit}
    (h : memRead s.par regSeconds 3 s.bus = .done rb u) (hr : rb.1 ≠ .ok) :
    refresh s = .done rb.1 { s with bus := u } := by
  unfold refresh
  rw [readChip_eq h]
  obtain ⟨r, bs⟩ := rb
  cases r with
  | ok => exact absurd rfl hr
  | startFailed => rfl
  | addressNacked => rfl
  | dataNacked => rfl
  | timeout => rfl

/-- The first error of a halt's results and others is the first error of them all (R93). -/
theorem firstErr_nest (a b : BusResult) (l : List BusResult) : firstErr (firstErr [a, b] :: l) = firstErr (a :: b :: l) := by
  cases a <;> cases b <;> rfl

/-! ### The whole effect of granted operations -/

theorem readChip_granted {reg : Byte} {m n : Nat} {s : State} {u : BusUnit} {r : BusResult} {d : Option Byte}
    {w : List WireEvent} (h : grantsAll s.par u n (readStatuses m) = true) (hb : s.bus = u.taken n .idle r d w) :
    readChip reg (m + 1) s = .done (.ok, u.bytes (n + 5) (m + 1)) { s with
      bus := u.taken (n + 5 + m + 1) .idle .ok (some (u.comingAnswer (n + 5 + m)).byte)
        (w ++ readTranscript s.par reg m) } := by
  unfold readChip
  rw [hb, memRead_granted h]
  rfl

theorem writeChip_granted {reg v : Byte} {n : Nat} {s : State} {u : BusUnit} {r : BusResult} {d : Option Byte}
    {w : List WireEvent} (h : grantsAll s.par u n writeStatuses = true) (hb : s.bus = u.taken n .idle r d w) :
    writeChip reg v s = .done .ok { s with
      bus := u.taken (n + 4) .idle .ok d (w ++ writeTranscript s.par reg v) } := by
  unfold writeChip
  rw [hb, memWrite_granted h]
  rfl

/-! ### The fields of a chip byte (R41), as numbers -/

theorem fieldOf_units (b : Byte) : fieldOf b 3 0 = b.toNat % 16 := by revert b; decide

theorem fieldOf_tens (b : Byte) : fieldOf b 6 4 = b.toNat / 16 % 8 := by revert b; decide

theorem fieldOf_hourTens24 (b : Byte) : fieldOf b 5 4 = b.toNat / 16 % 4 := by revert b; decide

theorem fieldOf_hourTens12 (b : Byte) : fieldOf b 4 4 = b.toNat / 16 % 2 := by revert b; decide

/-- Bit 7 is in no field. -/
theorem fieldOf_bit7 (b : Byte) : fieldOf (b ||| 0x80) 3 0 = fieldOf b 3 0 ∧ fieldOf (b ||| 0x80) 6 4 = fieldOf b 6 4 ∧
    fieldOf (b ||| 0x80) 5 4 = fieldOf b 5 4 ∧ fieldOf (b ||| 0x80) 4 4 = fieldOf b 4 4 := by revert b; decide

end Sys2Proof.Machine
end

