-- ==== Sys2Proof/Laws/Step.lean ====
section
/-!
SUPPORT. What a step of each agent can do: how a foreground command moves `pc`
(spec/10_state.md R22), the cases of a foreground step and of a dispatch (spec/60_exceptions.md R147).
-/

namespace Sys2Proof.Machine

/-! ### Taking a turn -/

/-- A step under a given turn is that agent's step. -/
theorem stepUnder_eq (t : Turn) (s : State) : stepUnder t s = agentStep t { s with turns := [] } := rfl

/-! ### The commands -/

/-- What a command other than WAIT_TICK does with the foreground and the wait: it completes, with `pc` advanced, or it
hangs, with the foreground as it was; either way it keeps the program and leaves WAIT_TICK's registers alone. -/
structure CommandMoves (s t : State) : Prop where
  prog : t.fg.prog = s.fg.prog
  fgWait : t.sched.fgWait = s.sched.fgWait
  moves : (t.fg.pc = s.fg.pc + 1 ∧ t.hung = s.hung) ∨ (t.fg = s.fg ∧ t.hung = true)

theorem BusOut.command_moves {α : Type} (x : BusOut α) (f : α → Response) (s : State) :
    CommandMoves s (x.command f s) := by
  cases x with
  | done a u => exact ⟨rfl, rfl, .inl ⟨rfl, rfl⟩⟩
  | hang u => exact ⟨rfl, rfl, .inr ⟨rfl, rfl⟩⟩

theorem tkCommand_moves {s t : State} {x : Flow BusResult} (hx : x.Frames s) (h : tkCommand x s = .next t) :
    CommandMoves s t := by
  unfold tkCommand at h
  split at h
  · cases h
  · rcases Flow.ending_eq_next h with ⟨r, u, rfl, rfl⟩ | ⟨u, rfl, rfl⟩
    · have hf : u.fg = s.fg := hx.fg
      exact ⟨by simp [hf], congrArg Scheduler.fgWait hx.outside.2.1, .inl ⟨by simp [hf], hx.hung⟩⟩
    · exact ⟨congrArg Foreground.prog hx.fg, congrArg Scheduler.fgWait hx.outside.2.1, .inr ⟨hx.fg, rfl⟩⟩

/-- Every foreground command but WAIT_TICK moves so. -/
theorem exec_moves {s t : State} {i : Instr} (ha : i.isAgentEvent = false) (hw : i ≠ .waitTick)
    (h : exec i s = .next t) : CommandMoves s t := by
  cases i with
  | tmrFast => cases ha
  | tmrSlow => cases ha
  | isrFast => cases ha
  | isrSlow => cases ha
  | waitTick => exact absurd rfl hw
  | dispSetDigit pos val =>
    simp only [exec, execDispSetDigit] at h
    split at h
    · cases h
    · cases h; exact ⟨rfl, rfl, .inl ⟨rfl, rfl⟩⟩
  | dispSetMode on => cases h; exact ⟨rfl, rfl, .inl ⟨rfl, rfl⟩⟩
  | busBegin b => cases h; exact BusOut.command_moves ..
  | busWrite b =>
    simp only [exec, execBusWrite] at h
    split at h
    · cases h
    · cases h; exact BusOut.command_moves ..
  | busRead last =>
    simp only [exec, execBusRead] at h
    split at h
    · cases h
    · cases h; exact BusOut.command_moves ..
  | busEnd => cases h; exact ⟨rfl, rfl, .inl ⟨rfl, rfl⟩⟩
  | tkInit => exact tkCommand_moves (tkInitBody_frames s) h
  | tkRefresh => exact tkCommand_moves (refresh_frames s) h
  | tkAdjMin dir => exact tkCommand_moves (mutateTime_frames ..) h
  | tkAdjHour dir => exact tkCommand_moves (mutateTime_frames ..) h
  | tkToggleMode => exact tkCommand_moves (toggleBody_frames s) h
  | tkGetTime =>
    simp only [exec, execTkGetTime] at h
    split at h
    · cases h
    · cases h; exact ⟨rfl, rfl, .inl ⟨rfl, rfl⟩⟩
  | keyDecode => cases h; exact ⟨rfl, rfl, .inl ⟨rfl, rfl⟩⟩
  | debStep => cases h; exact ⟨rfl, rfl, .inl ⟨rfl, rfl⟩⟩
  | debStepK key =>
    simp only [exec, execDebStepK] at h
    split at h
    · cases h
    · cases h; exact ⟨rfl, rfl, .inl ⟨rfl, rfl⟩⟩
  | btnGet id =>
    simp only [exec, execBtnGet] at h
    split at h
    · cases h
    · cases h; exact ⟨rfl, rfl, .inl ⟨rfl, rfl⟩⟩
  | btnConsume id =>
    simp only [exec, execBtnConsume] at h
    split at h
    · cases h
    · cases h; exact ⟨rfl, rfl, .inl ⟨rfl, rfl⟩⟩

/-- WAIT_TICK enters, completes, or holds. -/
theorem execWaitTick_cases {s t : State} (h : exec .waitTick s = .next t) :
    (s.sched.fgWait = false ∧ t = enterWait s) ∨
    (s.sched.fgWait = true ∧ s.sched.ctx = .fg ∧ s.sched.loopReady = true ∧ t = completeWait s) ∨
    (s.sched.fgWait = true ∧ ¬(s.sched.ctx = .fg ∧ s.sched.loopReady = true) ∧ t = s) := by
  simp only [exec, execWaitTick] at h
  split at h
  · next hw =>
    split at h
    · next hc => cases h; exact .inr (.inl ⟨hw, hc.1, hc.2, rfl⟩)
    · next hc => cases h; exact .inr (.inr ⟨hw, hc, rfl⟩)
  · next hw =>
    split at h
    · cases h
    · cases h; exact .inl ⟨by simpa using hw, rfl⟩

/-! ### The agents -/

/-- A foreground step that goes on: the foreground has none, or runs the command at `pc`. -/
theorem foregroundStep_cases {s t : State} (h : foregroundStep s = .next t) :
    (t = s ∧ (s.hung = true ∨ s.sched.ctx ≠ .fg ∨ commandWord s = none)) ∨
    ∃ w i, s.hung = false ∧ s.sched.ctx = .fg ∧ commandWord s = some w ∧ decode w = .ok i ∧
      i.isAgentEvent = false ∧ exec i s = .next t := by
  unfold foregroundStep at h
  split at h
  · next he =>
    simp only [foregroundEnabled, Bool.and_eq_true, Bool.not_eq_true', beq_iff_eq] at he
    split at h
    · next hc => cases h; exact .inl ⟨rfl, .inr (.inr hc)⟩
    · next w hc =>
      simp only [runWord] at h
      split at h
      · cases h
      · cases h
      · next i hd =>
        split at h
        · cases h
        · next ha => exact .inr ⟨w, i, he.1, he.2, hc, hd, by simpa using ha, h⟩
  · next he =>
    cases h
    refine .inl ⟨rfl, ?_⟩
    simp only [foregroundEnabled, Bool.and_eq_true, Bool.not_eq_true', beq_iff_eq, not_and] at he
    by_cases hh : s.hung = true
    · exact .inl hh
    · exact .inr (.inl (he (by simpa using hh)))

/-- The state after the dispatch of the fast tick. -/
def fastDispatched (s : State) : State :=
  leaveHandler { enterHandler .fast s with sched := (enterHandler .fast s).sched.fastBody }

/-- A dispatch step that goes on: no dispatch, the fast tick, or the slow tick, whose refresh ends or hangs. -/
theorem dispatchStep_cases {prefer : Tick} {s t : State} (h : dispatchStep prefer s = .next t) :
    (dispatchChoice prefer s = none ∧ t = s) ∨
    (dispatchChoice prefer s = some .fast ∧ t = fastDispatched s) ∨
    (dispatchChoice prefer s = some .slow ∧ ∃ v, TimeFrame (enterHandler .slow s) v ∧ v.tk.haltS = s.tk.haltS ∧
      (t = leaveHandler v ∨ t = v.hang)) := by
  unfold dispatchStep at h
  split at h
  · next hc => cases h; exact .inl ⟨hc, rfl⟩
  · next x hc =>
    have hh : s.hung = false := by
      unfold dispatchChoice at hc
      split at hc
      · next he =>
        simp only [Bool.and_eq_true, Bool.not_eq_true'] at he
        exact he.1.1
      · cases hc
    cases x with
    | fast =>
      simp only [handlerOf, exec, execIsrFast, afterHandler] at h
      split at h
      · next hb => exact absurd (hb.symm.trans hh) (by simp)
      · cases h; exact .inr (.inl ⟨hc, rfl⟩)
    | slow =>
      refine .inr (.inr ⟨hc, ?_⟩)
      have hf := refresh_frames (enterHandler .slow s)
      simp only [handlerOf, exec, execIsrSlow] at h
      cases hr : refresh (enterHandler .slow s) with
      | fault e => rw [hr] at h; cases h
      | done a v =>
        rw [hr] at h hf
        have hv : v.hung = false := hf.hung.trans hh
        simp only [Flow.ending, afterHandler, hv] at h
        cases h
        refine ⟨v, hf, ?_, .inl rfl⟩
        rcases (refresh_done hr).2.2 with ⟨-, _, _, _, _, -, e⟩ | ⟨-, e⟩ <;> rw [e] <;> rfl
      | hang v =>
        rw [hr] at h hf
        cases h
        refine ⟨v, hf, ?_, .inr rfl⟩
        simp only [refresh, Flow.andThen_eq_hang] at hr
        rcases hr with hr | ⟨rb, w, -, hr⟩
        · unfold readChip at hr
          cases hm : memRead (enterHandler .slow s).par regSeconds 3 (enterHandler .slow s).bus with
          | done a u => rw [hm] at hr; cases hr
          | hang u => rw [hm] at hr; cases hr; rfl
        · split at hr
          · split at hr <;> cases hr
          · cases hr

/-- A dispatch takes a tick only when R147 enables it. -/
theorem dispatchChoice_eq_some {prefer x : Tick} {s : State} (h : dispatchChoice prefer s = some x) :
    s.hung = false ∧ s.sched.ie = true ∧ s.sched.ctx = .fg ∧
      pickTick s.par.tickPriority prefer s.sched.fastPending s.sched.slowPending = some x := by
  unfold dispatchChoice at h
  split at h
  · next he =>
    simp only [Bool.and_eq_true, Bool.not_eq_true', beq_iff_eq] at he
    exact ⟨he.1.1, he.1.2, he.2, h⟩
  · cases h

/-- The tick taken is pending (R146). -/
theorem pickTick_pending {p : TickPriority} {prefer x : Tick} {f s : Bool} (h : pickTick p prefer f s = some x) :
    (match x with
     | .fast => f
     | .slow => s) = true := by
  cases f <;> cases s <;> cases p <;> cases prefer <;> cases x <;> first | rfl | cases h

end Sys2Proof.Machine
end

