-- ==== Sys2Proof/Tests/Slice0.lean ====
section
/-!
SUPPORT. The model's own tests. Expected results come from the vectors of spec/95_test_vectors.md (named in each
docstring) or from the rules cited; the parameters are that file's test-only values. At the end, for every statement that
has hypotheses, a witness that meets them.
-/

namespace Sys2Proof.Tests

open Sys2Proof.Machine

/-! ### Helpers -/

/-- The defaults of R7, and the test-only values of spec/95_test_vectors.md. -/
def testParams : Params where
  rtcAddr := 0x68
  keyT1 := 256
  keyT2 := 512
  keyT3 := 700
  keyT4 := 900

/-- The state after reset with the test parameters. -/
def base : State := { State.reset with par := testParams }

/-- An answer that comes at once. -/
def ans (st : BusStatus) (b : Byte := 0) : BusAnswer := ⟨some 0, st, b⟩

/-- The answers of a successful MemWrite of one byte. -/
def writeAnswers : List BusAnswer := writeStatuses.map fun st => ans st

/-- The answers of a successful MemRead. -/
def readAnswers : List Byte → List BusAnswer
  | bs => [ans .startOk, ans .slaWAck, ans .dataTxAck, ans .rstartOk, ans .slaRAck] ++
      (bs.dropLast.map fun b => ans .dataRxAck b) ++ (bs.getLast?.toList.map fun b => ans .dataRxNack b)

/-- `base` with the bus in a phase and answers queued. -/
def onBus (ph : BusPhase) (as : List BusAnswer) : State :=
  { base with bus := { base.bus with phase := ph, answers := as } }

/-- `base` with a written time and answers queued. -/
def withTime (t : TimeRec) (as : List BusAnswer) : State :=
  { onBus .idle as with tk := { base.tk with time := some t } }

/-- The state a step goes on to. -/
def after : StepOutcome → Option State
  | .next t => some t
  | .fault _ => none
  | .refused _ => none

/-- The refusal of a step. -/
def refusal : StepOutcome → Option Refusal
  | .refused r => some r
  | .next _ => none
  | .fault _ => none

/-- The state that a fault Unwritten leaves. -/
def unwrittenLeft : StepOutcome → Option State
  | .fault (.unwritten t) => some t
  | .fault (.rtcDataInvalid _) => none
  | .next _ => none
  | .refused _ => none

/-- The state that a fault RtcDataInvalid leaves. -/
def invalidLeft : StepOutcome → Option State
  | .fault (.rtcDataInvalid t) => some t
  | .fault (.unwritten _) => none
  | .next _ => none
  | .refused _ => none

/-! ### Well-formedness (R64): an ill-formed term for each check -/

theorem test_wellFormed_digit : (Instr.dispSetDigit 3 0xA).wellFormed = false ∧
    (Instr.dispSetDigit 3 0xF).wellFormed = true := by decide

theorem test_wellFormed_key : (Instr.debStepK 5).wellFormed = false ∧ (Instr.debStepK 4).wellFormed = true := by decide

theorem test_wellFormed_get : (Instr.btnGet 0).wellFormed = false ∧ (Instr.btnGet 5).wellFormed = false := by decide

theorem test_wellFormed_consume :
    (Instr.btnConsume 0).wellFormed = false ∧ (Instr.btnConsume 7).wellFormed = false := by decide

/-! ### Decoding: words written out from the opcode map (R62) -/

/-- Unit 0000, op 0000, the event number in the operand. -/
theorem test_decode_agents :
    decode 0b0000000000000001#16 = .ok .tmrFast ∧ decode 0b0000000000000010#16 = .ok .tmrSlow ∧
    decode 0b0000000000010001#16 = .ok .isrFast ∧ decode 0b0000000000010010#16 = .ok .isrSlow := by decide

/-- Unit 0001: WAIT_TICK, DISP_SET_DIGIT 2, 7, DISP_SET_DIGIT 3, BLANK, DISP_SET_MODE ON. -/
theorem test_decode_scheduler :
    decode 0b0001000000000000#16 = .ok .waitTick ∧ decode 0b0001000100100111#16 = .ok (.dispSetDigit 2 7) ∧
    decode 0b0001000100111111#16 = .ok (.dispSetDigit 3 0xF) ∧
    decode 0b0001001000000001#16 = .ok (.dispSetMode true) := by decide

/-- Unit 0010: BUS_BEGIN 0xD0, BUS_WRITE 0xFF, BUS_READ LAST, BUS_END. -/
theorem test_decode_bus :
    decode 0b0010000011010000#16 = .ok (.busBegin 0xD0) ∧ decode 0b0010000111111111#16 = .ok (.busWrite 0xFF) ∧
    decode 0b0010001000000001#16 = .ok (.busRead true) ∧ decode 0b0010001100000000#16 = .ok .busEnd := by decide

/-- Unit 0011: TK_INIT, TK_REFRESH, TK_ADJ_MIN DOWN, TK_ADJ_HOUR DOWN, TK_TOGGLE_MODE, TK_GET_TIME. -/
theorem test_decode_timeKeeper :
    decode 0b0011000000000000#16 = .ok .tkInit ∧ decode 0b0011000100000000#16 = .ok .tkRefresh ∧
    decode 0b0011001000000001#16 = .ok (.tkAdjMin .down) ∧ decode 0b0011001100000001#16 = .ok (.tkAdjHour .down) ∧
    decode 0b0011010000000000#16 = .ok .tkToggleMode ∧ decode 0b0011010100000000#16 = .ok .tkGetTime := by decide

/-- Unit 0100: KEY_DECODE, DEB_STEP, DEB_STEP_K 4, BTN_GET 2, BTN_CONSUME 4. -/
theorem test_decode_key :
    decode 0b0100000000000000#16 = .ok .keyDecode ∧ decode 0b0100000100000000#16 = .ok .debStep ∧
    decode 0b0100001000000100#16 = .ok (.debStepK 4) ∧ decode 0b0100001100000010#16 = .ok (.btnGet 2) ∧
    decode 0b0100010000000100#16 = .ok (.btnConsume 4) := by decide

/-- The refused words of section 2.1 of the vectors. -/
theorem test_decode_refused :
    decode 0x113A = .error .operand ∧ decode 0x4205 = .error .operand ∧ decode 0x4300 = .error .operand ∧
    decode 0x4407 = .error .operand ∧ decode 0x1140 = .error .encoding ∧ decode 0x1203 = .error .encoding ∧
    decode 0x2202 = .error .encoding ∧ decode 0x23FF = .error .encoding ∧ decode 0x3600 = .error .encoding ∧
    decode 0x4308 = .error .encoding ∧ decode 0x5000 = .error .encoding ∧ decode 0x0000 = .error .encoding := by
  decide

theorem test_decodeTableWord : decodeTableWord 16 0x1127 = some (.dispSetDigit 2 7) ∧
    decodeTableWord 16 0x5000 = none := by decide

/-! ### The Scheduler unit -/

/-- H1: two ticks, one pending. -/
theorem test_tmrFast : ((after (exec .tmrFast base)).bind fun s => after (exec .tmrFast s)).map
    (fun s => s.sched.fastPending) = some true := by decide

theorem test_tmrSlow : (after (exec .tmrSlow base)).map (fun s => (s.sched.slowPending, s.sched.fastPending)) =
    some (true, false) := by decide

/-- H2, its state: digits 1, 2, 3, 4, display on. -/
def lit : State := { base with sched := { base.sched with digits := ⟨1, 2, 3, 4⟩, dispOn := true } }

/-- H2, first run. -/
theorem test_isrFast : (after (exec .isrFast lit)).map (fun s => (s.sched.dispLog, s.sched.fade, s.sched.loopReady)) =
    some ([⟨1, 2, true⟩], 1, true) := by decide

/-- H2 after three runs: the selector and the fade counter wrap. -/
theorem test_isrFast_wraps :
    (after (exec .isrFast { lit with sched := { lit.sched with sel := 3, fade := 5 } })).map
      (fun s => (s.sched.outPos, s.sched.outVal, s.sched.fade)) = some (0, 1, 0) := by decide

/-- H11: the refresh of ISR_SLOW. -/
theorem test_isrSlow :
    (after (exec .isrSlow (onBus .idle (readAnswers [0x05, 0x30, 0x08])))).map (fun s => (s.tk.time, s.tk.tkResult)) =
      some (some (mkTime 5 30 8 .h24 .am), .ok) := by decide

/-- H10: the refresh fails with AddressNacked, silently. -/
theorem test_isrSlow_error :
    (after (exec .isrSlow (withTime (mkTime 0 0 8 .h24 .am) [ans .startOk, ans .slaWNack]))).map
      (fun s => (s.tk.time, s.tk.tkResult, s.bus.result, s.bus.phase)) =
      some (some (mkTime 0 0 8 .h24 .am), .ok, .addressNacked, .idle) := by decide

/-- H6. -/
theorem test_waitTick_entry : (after (exec .waitTick base)).map
    (fun s => (s.sched.ie, s.sched.fgWait, s.fg.pc)) = some (true, true, 0) := by decide

/-- H5. -/
theorem test_waitTick_open : refusal (exec .waitTick (onBus .tx [])) = some .refusedBusMisuse := by decide

/-- R126's example. -/
theorem test_dispSetDigit : (after (exec (.dispSetDigit 2 7) base)).map (fun s => (s.sched.digits, s.fg.pc)) =
    some (⟨0xF, 0xF, 7, 0xF⟩, 1) := by decide

theorem test_dispSetDigit_reserved : refusal (exec (.dispSetDigit 3 0xA) base) = some .refusedOperand := by decide

/-- H13. -/
theorem test_dispSetMode : (after (exec (.dispSetMode false) lit)).map
    (fun s => (s.sched.dispOn, s.sched.digits, s.fg.pc)) = some (false, ⟨1, 2, 3, 4⟩, 1) := by decide

/-! ### The Bus unit -/

/-- B1. -/
theorem test_busBegin : (after (exec (.busBegin 0xD0) (onBus .idle [ans .startOk, ans .slaWAck]))).map
    (fun s => (s.bus.phase, s.bus.result, s.fg.resp, s.bus.wire)) =
    some (.tx, .ok, [.bus .ok], [.start, .address 0xD0]) := by decide

/-- B5: the acknowledge of the wrong direction. -/
theorem test_busBegin_wrongAck : (after (exec (.busBegin 0xD1) (onBus .idle [ans .startOk, ans .slaWAck]))).map
    (fun s => (s.bus.phase, s.bus.result)) = some (.idle, .addressNacked) := by decide

/-- B10. -/
theorem test_busWrite_nack : (after (exec (.busWrite 0x00) (onBus .tx [ans .dataTxNack]))).map
    (fun s => (s.bus.phase, s.bus.result, s.fg.resp)) = some (.idle, .dataNacked, [.bus .dataNacked]) := by decide

/-- B22: WAIT_BOUND = 100 and 99 polls. -/
theorem test_busWrite_bound :
    (after (exec (.busWrite 0x01) { onBus .tx [⟨some 99, .dataTxAck, 0⟩] with
      par := { testParams with waitBound := some 100 } })).map (fun s => (s.bus.phase, s.bus.result)) =
      some (.tx, .ok) := by decide

/-- B13: 1999 polls. -/
theorem test_busRead : (after (exec (.busRead false) (onBus .rx [⟨some 1999, .dataRxAck, 0x12⟩]))).map
    (fun s => (s.bus.phase, s.bus.data, s.fg.resp)) = some (.rx, some 0x12, [.busRead .ok (some 0x12)]) := by decide

/-- B14: 2000 polls. -/
theorem test_busRead_timeout : (after (exec (.busRead false) (onBus .rx [⟨some 2000, .dataRxAck, 0x12⟩]))).map
    (fun s => (s.bus.phase, s.bus.data, s.fg.resp)) = some (.idle, none, [.busRead .timeout none]) := by decide

/-- B20. -/
theorem test_busEnd : (after (exec .busEnd { base with bus := { base.bus with phase := .rx, result := .timeout } })).map
    (fun s => (s.bus.phase, s.bus.result, s.fg.pc, s.fg.resp)) = some (.idle, .timeout, 1, []) := by decide

/-! ### The TimeKeeper unit -/

/-- The three kinds of row of table 2.2.1: digits, ignored bits, out of range. -/
theorem test_decodeTime : decodeTime 0x30 0x59 0x72 = some (mkTime 30 59 12 .h12 .pm) ∧
    decodeTime 0x95 0x07 0x08 = some (mkTime 15 7 8 .h24 .am) ∧
    decodeTime 0 0 0x92 = some (mkTime 0 0 12 .h24 .pm) ∧ decodeTime 0 0 0x40 = none ∧ decodeTime 0 0 0x53 = none ∧
    decodeTime 0 0 0x24 = none ∧ decodeTime 0x0A 0 0 = none ∧ decodeTime 0x60 0 0 = none := by decide

/-- Rows of table 2.2.2. -/
theorem test_hourByte : hourByte (mkTime 0 0 12 .h12 .pm) = 0x72 ∧ hourByte (mkTime 0 0 10 .h12 .am) = 0x50 ∧
    hourByte (mkTime 0 0 5 .h12 .pm) = 0x65 ∧ hourByte (mkTime 0 0 23 .h24 .pm) = 0x23 := by decide

/-- T1, with the bus transcript. -/
theorem test_tkInit :
    (after (exec .tkInit (onBus .idle (writeAnswers ++ readAnswers [0x85] ++ writeAnswers)))).map
      (fun s => (s.tk.time, s.tk.tkResult, s.bus.data)) =
      some (some (mkTime 0 0 12 .h12 .am), .ok, some 0x85) := by decide

/-- T3: the seconds read waits 2000 polls, so 0x00 is written to the seconds register. -/
theorem test_tkInit_timeout :
    (after (exec .tkInit (onBus .idle (writeAnswers ++ [ans .startOk, ans .slaWAck, ans .dataTxAck, ans .rstartOk,
      ans .slaRAck, ⟨some 2000, .dataRxNack, 0x85⟩] ++ writeAnswers)))).map
      (fun s => (s.tk.tkResult, s.bus.data, s.bus.wire.drop 12)) =
      some (.timeout, none, [.stop, .start, .address 0xD0, .write 0x00, .write 0x00, .stop]) := by decide

/-- T4. -/
theorem test_tkRefresh :
    (after (exec .tkRefresh (onBus .idle (readAnswers [0x30, 0x59, 0x72])))).map
      (fun s => (s.tk.time, s.bus.data, s.bus.phase, s.fg.resp)) =
      some (some (mkTime 30 59 12 .h12 .pm), some 0x72, .idle, [.tk .ok]) := by decide

/-- T5. -/
theorem test_tkRefresh_invalid :
    (invalidLeft (exec .tkRefresh (onBus .idle (readAnswers [0x00, 0x00, 0x40])))).map
      (fun s => (s.bus.phase, s.bus.result, s.tk.time)) = some (.idle, .ok, none) := by decide

/-- The register writes of the four transactions of an adjustment. -/
def adjustAnswers (b : Byte) : List BusAnswer := readAnswers [b] ++ writeAnswers ++ writeAnswers ++ writeAnswers

/-- T6. -/
theorem test_tkAdjMin :
    (after (exec (.tkAdjMin .up) (withTime (mkTime 7 59 10 .h24 .am) (adjustAnswers 0x07)))).map
      (fun s => (s.tk.time, s.tk.haltS, s.bus.wire.drop 7)) =
      some (some (mkTime 7 0 10 .h24 .am), some 0x07,
        writeTranscript testParams 0x00 0x87 ++ writeTranscript testParams 0x01 0x00 ++
          writeTranscript testParams 0x00 0x07) := by decide

/-- T9: the halt read fails, so the halt byte is that of the in-memory seconds. -/
theorem test_tkAdjMin_fallback :
    (after (exec (.tkAdjMin .up) (withTime (mkTime 7 59 10 .h24 .am)
      (ans .other :: writeAnswers ++ writeAnswers ++ writeAnswers)))).map
      (fun s => (s.tk.tkResult, s.tk.haltS)) = some (.startFailed, some 0x07) := by decide

/-- T15. -/
theorem test_tkAdjHour :
    (after (exec (.tkAdjHour .up) (withTime (mkTime 0 30 11 .h12 .am) (adjustAnswers 0x00)))).map
      (fun s => (s.tk.time, (s.bus.wire.drop 12).take 5)) =
      some (some (mkTime 0 30 12 .h12 .pm), writeTranscript testParams 0x02 0x72) := by decide

/-- T14. -/
theorem test_tkAdjHour_wraps :
    (after (exec (.tkAdjHour .down) (withTime (mkTime 0 15 0 .h24 .am) (adjustAnswers 0x00)))).map
      (fun s => s.tk.time) = some (some (mkTime 0 15 23 .h24 .pm)) := by decide

/-- The answers of T18. -/
def toggleAnswers : List BusAnswer :=
  readAnswers [0x10] ++ writeAnswers ++ readAnswers [0x90, 0x05, 0x17] ++ writeAnswers ++ writeAnswers

/-- T18. -/
theorem test_tkToggleMode :
    (after (exec .tkToggleMode (onBus .idle toggleAnswers))).map
      (fun s => (s.tk.time, s.tk.haltS, (s.bus.wire.drop 21).take 5)) =
      some (some (mkTime 10 5 5 .h12 .pm), some 0x10, writeTranscript testParams 0x02 0x65) := by decide

/-- T19: the re-read times out, and the old time is converted. -/
theorem test_tkToggleMode_failedReread :
    (after (exec .tkToggleMode (withTime (mkTime 0 0 0 .h24 .am) (readAnswers [0x00] ++ writeAnswers ++
      [ans .startOk, ans .slaWAck, ans .dataTxAck, ans .rstartOk, ans .slaRAck, ⟨none, .other, 0⟩] ++ writeAnswers ++
      writeAnswers)))).map (fun s => (s.tk.time, s.tk.tkResult)) =
      some (some (mkTime 0 0 12 .h12 .am), .timeout) := by decide

/-- T21. -/
theorem test_tkGetTime : (after (exec .tkGetTime (withTime defaultTime []))).map (fun s => s.fg.resp) =
    some [.time (mkTime 0 0 12 .h12 .am)] := by decide

/-- T20 and T10: the fault, with no bus action. -/
theorem test_unwritten : (unwrittenLeft (exec .tkGetTime base)).isSome = true ∧
    (unwrittenLeft (exec (.tkAdjMin .up) base)).map (fun s => s.bus.wire) = some [] := by decide

/-! ### The Key unit -/

/-- Rows of section 2.4: the band edges. -/
theorem test_band : band testParams 0 = some .b1 ∧ band testParams 255 = some .b1 ∧ band testParams 256 = some .b2 ∧
    band testParams 699 = some .b3 ∧ band testParams 700 = some .b4 ∧ band testParams 900 = none := by decide

/-- R102's example. -/
theorem test_keyDecode : (after (exec .keyDecode { base with keys := { base.keys with samples := [0x2F6] } })).map
    (fun s => (s.keys.keyReg, s.fg.resp, s.fg.pc)) = some (some .b4, [.key (some .b4)], 1) := by decide

/-- A button with a state, a count, and the flags action, lock, delay1, delay2, delay3. -/
def btn (st : ButtonState) (c : BitVec 16) (a l d1 d2 d3 : Bool) : Button := ⟨st, c, a, l, d1, d2, d3, false⟩

/-- K2, K3, K4: Idle steps. -/
theorem test_bstep_idle :
    bstep testParams true (btn .idle 6 false false false false false) = btn .pushed 0 true true false false false ∧
    bstep testParams false (btn .idle 3 false false false false false) = btn .idle 2 false false false false false ∧
    bstep testParams false (btn .idle 1 true true false false false) = btn .idle 0 false false false false false := by
  decide

/-- K6, K7, K11, K12, K13: Pushed steps. -/
theorem test_bstep_pushed :
    bstep testParams true (btn .pushed 299 true true false false false) = btn .pushed 300 true true true true false ∧
    bstep testParams true (btn .pushed 300 true true true true false) = btn .pushed 301 true true true false false ∧
    bstep testParams true (btn .pushed 2249 true true true false true) = btn .pushed 2250 true true true true true ∧
    bstep testParams true (btn .pushed 65535 true true true false true) = btn .pushed 0 true true true false true ∧
    bstep testParams false (btn .pushed 500 true true true false false) = btn .released 0 true true true false false := by
  decide

/-- K14, K15, K16: Released steps. -/
theorem test_bstep_released :
    bstep testParams false (btn .released 28 true false false false false) =
      btn .released 29 true false false false false ∧
    bstep testParams false (btn .released 29 true true true false false) = btn .idle 0 false false false false false ∧
    bstep testParams true (btn .released 10 true false false false false) =
      btn .released 0 true false false false false := by decide

/-- Button 2 one match before a press. -/
def nearPress : State :=
  { base with keys := { base.keys with keyReg := some .b2
                                       btn := { base.keys.btn with b2 := btn .idle 6 false false false false false } } }

/-- R112's example. -/
theorem test_debStep : (after (exec .debStep nearPress)).map (fun s => (s.keys.btn.b2, s.keys.btn.b3, s.fg.pc)) =
    some (btn .pushed 0 true true false false false, Button.reset, 1) := by decide

/-- DEB_STEP_K NONE is an unmatched step for every button. -/
theorem test_debStepK : (after (exec (.debStepK 0) nearPress)).map (fun s => s.keys.btn.b2.count) = some 5 ∧
    refusal (exec (.debStepK 5) nearPress) = some .refusedOperand := by decide

/-- R114. -/
theorem test_btnGet : (after (exec (.btnGet 2) nearPress)).map (fun s => s.fg.resp) =
    some [.button .b2 (btn .idle 6 false false false false false)] ∧
    refusal (exec (.btnGet 5) nearPress) = some .refusedOperand := by decide

/-- R115's example. -/
theorem test_btnConsume :
    (after (exec (.btnConsume 2) { base with keys := { base.keys with
      btn := { base.keys.btn with b2 := btn .released 4 true true true false false } } })).map
      (fun s => s.keys.btn.b2) = some (btn .released 4 false true true false false) := by decide

/-! ### Steps -/

/-- `base` with a program and the foreground's turn. -/
def running (w : Word) : State :=
  { base with fg := { base.fg with prog := [w] }, turns := [.foreground] }

/-- H12, H14, and a unit-0 word. -/
theorem test_step_refuses : refusal (step (running 0x113A)) = some .refusedOperand ∧
    refusal (step (running 0x1202)) = some .refusedEncoding ∧
    refusal (step (running 0x0001)) = some .refusedAgentWord := by decide

theorem test_step_runs : (after (step (running 0x1127))).map (fun s => (s.sched.digits.d2, s.fg.pc)) = some (7, 1) := by
  decide

/-- Inside WAIT_TICK with both ticks pending. -/
def waiting : State :=
  { running 0x1000 with
    sched := { base.sched with ie := true, fgWait := true, fastPending := true, slowPending := true }
    bus := { base.bus with answers := readAnswers [0x05, 0x30, 0x08] } }

/-- H7's dispatch. -/
theorem test_dispatch_fast :
    (after (step { waiting with turns := [.dispatch .fast] })).map
      (fun s => (s.sched.fastPending, s.sched.slowPending, s.sched.ie, s.sched.ctx)) =
      some (false, true, true, .fg) := by decide

/-- H8's other choice under Either. -/
theorem test_dispatch_slow :
    (after (step { waiting with turns := [.dispatch .slow] })).map
      (fun s => (s.sched.fastPending, s.sched.slowPending, s.sched.ctx, s.tk.time)) =
      some (true, false, .fg, some (mkTime 5 30 8 .h24 .am)) := by decide

/-- H9: with `ie = 0` no dispatch. -/
theorem test_dispatch_masked :
    (after (step { base with sched := { base.sched with fastPending := true }, turns := [.dispatch .fast] })).map
      (fun s => (s.sched.fastPending, s.sched.loopReady)) = some (true, false) := by decide

/-- R183: a wait that never ends inside ISR_SLOW leaves the thread in the handler. -/
theorem test_dispatch_hangs :
    (after (step { waiting with turns := [.dispatch .slow], bus := { base.bus with answers := [⟨none, .other, 0⟩] } })).map
      (fun s => (s.hung, s.sched.ctx, s.sched.ie)) = some (true, .isrSlow, false) := by decide

/-- A command, a timer event and a handler body each run as the next step of the reset state. -/
theorem test_withFetchWord :
    (after (step (State.reset.withFetchWord 16 0x1201))).map (fun s => s.sched.dispOn) = some true ∧
    (after (step (State.reset.withFetchWord 16 0x0002))).map (fun s => s.sched.slowPending) = some true ∧
    (after (step (State.reset.withFetchWord 16 0x0011))).map (fun s => s.sched.sel) = some 1 := by decide

/-! ### Witnesses: hypotheses of the statements, met together; one conjunct for each clause or boundary -/

/-- A next state that meets a check. -/
theorem next_of_after {o : StepOutcome} {P : State → Bool} (h : ((after o).map P) = some true) :
    ∃ t, o = .next t ∧ P t = true := by
  cases o with
  | next t => exact ⟨t, rfl, by simpa [after] using h⟩
  | fault f => simp [after] at h
  | refused r => simp [after] at h

theorem witness_DecodeOfEncode : (Instr.dispSetDigit 3 0xF).wellFormed = true ∧ (Instr.btnGet 4).wellFormed = true ∧
    (Instr.debStepK 0).wellFormed = true := by decide

theorem witness_EncodeOfDecode : decode 0x22FE = .error .encoding ∧ decode 0x2200 = .ok (.busRead false) ∧
    decode 0x4404 = .ok (.btnConsume 4) := by decide

theorem witness_OpcodeRowsDisjoint : opcodeRows.length = 22 ∧ ∃ r ∈ opcodeRows, r.selects 0x113F = true := by decide

theorem witness_ReservedEncodingsRefused : (∀ r ∈ opcodeRows, r.selects 0x5000 = false) ∧
    (10#4).toNat = 10 ∧ (14#4).toNat = 14 ∧ 5 ≤ (5#3).toNat ∧ 5 ≤ (7#3).toNat ∧ (0#3).toNat = 0 := by decide

theorem witness_StepRunsTheCommand : (running 0x1201).turn = .foreground ∧ (running 0x1201).hung = false ∧
    (running 0x1201).sched.ctx = .fg ∧ commandWord (running 0x1201) = some 0x1201 ∧
    decode 0x1201 = .ok (.dispSetMode true) ∧ (Instr.dispSetMode true).isAgentEvent = false := by decide

theorem witness_StepRefusesTheWord : (running 0x1202).turn = .foreground ∧ (running 0x1202).hung = false ∧
    (running 0x1202).sched.ctx = .fg ∧ commandWord (running 0x1202) = some 0x1202 ∧
    decode 0x1202 = .error .encoding ∧ decode 0x113A = .error .operand ∧ decode 0x0012 = .ok .isrSlow ∧
    Instr.isrSlow.isAgentEvent = true := by decide

/-- `base` with a turn queued. -/
def turned (t : Turn) : State := { base with turns := [t] }

theorem witness_StepRunsTheTimers : (turned .fastTimer).turn = .fastTimer ∧ (turned .slowTimer).turn = .slowTimer := by
  decide

/-- `waiting` with the dispatch agent's turn and answers queued. -/
def dispatching (x : Tick) (as : List BusAnswer) : State :=
  { waiting with turns := [.dispatch x], bus := { base.bus with answers := as } }

theorem witness_DispatchOfTheFastTick : (dispatching .fast []).turn = .dispatch .fast ∧
    (dispatching .fast []).hung = false ∧ (dispatching .fast []).sched.ie = true ∧
    (dispatching .fast []).sched.ctx = .fg ∧ pickTick .either .fast true true = some .fast ∧
    pickTick .slowFirst .slow true false = some .fast := by decide

/-- `dispatching` inside the slow handler. -/
def inSlow (as : List BusAnswer) : State := enterHandler .slow (dispatching .slow as).consumeTurn

/-- The three ends of the slow handler. -/
theorem witness_DispatchOfTheSlowTick : (dispatching .slow []).turn = .dispatch .slow ∧
    (dispatching .slow []).sched.ie = true ∧ (dispatching .slow []).sched.ctx = .fg ∧
    pickTick .either .slow true true = some .slow ∧
    (after (exec .isrSlow (inSlow (readAnswers [0x05, 0x30, 0x08])))).map (fun t => t.hung) = some false ∧
    (after (exec .isrSlow (inSlow [⟨none, .other, 0⟩]))).map (fun t => t.hung) = some true ∧
    (invalidLeft (exec .isrSlow (inSlow (readAnswers [0, 0, 0x40])))).isSome = true := by decide

/-- Each reason for a dispatch or a foreground turn to leave the state. -/
theorem witness_AgentWithoutAStep : (turned (.dispatch .fast)).turn = .dispatch .fast ∧ base.sched.ie = false ∧
    waiting.sched.ie = true ∧ (inSlow []).sched.ctx ≠ .fg ∧ base.hang.hung = true ∧
    base.sched.fastPending = false ∧ base.sched.slowPending = false ∧ (turned .foreground).turn = .foreground ∧
    (turned .foreground).fg.prog.length ≤ (turned .foreground).fg.pc := by decide

theorem testParams_ok : testParams.ok := by decide

theorem buttonReset_ok : Button.reset.Ok testParams :=
  ⟨by decide, by decide, by decide, rfl⟩

/-- A state inside WAIT_TICK meets the invariant, with a tick to dispatch. -/
theorem dispatching_inv : (dispatching .slow []).Inv where
  par := testParams_ok
  digits := by decide
  outVal := by decide
  fade := by decide
  ie := by decide
  handler := by decide
  loopReady := by decide
  waiting := by decide
  stopped := by decide
  lastByte := by decide
  time := fun _ h => by cases h
  buttons := fun i => by cases i <;> exact buttonReset_ok

theorem witness_StepKeepsTheInvariant : ∃ s t : State, s.Inv ∧ step s = .next t := by
  refine ⟨{ dispatching .slow [ans .other] with turns := [.dispatch .slow] }, ?_⟩
  obtain ⟨t, h, -⟩ := next_of_after (o := step (dispatching .slow [ans .other])) (P := fun _ => true) (by decide)
  exact ⟨t, { dispatching_inv with }, h⟩

/-- What a granted three-byte read of a valid time needs. -/
theorem witness_IsrSlowRefreshesTime : (onBus .idle (readAnswers [0x59, 0x59, 0x23])).bus.phase = .idle ∧
    grantsAll testParams (onBus .idle (readAnswers [0x59, 0x59, 0x23])).bus 0 (readStatuses 2) = true ∧
    decodeTime 0x59 0x59 0x23 = some (mkTime 59 59 23 .h24 .pm) := by decide

theorem witness_WaitTickSteps : base.sched.fgWait = false ∧ base.bus.phase = .idle ∧ waiting.sched.fgWait = true ∧ waiting.sched.ctx = .fg ∧
    waiting.sched.loopReady = false ∧
    (after (exec .isrFast waiting)).map (fun t => (t.sched.fgWait, t.sched.ctx, t.sched.loopReady)) =
      some (true, .fg, true) := by decide

theorem witness_DispSetDigitResult : (0#4).toNat ≤ 9 ∧ (9#4).toNat ≤ 9 ∧ (10#4).toNat = 10 ∧ (14#4).toNat ≤ 14 ∧
    (15#4).toNat = 15 := by decide

theorem witness_DispSetModeResult : base.sched.dispOn = false ∧ lit.sched.dispOn = true := by decide

/-- A begin whose two answers come at the last poll the bound allows, for a read address. -/
theorem witness_BusBeginSucceeds :
    waitEnd (some 100) (some 99) = .ready ∧ waitEnd testParams.waitBound (some 99) = .ready ∧
    ((onBus .idle [ans .rstartOk, ans .slaRAck]).bus.comingAnswer 0).status = .rstartOk ∧
    ((onBus .idle [ans .startOk, ans .slaWAck]).bus.comingAnswer 0).status = .startOk ∧
    ((onBus .idle [ans .startOk, ans .slaWAck]).bus.comingAnswer 1).status =
      (if (0xD0#8).getLsbD 0 then .slaRAck else .slaWAck) ∧
    ((onBus .idle [ans .rstartOk, ans .slaRAck]).bus.comingAnswer 1).status =
      (if (0xD1#8).getLsbD 0 then .slaRAck else .slaWAck) := by decide

/-- `onBus` with WAIT_BOUND 100. -/
def bounded (ph : BusPhase) (as : List BusAnswer) : State :=
  { onBus ph as with par := { testParams with waitBound := some 100 } }

theorem witness_BusBeginErrors :
    waitEnd (some 100) ((bounded .idle [⟨some 100, .startOk, 0⟩]).bus.comingAnswer 0).polls = .timedOut ∧
    ((bounded .idle [ans .slaWAck]).bus.comingAnswer 0).status ≠ .startOk ∧
    ((bounded .idle [ans .slaWAck]).bus.comingAnswer 0).status ≠ .rstartOk ∧
    waitEnd (some 100) ((bounded .tx [ans .rstartOk, ⟨none, .other, 0⟩]).bus.comingAnswer 1).polls = .timedOut ∧
    ((bounded .tx [ans .rstartOk, ans .slaRAck]).bus.comingAnswer 1).status ≠
      (if (0xD0#8).getLsbD 0 then .slaRAck else .slaWAck) := by decide

theorem witness_BusWriteResult : (bounded .tx [ans .dataTxAck]).bus.phase = .tx ∧
    waitEnd (some 100) (bounded .tx [ans .dataTxAck]).bus.answer.polls = .ready ∧
    (bounded .tx [ans .dataTxAck]).bus.answer.status = .dataTxAck ∧
    (bounded .tx [ans .dataTxNack]).bus.answer.status ≠ .dataTxAck ∧
    waitEnd (some 100) (bounded .tx [⟨some 100, .dataTxAck, 0⟩]).bus.answer.polls = .timedOut ∧
    (bounded .rx []).bus.phase ≠ .tx := by decide

theorem witness_BusReadResult : (onBus .rx [⟨some 1999, .dataRxNack, 7⟩]).bus.phase = .rx ∧
    waitEnd (some 2000) (onBus .rx [⟨some 1999, .dataRxNack, 7⟩]).bus.answer.polls = .ready ∧
    (onBus .rx [⟨some 1999, .dataRxNack, 7⟩]).bus.answer.status = (if true then .dataRxNack else .dataRxAck) ∧
    (onBus .rx [⟨some 1999, .dataRxNack, 7⟩]).bus.answer.status ≠ (if false then .dataRxNack else .dataRxAck) ∧
    waitEnd (some 2000) (onBus .rx [⟨some 2000, .dataRxAck, 7⟩]).bus.answer.polls = .timedOut ∧
    (onBus .done []).bus.phase ≠ .rx := by decide

theorem witness_WaitsEndOrHang : (onBus .tx [⟨none, .other, 0⟩]).par.waitBound = none ∧
    (onBus .tx [⟨none, .other, 0⟩]).bus.answer.polls = none ∧ (onBus .tx [⟨none, .other, 0⟩]).bus.phase = .tx ∧
    (onBus .idle [ans .startOk, ⟨none, .other, 0⟩]).bus.answer.polls.isSome = true ∧
    (onBus .idle [ans .startOk, ⟨none, .other, 0⟩]).bus.answer.status = .startOk ∧
    ((onBus .idle [ans .startOk, ⟨none, .other, 0⟩]).bus.comingAnswer 1).polls = none := by decide

/-- A transaction whose actions all succeed. -/
theorem witness_TransactionsEndAtTheFirstError :
    firstSucceed testParams (onBus .idle writeAnswers).bus (writeActions testParams 0x02 [0x17]) (3 + 1) ∧
    firstSucceed testParams (onBus .idle (readAnswers [1, 2, 3])).bus (readActions testParams 0x00 2) (6 + 2) := by
  unfold firstSucceed WireEvent.succeeds
  exact ⟨by decide, by decide⟩

/-- A write that fails at its last action, and reads that fail at their start, at their second address, and, timing out,
at their last byte. -/
theorem witness_TransactionsEndAtTheFirstError_failures :
    let writes := (onBus .idle (writeAnswers.take 3 ++ [ans .dataTxNack])).bus
    let starts := (onBus .idle [ans .other]).bus
    let addresses := (onBus .idle ((readAnswers [1]).take 4 ++ [ans .slaRNack])).bus
    let reads := (onBus .idle ((readAnswers [1, 2, 3]).take 7 ++ [⟨none, .other, 0⟩])).bus
    (firstSucceed testParams writes (writeActions testParams 0x02 [0x17]) 3 ∧
      (writeActions testParams 0x02 [0x17])[3]? = some (.write 0x17) ∧
      (WireEvent.write 0x17).failsWith testParams (writes.comingAnswer 3) .dataNacked) ∧
    WireEvent.start.failsWith testParams (starts.comingAnswer 0) .startFailed ∧
    (firstSucceed testParams addresses (readActions testParams 0x00 0) 4 ∧
      (WireEvent.address 0xD1).failsWith testParams (addresses.comingAnswer 4) .addressNacked) ∧
    (firstSucceed testParams reads (readActions testParams 0x00 2) 7 ∧
      (readActions testParams 0x00 2)[7]? = some (.read true) ∧
      (WireEvent.read true).failsWith testParams (reads.comingAnswer 7) .timeout) := by
  unfold firstSucceed WireEvent.succeeds WireEvent.failsWith
  refine ⟨⟨?_, ?_, ?_⟩, ?_, ⟨?_, ?_⟩, ?_, ?_, ?_⟩ <;> decide

theorem witness_OpenBusRefused : (onBus .done []).bus.phase ≠ .idle ∧ (onBus .done []).sched.fgWait = false := by
  decide

/-- With a bound, no wait hangs. -/
theorem bounded_waitsEnd (n : Nat) (ph : BusPhase) (as : List BusAnswer) : waitsEnd n (bounded ph as) :=
  fun _ _ => .inl rfl

/-- With no bound, no wait hangs when the answers come. -/
theorem ready_waitsEnd : waitsEnd 4 (onBus .idle writeAnswers) := by
  unfold waitsEnd
  decide

theorem witness_TkInitCompletes : (bounded .idle []).bus.phase = .idle ∧ waitsEnd 14 (bounded .idle []) :=
  ⟨rfl, bounded_waitsEnd 14 .idle []⟩

/-- Both ends of a TimeKeeper command with no bound: a read that is never ready times out, and the command ends; a start
that is never ready holds it. -/
theorem witness_TkInitCompletes_unbounded :
    (after (exec .tkInit (onBus .idle (writeAnswers ++ [ans .startOk, ans .slaWAck, ans .dataTxAck, ans .rstartOk,
      ans .slaRAck, ⟨none, .other, 0⟩] ++ writeAnswers)))).map (fun t => (t.hung, t.tk.tkResult)) =
      some (false, .timeout) ∧
    stuckWait (onBus .idle [⟨none, .other, 0⟩])
      (({ onBus .idle [] with bus := { base.bus with wire := [.start] } }).hang) := by
  refine ⟨by decide, rfl, rfl, rfl, ⟨rfl, rfl, rfl, rfl, rfl⟩, [], .start, rfl, rfl, rfl⟩

theorem witness_TkRefreshReadsTheChip :
    grantsAll testParams (onBus .idle (readAnswers [0x00, 0x00, 0x52])).bus 0 (readStatuses 2) = true ∧
    decodeTime 0x00 0x00 0x52 = some (mkTime 0 0 12 .h12 .am) := by decide

/-- A refresh that meets an error, at its start and at its last byte, in the command and in the handler. -/
theorem witness_RefreshErrorKeepsTime :
    (∃ rb u, memRead testParams 0x00 3 (onBus .idle [ans .other]).bus = .done rb u ∧ rb.1 = .startFailed) ∧
    (∃ rb u, memRead testParams 0x00 3 (onBus .idle ((readAnswers [0, 0, 0]).take 7 ++ [ans .dataRxAck])).bus =
      .done rb u ∧ rb.1 = .dataNacked) ∧
    (∃ t, exec .tkRefresh (onBus .idle [ans .other]) = .next t ∧
      decide (t.bus.result ≠ .ok ∧ t.hung = false) = true) ∧
    (∃ t, exec .isrSlow (onBus .idle [ans .other]) = .next t ∧ decide (t.bus.result ≠ .ok) = true) :=
  ⟨⟨_, _, rfl, rfl⟩, ⟨_, _, rfl, rfl⟩, next_of_after (by decide), next_of_after (by decide)⟩

theorem witness_UndecodableBytesFault :
    grantsAll testParams (onBus .idle (readAnswers [0x00, 0x60, 0x23])).bus 0 (readStatuses 2) = true ∧
    decodeTime 0x00 0x60 0x23 = none ∧ decodeTime 0x00 0x00 0x24 = none ∧ decodeTime 0x00 0x00 0x53 = none ∧
    grantsAll testParams (onBus .idle (readAnswers [0x05] ++ writeAnswers ++ readAnswers [0x00, 0x60, 0x23])).bus 0
      (readStatuses 0 ++ writeStatuses ++ readStatuses 2) = true := by decide

/-- A toggle whose halt read fails and whose re-read does not decode. -/
theorem witness_UndecodableBytesFault_afterAFailedHalt :
    ∃ s rb h r2 u1 u2 u3, s = withTime defaultTime ([ans .other] ++ writeAnswers ++ readAnswers [0x00, 0x60, 0x23]) ∧
      memRead s.par 0x00 1 s.bus = .done rb u1 ∧ captures s.tk.time rb h ∧
      memWrite s.par 0x00 [h ||| 0x80] u1 = .done r2 u2 ∧
      memRead s.par 0x00 3 u2 = .done (.ok, [0x00, 0x60, 0x23]) u3 ∧ decodeTime 0x00 0x60 0x23 = none :=
  ⟨_, _, 0x00, _, _, _, _, rfl, rfl, ⟨(fun h => nomatch h), fun _ => ⟨_, rfl, rfl⟩⟩, rfl, rfl, by decide⟩

/-- `bounded`, with a written time. -/
def boundedTime (t : TimeRec) : State := { bounded .idle [] with tk := { base.tk with time := some t } }

theorem witness_TkAdjMinCompletes : (boundedTime defaultTime).bus.phase = .idle ∧
    (boundedTime defaultTime).tk.time = some defaultTime ∧ waitsEnd 18 (boundedTime defaultTime) :=
  ⟨rfl, rfl, fun _ _ => .inl rfl⟩

theorem witness_TkAdjHourCompletes : (boundedTime defaultTime).bus.phase = .idle ∧
    (boundedTime defaultTime).tk.time = some defaultTime ∧ waitsEnd 18 (boundedTime defaultTime) :=
  ⟨rfl, rfl, fun _ _ => .inl rfl⟩

theorem witness_InitAndAdjustmentTranscripts :
    grantsAll testParams (onBus .idle (writeAnswers ++ readAnswers [0x85] ++ writeAnswers)).bus 0
      (writeStatuses ++ readStatuses 0 ++ writeStatuses) = true ∧
    (withTime defaultTime (adjustAnswers 0x07)).tk.time = some defaultTime ∧
    grantsAll testParams (withTime defaultTime (adjustAnswers 0x07)).bus 0
      (readStatuses 0 ++ writeStatuses ++ writeStatuses ++ writeStatuses) = true ∧
    ((withTime defaultTime (adjustAnswers 0x07)).bus.comingAnswer 5).byte = 0x07 := by decide

/-- A mutation that completes although its first transaction fails. -/
theorem witness_BracketAlwaysCloses :
    ∃ t, exec (.tkAdjMin .up)
        (withTime defaultTime (ans .other :: writeAnswers ++ writeAnswers ++ writeAnswers)) = .next t ∧
      decide (t.hung = false ∧ t.tk.tkResult = .startFailed) = true :=
  next_of_after (by decide)

theorem witness_TkToggleModeConverts :
    grantsAll testParams (onBus .idle toggleAnswers).bus 0
      (readStatuses 0 ++ writeStatuses ++ readStatuses 2 ++ writeStatuses ++ writeStatuses) = true ∧
    ((onBus .idle toggleAnswers).bus.comingAnswer 5).byte = 0x10 ∧
    decodeTime ((onBus .idle toggleAnswers).bus.comingAnswer 15).byte
      ((onBus .idle toggleAnswers).bus.comingAnswer 16).byte
      ((onBus .idle toggleAnswers).bus.comingAnswer 17).byte = some (mkTime 10 5 17 .h24 .pm) := by decide

/-- The premises about a toggle of `defaultTime`, or of the time `x` re-read, with the answers of its five transactions:
what the halt read and the re-read return, and what the halt write, the hours write and the un-halt return. -/
def ToggleReturns (a1 a2 a3 a4 a5 : List BusAnswer) (h : Byte) (x : TimeRec) (q1 q3 : BusResult)
    (r2 r4 r5 : BusResult) : Prop :=
  ∃ s rb rr u1 u2 u3 u4 u5, s = withTime defaultTime (a1 ++ a2 ++ a3 ++ a4 ++ a5) ∧
    memRead s.par 0x00 1 s.bus = .done rb u1 ∧ captures s.tk.time rb h ∧ rb.1 = q1 ∧
    memWrite s.par 0x00 [h ||| 0x80] u1 = .done r2 u2 ∧ memRead s.par 0x00 3 u2 = .done rr u3 ∧ rr.1 = q3 ∧
    (rr.1 ≠ .ok → s.tk.time = some x) ∧
    (rr.1 = .ok → ∃ b0 b1 b2, rr.2 = [b0, b1, b2] ∧ decodeTime b0 b1 b2 = some x) ∧
    memWrite s.par 0x02 [hourByte x.toggleMode] u3 = .done r4 u4 ∧ memWrite s.par 0x00 [h &&& 0x7F] u4 = .done r5 u5

/-- The re-read fails at its start, its address, its index byte, its second address, its first byte, its last byte. -/
theorem witness_TkToggleModeEnds_failedReread :
    let R := fun as q =>
      ToggleReturns (readAnswers [0x05]) writeAnswers as writeAnswers writeAnswers 0x05 defaultTime .ok q .ok .ok .ok
    R [ans .other] .startFailed ∧ R [ans .startOk, ans .slaWNack] .addressNacked ∧
    R [ans .startOk, ans .slaWAck, ans .dataTxNack] .dataNacked ∧
    R [ans .startOk, ans .slaWAck, ans .dataTxAck, ans .rstartOk, ans .slaRNack] .addressNacked ∧
    R [ans .startOk, ans .slaWAck, ans .dataTxAck, ans .rstartOk, ans .slaRAck, ans .dataRxNack] .dataNacked ∧
    R [ans .startOk, ans .slaWAck, ans .dataTxAck, ans .rstartOk, ans .slaRAck, ans .dataRxAck, ans .dataRxAck,
      ⟨none, .other, 0⟩] .timeout := by
  refine ⟨?_, ?_, ?_, ?_, ?_, ?_⟩ <;>
    exact ⟨_, _, _, _, _, _, _, _, rfl, rfl, ⟨fun _ => rfl, fun h => absurd rfl h⟩, rfl, rfl, rfl, rfl, fun _ => rfl,
      (fun h => nomatch h), rfl, rfl⟩

/-- The re-read decodes while the halt read, the halt write, the hours write and the un-halt fail. -/
theorem witness_TkToggleModeEnds :
    ToggleReturns [ans .other] [ans .startOk, ans .slaWNack] (readAnswers [0x10, 0x05, 0x17])
      [ans .startOk, ans .slaWAck, ans .dataTxNack] [ans .other] 0x00 (mkTime 10 5 17 .h24 .pm) .startFailed .ok
      .addressNacked .dataNacked .startFailed :=
  ⟨_, _, _, _, _, _, _, _, rfl, rfl, ⟨(fun h => nomatch h), fun _ => ⟨_, rfl, rfl⟩⟩, rfl, rfl, rfl, rfl,
    fun h => absurd rfl h, fun _ => ⟨_, _, _, rfl, by decide⟩, rfl, rfl⟩

theorem witness_TkGetTimeSnapshot : (withTime defaultTime []).tk.time = some defaultTime ∧ base.tk.time = none :=
  ⟨rfl, rfl⟩

/-- A toggle before the first write of `time`: its halt read fails at the first byte; its halt goes well and its re-read
fails. -/
theorem witness_UnwrittenTimeFaults : (onBus .idle []).tk.time = none ∧ (onBus .idle []).bus.phase = .idle ∧
    (∃ rb u, memRead testParams 0x00 1 (onBus .idle ((readAnswers [0x05]).take 5 ++ [ans .dataRxAck])).bus =
      .done rb u ∧ rb.1 = .dataNacked) ∧
    ∃ s r2 rr u1 u2 u3, s = onBus .idle (readAnswers [0x05] ++ writeAnswers ++ [ans .other]) ∧
      memRead s.par 0x00 1 s.bus = .done (.ok, [0x05]) u1 ∧ memWrite s.par 0x00 [0x05 ||| 0x80] u1 = .done r2 u2 ∧
      memRead s.par 0x00 3 u2 = .done rr u3 ∧ rr.1 = .startFailed :=
  ⟨rfl, rfl, ⟨_, _, rfl, rfl⟩, _, _, _, _, _, _, rfl, rfl, rfl, rfl, rfl⟩

/-- A time of each mode at the end of its range. -/
theorem ok_lastH24 : (mkTime 59 59 23 .h24 .pm).ok := by
  unfold TimeRec.ok TimeRec.inRange TimeRec.bcdOk
  decide

theorem ok_firstH12 : (mkTime 0 0 1 .h12 .pm).ok := by
  unfold TimeRec.ok TimeRec.inRange TimeRec.bcdOk
  decide

/-- The edges of R91's ranges; a units digit of ten whose sum is in range does not decode. -/
theorem witness_TimeBytesRoundTrip : decodeTime 0x59 0x59 0x23 = some (mkTime 59 59 23 .h24 .pm) ∧
    decodeTime 0x80 0x80 0xC1 = some (mkTime 0 0 1 .h12 .am) ∧ decodeTime 0x0A 0x00 0x00 = none ∧
    decodeTime 0x60 0x00 0x00 = none ∧ decodeTime 0x00 0x60 0x00 = none ∧ decodeTime 0x00 0x00 0x24 = none ∧
    decodeTime 0x00 0x00 0x40 = none ∧ decodeTime 0x00 0x00 0x53 = none ∧ (mkTime 59 59 23 .h24 .pm).ok ∧
    (mkTime 0 0 1 .h12 .pm).ok :=
  ⟨by decide, by decide, by decide, by decide, by decide, by decide, by decide, by decide, ok_lastH24, ok_firstH12⟩

theorem witness_AdjustmentsAreInverse : (mkTime 59 59 23 .h24 .pm).ok ∧ (mkTime 0 0 1 .h12 .pm).ok :=
  ⟨ok_lastH24, ok_firstH12⟩

theorem witness_ToggleTwiceIsIdentity : (mkTime 59 59 23 .h24 .pm).ok ∧ (mkTime 0 0 1 .h12 .pm).ok :=
  ⟨ok_lastH24, ok_firstH12⟩

theorem witness_FirstErrLaw : (∀ r ∈ [BusResult.ok, BusResult.ok], r = .ok) ∧ BusResult.timeout ≠ .ok := by
  decide

theorem witness_BandsClassifySamples : testParams.ok ∧ band testParams 255 ≠ band testParams 256 := by decide

theorem witness_DebounceCommands : (4#3).toNat ≤ 4 ∧ (0#3).toNat ≤ 4 ∧ 5 ≤ (5#3).toNat := by decide

/-- T_DETECT is 7: counts 6 and 5 up, 1 and 2 down, 0 down. -/
theorem witness_IdleStep : (btn .idle 6 false false false false false).state = .idle ∧
    testParams.tDetect ≤ (6#16).toNat + 1 ∧ (5#16).toNat + 1 < testParams.tDetect ∧ (1#16).toNat - 1 = 0 ∧
    (2#16).toNat - 1 ≠ 0 ∧ (0#16).toNat - 1 = 0 ∧ (6#16).toNat < 2 ^ 16 - 1 := by decide

/-- The free-running count at its wrap. -/
theorem witness_PushedMatchedStep : (btn .pushed 65535 true true true false true).state = .pushed ∧
    0 = ((65535#16).toNat + 1) % 2 ^ 16 := by decide

/-- T_RELEASE is 30: counts 28 and 29. -/
theorem witness_ReleaseSteps : (btn .released 28 true true false false false).state = .released ∧
    (28#16).toNat + 1 < testParams.tRelease ∧ testParams.tRelease ≤ (29#16).toNat + 1 ∧
    (29#16).toNat < 2 ^ 16 - 1 ∧ (btn .pushed 0 true true false false false).state = .pushed := by decide

theorem witness_ActionIsKept : (btn .released 29 true true false false false).state ≠ .idle ∧
    (btn .released 29 true true false false false).action = true := by decide

theorem witness_PressIsDetected : 1 ≤ testParams.tDetect ∧ testParams.tDetect < 2 ^ 16 ∧ Button.reset.state = .idle ∧
    Button.reset.count = 0 ∧ 6 < testParams.tDetect := by decide

theorem witness_ButtonCommands : 4#3 = ButtonId.b4.code ∧ (0#3).toNat = 0 ∧ 5 ≤ (5#3).toNat := by decide

theorem witness_PcMovesByOne : ∃ t, step (running 0x1201) = .next t ∧ decide (t.fg.pc = 1) = true :=
  next_of_after (by decide)

theorem witness_LogsOnlyGrow : ∃ t, step { running 0x20D0 with bus := (onBus .idle [ans .other]).bus } = .next t ∧
    decide (t.fg.resp ≠ [] ∧ t.bus.wire ≠ []) = true := next_of_after (by decide)

theorem witness_HandlersKeepTheForeground : (turned .fastTimer).turn ≠ .foreground ∧
    (turned .fastTimer).sched.ie = false ∧
    ∃ t, step (turned .fastTimer) = .next t ∧ decide (t.sched.fastPending = true) = true :=
  ⟨by decide, by decide, next_of_after (by decide)⟩

theorem witness_OnlyTheFastHandlerDrivesTheDisplay : ∃ t, step (dispatching .fast []) = .next t ∧
    decide (t.sched.dispLog ≠ (dispatching .fast []).sched.dispLog) = true := next_of_after (by decide)

theorem witness_HungThreadIsFrozen : (turned .foreground).hang.hung = true := rfl

/-- The foreground, the fast timer and the dispatch agent by turns. -/
def fairSched (n : Nat) : Turn := if n % 3 = 0 then .foreground else if n % 3 = 1 then .fastTimer else .dispatch .fast

/-- The run of the program WAIT_TICK, DISP_SET_MODE ON in that order. -/
def fairRun : Nat → State
  | 0 => { base with fg := { base.fg with prog := [0x1000, 0x1201] } }
  | n + 1 => (after (stepUnder (fairSched n) (fairRun n))).getD (fairRun n)

theorem next_of_some {o : StepOutcome} {s t : State} (h : after o = some t) : o = .next ((after o).getD s) := by
  cases o with
  | next u => rfl
  | fault f => simp [after] at h
  | refused r => simp [after] at h

theorem fairRun_begins : ∀ n < 7, ∃ t, after (stepUnder (fairSched n) (fairRun n)) = some t := by
  intro n hn
  have h : ∀ n < 7, (after (stepUnder (fairSched n) (fairRun n))).isSome = true := by decide
  exact Option.isSome_iff_exists.mp (h n hn)

/-- From its seventh step on the run rests at its end. -/
theorem fairRun_rests (n : Nat) : fairRun (n + 7) = fairRun 7 ∧
    after (stepUnder (fairSched (n + 7)) (fairRun 7)) = some (fairRun 7) := by
  have hs : ∀ n, after (stepUnder (fairSched n) (fairRun 7)) = some (fairRun 7) := by
    have h1 : after (stepUnder .foreground (fairRun 7)) = some (fairRun 7) := by decide
    have h2 : after (stepUnder .fastTimer (fairRun 7)) = some (fairRun 7) := by decide
    have h3 : after (stepUnder (.dispatch .fast) (fairRun 7)) = some (fairRun 7) := by decide
    intro n
    unfold fairSched
    split
    · exact h1
    · split
      · exact h2
      · exact h3
  refine ⟨?_, hs _⟩
  induction n with
  | zero => rfl
  | succ n ih =>
    show (after (stepUnder (fairSched (n + 7)) (fairRun (n + 7)))).getD (fairRun (n + 7)) = fairRun 7
    rw [ih, hs]
    rfl

theorem fairRun_all {P : State → Prop} (h : ∀ n < 8, P (fairRun n)) (n : Nat) : P (fairRun n) := by
  rcases Nat.lt_or_ge n 8 with hn | hn
  · exact h n hn
  · obtain ⟨m, rfl⟩ : ∃ m, n = m + 7 := ⟨n - 7, by omega⟩
    rw [(fairRun_rests m).1]
    exact h 7 (by decide)

theorem fairRun_runs : RunUnder fairSched fairRun := by
  intro n
  rcases Nat.lt_or_ge n 7 with hn | hn
  · obtain ⟨t, ht⟩ := fairRun_begins n hn
    exact next_of_some ht
  · obtain ⟨m, rfl⟩ : ∃ m, n = m + 7 := ⟨n - 7, by omega⟩
    exact next_of_some (t := fairRun 7) (by rw [(fairRun_rests m).1]; exact (fairRun_rests m).2)

/-- The run begins in the invariant, has no hang, is fair, waits, and ends. -/
theorem witness_FairRunsReachTheEnd : RunUnder fairSched fairRun ∧ (fairRun 0).Inv ∧ WaitsEnd fairRun ∧
    Recurs fairSched .foreground ∧ Recurs fairSched .fastTimer ∧ FairDispatch fairSched fairRun ∧
    (fairRun 1).sched.fgWait = true ∧ (fairRun 0).fg.pc ≤ (fairRun 0).fg.prog.length ∧ AtEnd (fairRun 7) := by
  refine ⟨fairRun_runs, ?_, fairRun_all (P := fun s => s.hung = false) (by decide),
    fun n => ⟨3 * n, by omega, ?_⟩, fun n => ⟨3 * n + 1, by omega, ?_⟩,
    fun x n h => ?_, by decide, by decide, by unfold AtEnd; decide⟩
  · exact { dispatching_inv with
      ie := by decide, waiting := by decide, handler := by decide, loopReady := by decide, lastByte := by decide
      stopped := by decide, digits := by decide, outVal := by decide, fade := by decide }
  · have : 3 * n % 3 = 0 := by omega
    simp [fairSched, this]
  · have : (3 * n + 1) % 3 = 1 := by omega
    simp [fairSched, this]
  · have h1 := (h (n + 7) (by omega)).1
    rw [(fairRun_rests n).1] at h1
    exact absurd h1 (by decide)

/-- A foreground turn of that run at a command other than WAIT_TICK. -/
theorem witness_FairRunsReachTheEnd_command : fairSched 6 = .foreground ∧ commandWord (fairRun 6) = some 0x1201 ∧
    (0x1201 : Word) ≠ 0x1000 ∧ (fairRun 7).fg.pc = 2 := by decide

end Sys2Proof.Tests
end

section
/-!
SUPPORT. The times that the block computes are times it can hold (spec/10_state.md R25, R26): building a record, the
adjustments (spec/42_timekeeper.md R92, R96, R97), the mode conversion (R98) and the decoding of the chip's bytes (R91).
-/

namespace Sys2Proof.Machine

/-- The hour and period that a time in this mode can hold (R25). -/
def hourFits : HourMode → Nat → DayPeriod → Prop
  | .h24, h, p => h ≤ 23 ∧ p = periodOfHour h
  | .h12, h, _ => 1 ≤ h ∧ h ≤ 12

theorem hourFits.le {mode : HourMode} {h : Nat} {p : DayPeriod} (hf : hourFits mode h p) : h ≤ 23 := by
  cases mode with
  | h24 => exact hf.1
  | h12 => exact hf.2.trans (by omega)

theorem TimeRec.ok.hour {t : TimeRec} (ht : t.ok) : hourFits t.mode t.hr.toNat t.period := by
  obtain ⟨⟨-, -, h24, h12⟩, -, hp⟩ := ht
  cases hm : t.mode with
  | h24 => exact ⟨h24 hm, hp hm⟩
  | h12 => exact h12 hm

/-- A record built from fields in range is a time the block can hold (R90). -/
theorem mkTime_ok {s m h : Nat} {mode : HourMode} {p : DayPeriod} (hs : s ≤ 59) (hm : m ≤ 59)
    (hh : hourFits mode h p) : (mkTime s m h mode p).ok := by
  have h23 := hh.le
  have hr : (BitVec.ofNat 5 h).toNat = h := by simp; omega
  have hf : hourFits mode (mkTime s m h mode p).hr.toNat p := hr.symm ▸ hh
  refine ⟨⟨?_, ?_, fun e => ?_, fun e => ?_⟩, ⟨?_, ?_, ?_, ?_, ?_, ?_⟩, fun e => ?_⟩
  case refine_3 => cases e; exact hf.1
  case refine_4 => cases e; exact hf
  case refine_11 => cases e; exact hf.2
  all_goals simp only [mkTime, BitVec.toNat_ofNat]; omega

theorem defaultTime_ok : defaultTime.ok := mkTime_ok (by omega) (by omega) ⟨by omega, by omega⟩

theorem minStep_le {m : Nat} (hm : m ≤ 59) (dir : Direction) : minStep m dir ≤ 59 := by
  cases dir <;> simp only [minStep] <;> split <;> omega

theorem hourStep_fits {mode : HourMode} {h : Nat} {p : DayPeriod} (hh : hourFits mode h p) (dir : Direction) :
    hourFits mode (hourStep mode h p dir).1 (hourStep mode h p dir).2 := by
  cases mode with
  | h24 =>
    have := hh.1
    refine ⟨?_, rfl⟩
    cases dir <;> simp only [hourStep, hourStep24] <;> split <;> omega
  | h12 =>
    obtain ⟨h1, h12⟩ := hh
    cases dir <;> simp only [hourStep, hourStep12, hourFits] <;> split_ifs <;> simp <;> omega

theorem to12_fits {h : Nat} (hh : h ≤ 23) : hourFits .h12 (to12 h).1 (to12 h).2 := by
  simp only [to12, hourFits]
  split_ifs <;> simp <;> omega

theorem to24_le {h : Nat} (h1 : 1 ≤ h) (h12 : h ≤ 12) (p : DayPeriod) : to24 h p ≤ 23 := by
  simp only [to24]
  split_ifs <;> omega

theorem TimeRec.adjustMinute_ok {t : TimeRec} (ht : t.ok) (dir : Direction) : (t.adjustMinute dir).ok :=
  mkTime_ok ht.1.1 (minStep_le ht.1.2.1 dir) ht.hour

theorem TimeRec.adjustHour_ok {t : TimeRec} (ht : t.ok) (dir : Direction) : (t.adjustHour dir).ok :=
  mkTime_ok ht.1.1 ht.1.2.1 (hourStep_fits ht.hour dir)

theorem TimeRec.toggleMode_ok {t : TimeRec} (ht : t.ok) : t.toggleMode.ok := by
  have hh := ht.hour
  unfold TimeRec.toggleMode
  split
  · exact mkTime_ok ht.1.1 ht.1.2.1 (to12_fits hh.le)
  · next hm =>
    rw [hm] at hh
    exact mkTime_ok ht.1.1 ht.1.2.1 ⟨to24_le hh.1 hh.2 _, rfl⟩

theorem decodeHour_fits {b : Byte} {x : Nat × HourMode × DayPeriod} (h : decodeHour b = some x) :
    hourFits x.2.1 x.1 x.2.2 := by
  simp only [decodeHour] at h
  split at h
  · split at h
    · cases h
    · next hr => cases h; exact ⟨by omega, by omega⟩
  · split at h
    · cases h
    · next hr => cases h; exact ⟨by omega, rfl⟩

/-- Bytes that decode give a time the block can hold (R91). -/
theorem decodeTime_ok {b0 b1 b2 : Byte} {t : TimeRec} (h : decodeTime b0 b1 b2 = some t) : t.ok := by
  simp only [decodeTime] at h
  split at h
  · cases h
  · split at h
    · cases h
    · next hr =>
      obtain ⟨x, hx, rfl⟩ := Option.map_eq_some_iff.mp h
      exact mkTime_ok (by omega) (by omega) (decodeHour_fits hx)

end Sys2Proof.Machine
end

section
/-!
SUPPORT. A debounce step keeps the button records that the block can hold (spec/10_state.md R31; spec/44_debounce.md
R106 to R111).
-/

namespace Sys2Proof.Machine

theorem Button.Ok.ofIdle {p : Params} {b : Button} (hs : b.state = .idle) (hc : b.count.toNat + 1 ≤ p.tDetect)
    (ha : b.action = false) (hl : b.lock = false) (h1 : b.delay1 = false) (h2 : b.delay2 = false)
    (h3 : b.delay3 = false) (hq : b.query = false) : b.Ok p :=
  ⟨fun _ => ⟨hc, ha, hl, h1, h2, h3⟩, fun h => absurd (hs.symm.trans h) (by decide),
    fun h => absurd (hs.symm.trans h) (by decide), hq⟩

theorem Button.Ok.ofPushed {p : Params} {b : Button} (hs : b.state = .pushed) (hl : b.lock = true)
    (h2 : b.delay2 = true → b.delay1 = true ∧ p.tDelay1 ≤ b.count.toNat ∧ (b.count.toNat - p.tDelay1) % p.tDelay2 = 0)
    (hq : b.query = false) : b.Ok p :=
  ⟨fun h => absurd (hs.symm.trans h) (by decide), fun h => absurd (hs.symm.trans h) (by decide),
    fun _ => ⟨hl, h2⟩, hq⟩

theorem Button.Ok.ofReleased {p : Params} {b : Button} (hs : b.state = .released)
    (hc : b.count.toNat + 1 ≤ p.tRelease) (hl : b.lock = true) (h2 : b.delay2 = false) (hq : b.query = false) :
    b.Ok p :=
  ⟨fun h => absurd (hs.symm.trans h) (by decide), fun _ => ⟨hc, hl, h2⟩,
    fun h => absurd (hs.symm.trans h) (by decide), hq⟩

/-- An Idle step first updates the count alone (R107). -/
theorem idleStep_count (matched : Bool) (b : Button) :
    ∃ c, (if matched then b.bump else if b.count ≠ 0 then { b with count := b.count - 1 } else b) =
      { b with count := c } := by
  split
  · exact ⟨_, rfl⟩
  · split <;> exact ⟨_, rfl⟩

theorem idleStep_ok {p : Params} {b : Button} (hb : b.Ok p) (hs : b.state = .idle) (matched : Bool) :
    (idleStep p matched b).Ok p := by
  obtain ⟨-, ha, hl, h1, h2, h3⟩ := hb.idle hs
  obtain ⟨c, hc⟩ := idleStep_count matched b
  simp only [idleStep, hc]
  split
  · exact .ofPushed rfl rfl (fun h => absurd (h2.symm.trans h) (by decide)) hb.query
  · next hlt =>
    have hcount : c.toNat + 1 ≤ p.tDetect := Nat.lt_of_not_le hlt
    split
    · exact .ofIdle hs hcount rfl rfl h1 h2 h3 rfl
    · exact .ofIdle hs hcount ha hl h1 h2 h3 hb.query

theorem pulses_iff {p : Params} {b : Button} : pulses p b = true ↔
    b.delay1 = true ∧ p.tDelay1 ≤ b.count.toNat ∧ (b.count.toNat - p.tDelay1) % p.tDelay2 = 0 := by
  simp [pulses, and_assoc]

theorem pushedStep_ok {p : Params} {b : Button} (hp : p.ok) (hb : b.Ok p) (hs : b.state = .pushed)
    (h2 : b.delay2 = false) (matched : Bool) : (pushedStep p matched b).Ok p := by
  obtain ⟨-, -, hrelease, -⟩ := hp
  obtain ⟨hl, -⟩ := hb.pushed hs
  unfold pushedStep
  split
  · refine .ofPushed hs hl (fun h => ?_) hb.query
    have hpulse : (b.delay2 || pulses p (latchHolds p b.bump)) = true := h
    rw [h2, Bool.false_or] at hpulse
    exact pulses_iff.mp hpulse
  · exact .ofReleased rfl (by simpa using hrelease) hl h2 hb.query

theorem releasedStep_ok {p : Params} {b : Button} (hp : p.ok) (hb : b.Ok p) (hs : b.state = .released)
    (matched : Bool) : (releasedStep p matched b).Ok p := by
  obtain ⟨hdetect, -, hrelease, -⟩ := hp
  obtain ⟨-, hl, h2⟩ := hb.released hs
  unfold releasedStep
  split
  · exact .ofReleased hs (by simpa using hrelease) hl h2 hb.query
  · split
    · exact .ofIdle rfl (by simpa using hdetect) rfl rfl rfl rfl rfl rfl
    · next hlt => exact .ofReleased hs (Nat.lt_of_not_le hlt) hl h2 hb.query

/-- Every debounce step begins with the delay2 pulse off (R109). -/
theorem Button.Ok.clearPulse {p : Params} {b : Button} (hb : b.Ok p) : ({ b with delay2 := false } : Button).Ok p where
  idle h := by
    obtain ⟨hc, ha, hl, h1, -, h3⟩ := hb.idle h
    exact ⟨hc, ha, hl, h1, rfl, h3⟩
  released h := by
    obtain ⟨hc, hl, -⟩ := hb.released h
    exact ⟨hc, hl, rfl⟩
  pushed h := ⟨(hb.pushed h).1, nofun⟩
  query := hb.query

theorem bstep_ok {p : Params} {b : Button} (hp : p.ok) (hb : b.Ok p) (matched : Bool) : (bstep p matched b).Ok p := by
  simp only [bstep]
  split
  · next hs => exact idleStep_ok hb.clearPulse hs matched
  · next hs => exact pushedStep_ok hp hb.clearPulse hs rfl matched
  · next hs => exact releasedStep_ok hp hb.clearPulse hs matched

/-- Consuming an action (R115) clears a flag on which no button's record rests. -/
theorem Button.Ok.clearAction {p : Params} {b : Button} (hb : b.Ok p) : ({ b with action := false } : Button).Ok p where
  idle h := by
    obtain ⟨hc, -, hl, h1, h2, h3⟩ := hb.idle h
    exact ⟨hc, rfl, hl, h1, h2, h3⟩
  released := hb.released
  pushed := hb.pushed
  query := hb.query

/-- Each button takes its own step, matched by its own key (R105, R112). -/
theorem Buttons.get_step (p : Params) (k : Key) (b : Buttons) (i : ButtonId) :
    (b.step p k).get i = bstep p (k == some i) (b.get i) := by
  cases i <;> rfl

theorem Buttons.get_set (b : Buttons) (i j : ButtonId) (v : Button) :
    (b.set i v).get j = if j = i then v else b.get j := by
  cases i <;> cases j <;> rfl

theorem Buttons.step_ok {p : Params} {b : Buttons} (hp : p.ok) (hb : ∀ i, (b.get i).Ok p) (k : Key) (i : ButtonId) :
    ((b.step p k).get i).Ok p := by
  rw [Buttons.get_step]
  exact bstep_ok hp (hb i) _

theorem Buttons.consumeAction_ok {p : Params} {b : Buttons} (hb : ∀ i, (b.get i).Ok p) (j i : ButtonId) :
    ((b.consumeAction j).get i).Ok p := by
  rw [Buttons.consumeAction, Buttons.get_set]
  split
  · exact (hb j).clearAction
  · exact hb i

end Sys2Proof.Machine
end

section
/-!
SUPPORT. The operations of the TimeKeeper unit write only times that the block can hold (spec/10_state.md R25, R26;
spec/42_timekeeper.md R93 to R98).
-/

namespace Sys2Proof.Machine

/-- A written time is one the block can hold (R25, R26). -/
def State.TimeOk (s : State) : Prop := ∀ t, s.tk.time = some t → t.ok

/-- Done or hung, the operation leaves a time the block can hold, if one is written. -/
def Flow.TimeOk {α : Type} (x : Flow α) : Prop :=
  match x with
  | .done _ t => t.TimeOk
  | .hang t => t.TimeOk
  | .fault _ => True

theorem State.TimeOk.setTime {t : TimeRec} (ht : t.ok) (s : State) : (s.setTime t).TimeOk := by
  rintro _ ⟨⟩
  exact ht

theorem Flow.TimeOk.andThen {α β : Type} {x : Flow α} {f : α → State → Flow β} (hx : x.TimeOk)
    (hf : ∀ a t, t.TimeOk → (f a t).TimeOk) : (x.andThen f).TimeOk := by
  cases x with
  | done a t => exact hf a t hx
  | hang t => exact hx
  | fault e => trivial

theorem BusOut.into_timeOk {α : Type} {s : State} (hs : s.TimeOk) (x : BusOut α) : (x.into s).TimeOk := by
  cases x with
  | done a u => exact hs
  | hang u => exact hs

theorem halt_timeOk {s : State} (hs : s.TimeOk) : (halt s).TimeOk := by
  refine (BusOut.into_timeOk hs _).andThen fun rb t ht => ?_
  split
  · trivial
  · exact (BusOut.into_timeOk (s := t.setHalt _) ht _).andThen fun r u hu => hu

theorem unhalt_timeOk {s : State} (hs : s.TimeOk) : (unhalt s).TimeOk := by
  unfold unhalt
  split
  · trivial
  · exact BusOut.into_timeOk hs _

theorem refresh_timeOk {s : State} (hs : s.TimeOk) : (refresh s).TimeOk := by
  refine (BusOut.into_timeOk hs _).andThen fun rb t ht => ?_
  split
  · split
    · next hd => exact .setTime (decodeTime_ok hd) t
    · trivial
  · exact ht

theorem tkInitBody_timeOk {s : State} (hs : s.TimeOk) : (tkInitBody s).TimeOk :=
  (BusOut.into_timeOk hs _).andThen fun _ _ ht => (BusOut.into_timeOk ht _).andThen fun _ _ hu =>
    (BusOut.into_timeOk hu _).andThen fun _ v _ => .setTime defaultTime_ok v

theorem mutateTime_timeOk {new : TimeRec → TimeRec} (hnew : ∀ t, t.ok → (new t).ok) (reg : Byte)
    (byte : TimeRec → Byte) {s : State} (hs : s.TimeOk) : (mutateTime new reg byte s).TimeOk := by
  unfold mutateTime
  split
  · trivial
  · next x hx =>
    refine (halt_timeOk hs).andThen fun r1 t _ => ?_
    refine (BusOut.into_timeOk (.setTime (hnew x (hs x hx)) t) _).andThen fun r2 u hu => ?_
    exact (unhalt_timeOk hu).andThen fun r3 v hv => hv

theorem toggleBody_timeOk {s : State} (hs : s.TimeOk) : (toggleBody s).TimeOk := by
  refine (halt_timeOk hs).andThen fun r1 t ht => ?_
  refine (refresh_timeOk ht).andThen fun r2 u hu => ?_
  split
  · trivial
  · next x hx =>
    refine (BusOut.into_timeOk (.setTime (TimeRec.toggleMode_ok (hu x hx)) u) _).andThen fun r3 v hv => ?_
    exact (unhalt_timeOk hv).andThen fun r4 w hw => hw

end Sys2Proof.Machine
end

section
/-!
SUPPORT. What a foreground command other than WAIT_TICK can do, said once over the commands of spec/opcode_table.json:
each writes its own unit, the foreground and at most the hang. Its frame follows.
-/

namespace Sys2Proof.Machine

theorem Digits.get_set (d : Digits) (p q : BitVec 2) (v : BitVec 4) :
    (d.set p v).get q = if q = p then v else d.get q := by
  have cases4 : ∀ x : BitVec 2, x = 0 ∨ x = 1 ∨ x = 2 ∨ x = 3 := by decide
  obtain rfl | rfl | rfl | rfl := cases4 p <;> obtain rfl | rfl | rfl | rfl := cases4 q <;> rfl

/-- The digit codes are legal (R27, R67). -/
def Digits.Legal (d : Digits) : Prop := ∀ p, digitCodeOk (d.get p) = true

theorem Digits.Legal.set {d : Digits} (hd : d.Legal) (p : BitVec 2) {v : BitVec 4} (hv : digitCodeOk v = true) :
    (d.set p v).Legal := by
  intro q
  rw [Digits.get_set]
  split
  · exact hv
  · exact hd q

/-- The codes that DISP_SET_DIGIT does not refuse are legal (R126). -/
theorem digitCodeOk_of_admitted {v : BitVec 4} (h : ¬(10 ≤ v.toNat ∧ v ≠ blank)) : digitCodeOk v = true := by
  revert v
  decide

/-- What a foreground command other than WAIT_TICK can do: it completes or hangs, having written its own unit. -/
inductive CommandEffect (s t : State) : Prop
  | display (d : Digits) (on : Bool) (legal : s.sched.digits.Legal → d.Legal)
      (ht : t = ({ s with sched := { s.sched with digits := d, dispOn := on } }).advance)
  | bus (u : BusUnit) (f : Foreground) (hung : Bool) (sound : s.bus.Sound → u.Sound)
      (wire : ∃ l, u.wire = s.bus.wire ++ l) (resp : ∃ l, f.resp = s.fg.resp ++ l)
      (ht : t = { s with bus := u, fg := f, hung := hung })
  | time (v : State) (frame : TimeFrame s v) (timeOk : s.TimeOk → v.TimeOk)
      (ht : (∃ r, t = finishTk r v) ∨ t = v.hang)
  /-- A command of the Key unit, or one that only responds. -/
  | keys (k : KeyUnit) (f : Foreground)
      (buttons : s.par.ok → (∀ i, (s.keys.btn.get i).Ok s.par) → ∀ i, (k.btn.get i).Ok s.par)
      (resp : ∃ l, f.resp = s.fg.resp ++ l) (ht : t = { s with keys := k, fg := f })

theorem BusOut.command_effect {α : Type} {x : BusOut α} {s : State} (hx : x.Keeps s.bus) (f : α → Response) :
    CommandEffect s (x.command f s) := by
  cases x with
  | done a u => exact .bus u _ s.hung hx.1 hx.2 ⟨[f a], rfl⟩ rfl
  | hang u => exact .bus u s.fg true hx.1 hx.2 ⟨[], by simp⟩ rfl

theorem tkCommand_effect {s t : State} {x : Flow BusResult} (hx : x.Frames s) (hok : s.TimeOk → x.TimeOk)
    (h : tkCommand x s = .next t) : CommandEffect s t := by
  unfold tkCommand at h
  split at h
  · cases h
  · rcases Flow.ending_eq_next h with ⟨r, v, rfl, ht⟩ | ⟨v, rfl, ht⟩
    · exact .time v hx hok (.inl ⟨r, ht⟩)
    · exact .time v hx hok (.inr ht)

theorem exec_effect {s t : State} {i : Instr} (ha : i.isAgentEvent = false) (hw : i ≠ .waitTick)
    (h : exec i s = .next t) : CommandEffect s t := by
  have silent : ∃ l, s.advance.fg.resp = s.fg.resp ++ l := ⟨[], by simp⟩
  cases i with
  | tmrFast => cases ha
  | tmrSlow => cases ha
  | isrFast => cases ha
  | isrSlow => cases ha
  | waitTick => exact absurd rfl hw
  | dispSetDigit pos val =>
    simp only [exec, execDispSetDigit] at h
    split at h
    · cases h
    · next hv => cases h; exact .display _ _ (fun hd => hd.set pos (digitCodeOk_of_admitted hv)) rfl
  | dispSetMode on => cases h; exact .display _ on id rfl
  | busBegin b => cases h; exact BusOut.command_effect (engineBegin_keeps ..) _
  | busWrite b =>
    simp only [exec, execBusWrite] at h
    split at h
    · cases h
    · cases h; exact BusOut.command_effect (engineWrite_keeps ..) _
  | busRead last =>
    simp only [exec, execBusRead] at h
    split at h
    · cases h
    · cases h; exact BusOut.command_effect (engineRead_keeps ..) _
  | busEnd =>
    cases h
    exact .bus s.bus.stop s.advance.fg s.hung (BusOut.Keeps.stop () s.bus).1 ⟨[.stop], rfl⟩ silent rfl
  | tkInit => exact tkCommand_effect (tkInitBody_frames s) tkInitBody_timeOk h
  | tkRefresh => exact tkCommand_effect (refresh_frames s) refresh_timeOk h
  | tkAdjMin dir =>
    exact tkCommand_effect (mutateTime_frames ..) (mutateTime_timeOk (fun _ ht => TimeRec.adjustMinute_ok ht dir) _ _) h
  | tkAdjHour dir =>
    exact tkCommand_effect (mutateTime_frames ..) (mutateTime_timeOk (fun _ ht => TimeRec.adjustHour_ok ht dir) _ _) h
  | tkToggleMode => exact tkCommand_effect (toggleBody_frames s) toggleBody_timeOk h
  | tkGetTime =>
    simp only [exec, execTkGetTime] at h
    split at h
    · cases h
    · cases h; exact .keys s.keys _ (fun _ hb => hb) ⟨[_], rfl⟩ rfl
  | keyDecode => cases h; exact .keys _ _ (fun _ hb => by simpa using hb) ⟨[_], rfl⟩ rfl
  | debStep => cases h; exact .keys _ s.advance.fg (fun hp hb => Buttons.step_ok hp hb _) silent rfl
  | debStepK key =>
    simp only [exec, execDebStepK] at h
    split at h
    · cases h
    · cases h; exact .keys _ s.advance.fg (fun hp hb => Buttons.step_ok hp hb _) silent rfl
  | btnGet id =>
    simp only [exec, execBtnGet] at h
    split at h
    · cases h
    · cases h; exact .keys s.keys _ (fun _ hb => hb) ⟨[_], rfl⟩ rfl
  | btnConsume id =>
    simp only [exec, execBtnConsume] at h
    split at h
    · cases h
    · cases h; exact .keys _ s.advance.fg (fun _ hb => Buttons.consumeAction_ok hb _) silent rfl

theorem TimeFrame.par {s t : State} (h : TimeFrame s t) : t.par = s.par := h.outside.1

theorem TimeFrame.sched {s t : State} (h : TimeFrame s t) : t.sched = s.sched := h.outside.2.1

theorem TimeFrame.keys {s t : State} (h : TimeFrame s t) : t.keys = s.keys := h.outside.2.2.1

/-- What every foreground command but WAIT_TICK leaves: the parameters, the Scheduler unit up to the DisplayBuffer, and
the logs, to which it only appends. -/
structure CommandFrame (s t : State) : Prop where
  par : t.par = s.par
  sched : t.sched = { s.sched with digits := t.sched.digits, dispOn := t.sched.dispOn }
  resp : ∃ l, t.fg.resp = s.fg.resp ++ l
  wire : ∃ l, t.bus.wire = s.bus.wire ++ l

theorem CommandEffect.frame {s t : State} (h : CommandEffect s t) : CommandFrame s t := by
  cases h with
  | display d on legal ht => subst ht; exact ⟨rfl, rfl, ⟨[], by simp⟩, [], by simp⟩
  | bus u f hung sound wire resp ht => subst ht; exact ⟨rfl, rfl, resp, wire⟩
  | time v frame timeOk ht =>
    rcases ht with ⟨r, rfl⟩ | rfl
    · exact ⟨frame.par, by simp [frame.sched], ⟨[.tk r], by simp [frame.fg]⟩, frame.wire⟩
    · exact ⟨frame.par, by simp [frame.sched], ⟨[], by simp [frame.fg]⟩, frame.wire⟩
  | keys k f buttons resp ht => subst ht; exact ⟨rfl, rfl, resp, [], by simp⟩

end Sys2Proof.Machine
end

section
/-!
SUPPORT. What one step of an agent can do, said once (spec/00_scope.md R10, spec/20_memory.md R52).
-/

namespace Sys2Proof.Machine

/-- The row that reads WAIT_TICK admits one word (R62). -/
theorem waitTick_row : ∀ r ∈ opcodeRows, ∀ w, r.read w = .waitTick → r.mask = 0xFFFF ∧ r.pattern = 0x1000 := by
  simp [opcodeRows, schedulerRows, busRows, timeKeeperRows, keyRows]

theorem decode_eq_waitTick {w : Word} (h : decode w = .ok .waitTick) : w = 0x1000#16 := by
  unfold decode at h
  split at h
  · cases h
  · next r hr =>
    split at h
    · obtain ⟨hm, hp⟩ := waitTick_row r (List.mem_of_find?_eq_some hr) w (Except.ok.inj h)
      have hsel : w &&& r.mask = r.pattern := by simpa [OpcodeRow.selects] using List.find?_some hr
      rw [hm, hp] at hsel
      exact (BitVec.and_allOnes (x := w)).symm.trans hsel
    · cases h

/-- A WAIT_TICK that goes on enters only with the bus idle (R86, R125). -/
theorem execWaitTick_idle {s t : State} (h : exec .waitTick s = .next t) (hw : s.sched.fgWait = false) :
    s.bus.phase = .idle := by
  simp only [exec, execWaitTick, hw] at h
  by_contra hp
  simp [hp] at h

/-- What a step of the agent `τ` can do. -/
inductive AgentMove (τ : Turn) (s t : State) : Prop
  /-- The agent has no step, or the foreground holds in WAIT_TICK (log 7). -/
  | rests (ht : t = s)
  /-- A command other than WAIT_TICK; `exec_effect` says what it can do. -/
  | runs (i : Instr) (hτ : τ = .foreground) (hung : s.hung = false) (ctx : s.sched.ctx = .fg)
      (word : ∃ w, commandWord s = some w ∧ decode w = .ok i) (agent : i.isAgentEvent = false) (ne : i ≠ .waitTick)
      (ht : exec i s = .next t)
  | entersWait (hτ : τ = .foreground) (hung : s.hung = false) (ctx : s.sched.ctx = .fg)
      (word : commandWord s = some 0x1000#16) (fgWait : s.sched.fgWait = false) (idle : s.bus.phase = .idle)
      (ht : t = enterWait s)
  | completesWait (hτ : τ = .foreground) (ctx : s.sched.ctx = .fg) (ht : t = completeWait s)
  | fastTimer (hτ : τ = .fastTimer) (ht : t = { s with sched := { s.sched with fastPending := true } })
  | slowTimer (hτ : τ = .slowTimer) (ht : t = { s with sched := { s.sched with slowPending := true } })
  | dispatchesFast (prefer : Tick) (hτ : τ = .dispatch prefer) (choice : dispatchChoice prefer s = some .fast)
      (ht : t = fastDispatched s)
  /-- The slow tick, whose refresh is done and has left the bus idle. -/
  | refreshes (prefer : Tick) (v : State) (hτ : τ = .dispatch prefer) (choice : dispatchChoice prefer s = some .slow)
      (frame : TimeFrame (enterHandler .slow s) v) (timeOk : s.TimeOk → v.TimeOk) (idle : v.bus.phase = .idle)
      (ht : t = leaveHandler v)
  /-- The slow tick, whose refresh hangs in the handler (R183). -/
  | hangsInRefresh (prefer : Tick) (v : State) (hτ : τ = .dispatch prefer)
      (choice : dispatchChoice prefer s = some .slow) (frame : TimeFrame (enterHandler .slow s) v)
      (timeOk : s.TimeOk → v.TimeOk) (ht : t = v.hang)

theorem foregroundStep_move {s t : State} (h : foregroundStep s = .next t) : AgentMove .foreground s t := by
  rcases foregroundStep_cases h with ⟨rfl, -⟩ | ⟨w, i, hung, ctx, word, dec, agent, he⟩
  · exact .rests rfl
  · by_cases hi : i = .waitTick
    · subst hi
      rcases execWaitTick_cases he with ⟨hw, rfl⟩ | ⟨-, -, -, rfl⟩ | ⟨-, -, rfl⟩
      · exact .entersWait rfl hung ctx (decode_eq_waitTick dec ▸ word) hw (execWaitTick_idle he hw) rfl
      · exact .completesWait rfl ctx rfl
      · exact .rests rfl
    · exact .runs i rfl hung ctx ⟨w, word, dec⟩ agent hi he

theorem dispatchStep_slow_move {prefer : Tick} {s t : State} (hc : dispatchChoice prefer s = some .slow)
    (h : dispatchStep prefer s = .next t) : AgentMove (.dispatch prefer) s t := by
  obtain ⟨hung, -⟩ := dispatchChoice_eq_some hc
  have frame := refresh_frames (enterHandler .slow s)
  have timeOk : s.TimeOk → (refresh (enterHandler .slow s)).TimeOk := fun hs => refresh_timeOk hs
  simp only [dispatchStep, hc, handlerOf, exec, execIsrSlow] at h
  cases hr : refresh (enterHandler .slow s) with
  | fault e => rw [hr] at h; cases h
  | hang v =>
    rw [hr] at h frame timeOk
    cases h
    exact .hangsInRefresh prefer v rfl hc frame timeOk rfl
  | done r v =>
    rw [hr] at h frame timeOk
    have hv : v.hung = false := frame.hung.trans hung
    simp only [Flow.ending, afterHandler, hv] at h
    cases h
    exact .refreshes prefer v rfl hc frame timeOk (refresh_done hr).1 rfl

theorem dispatchStep_move {prefer : Tick} {s t : State} (h : dispatchStep prefer s = .next t) :
    AgentMove (.dispatch prefer) s t := by
  rcases dispatchStep_cases h with ⟨-, rfl⟩ | ⟨hc, rfl⟩ | ⟨hc, -⟩
  · exact .rests rfl
  · exact .dispatchesFast prefer rfl hc rfl
  · exact dispatchStep_slow_move hc h

/-- Every step is one of these, from the state with the turn taken. -/
theorem step_move {s t : State} (h : step s = .next t) : AgentMove s.turn s.consumeTurn t := by
  unfold step at h
  cases hτ : s.turn with
  | foreground => rw [hτ] at h; exact foregroundStep_move h
  | fastTimer => rw [hτ] at h; cases h; exact .fastTimer rfl rfl
  | slowTimer => rw [hτ] at h; cases h; exact .slowTimer rfl rfl
  | dispatch prefer => rw [hτ] at h; exact dispatchStep_move h

@[simp] theorem commandWord_consumeTurn (s : State) : commandWord s.consumeTurn = commandWord s := by
  simp [commandWord]

end Sys2Proof.Machine
end

section
/-!
SUPPORT. The two halves of the invariant, each kept by every step: what the units hold, and what the control registers
of the Scheduler unit say of the foreground and the handlers.
-/

namespace Sys2Proof.Machine

/-- What the units hold between steps and inside a handler alike. -/
structure State.UnitsOk (s : State) : Prop where
  par : s.par.ok
  digits : s.sched.digits.Legal
  outVal : digitCodeOk s.sched.outVal = true
  fade : s.sched.fade.toNat < fadeLevels
  bus : s.bus.Sound
  time : s.TimeOk
  buttons : ∀ i, (s.keys.btn.get i).Ok s.par

/-- What the control registers say between steps (R24, R86, R129, R147, R183). -/
structure State.ControlOk (s : State) : Prop where
  ie : s.sched.ie = (s.sched.fgWait && s.sched.ctx == .fg)
  handler : s.sched.ctx ≠ .fg → s.sched.ctx = .isrSlow ∧ s.hung = true ∧ s.sched.fgWait = true
  loopReady : s.sched.fgWait = false → s.sched.loopReady = false
  waiting : s.sched.fgWait = true →
    commandWord s = some 0x1000#16 ∧ (s.sched.ctx = .fg → s.hung = false ∧ s.bus.phase = .idle)

theorem State.inv_iff {s : State} : s.Inv ↔ s.UnitsOk ∧ s.ControlOk := by
  constructor
  · intro h
    exact ⟨⟨h.par, h.digits, h.outVal, h.fade, ⟨h.stopped, h.lastByte⟩, h.time, h.buttons⟩,
      h.ie, h.handler, h.loopReady, h.waiting⟩
  · rintro ⟨u, c⟩
    exact ⟨u.par, u.digits, u.outVal, u.fade, c.ie, c.handler, c.loopReady, c.waiting, u.bus.1, u.bus.2, u.time,
      u.buttons⟩

/-! ### The units -/

theorem State.UnitsOk.consumeTurn {s : State} (h : s.UnitsOk) : s.consumeTurn.UnitsOk := by
  constructor <;> simp only [State.TimeOk, State.consumeTurn_par, State.consumeTurn_sched, State.consumeTurn_bus,
    State.consumeTurn_tk, State.consumeTurn_keys]
  exacts [h.par, h.digits, h.outVal, h.fade, h.bus, h.time, h.buttons]

theorem State.UnitsOk.enterHandler {s : State} (h : s.UnitsOk) (x : Tick) : (enterHandler x s).UnitsOk := by
  cases x <;> exact { h with }

/-- An operation of the TimeKeeper unit keeps the units. -/
theorem TimeFrame.unitsOk {s t : State} (h : TimeFrame s t) (hs : s.UnitsOk) (ht : t.TimeOk) : t.UnitsOk :=
  ⟨h.par ▸ hs.par, h.sched ▸ hs.digits, h.sched ▸ hs.outVal, h.sched ▸ hs.fade, h.sound hs.bus, ht,
    h.par ▸ h.keys ▸ hs.buttons⟩

theorem CommandEffect.unitsOk {s t : State} (h : CommandEffect s t) (hs : s.UnitsOk) : t.UnitsOk := by
  cases h with
  | display d on legal ht => subst ht; exact { hs with digits := legal hs.digits }
  | bus u f hung sound wire resp ht => subst ht; exact { hs with bus := sound hs.bus }
  | time v frame timeOk ht =>
    have hv := frame.unitsOk hs (timeOk hs.time)
    rcases ht with ⟨r, rfl⟩ | rfl <;> exact { hv with }
  | keys k f buttons resp ht => subst ht; exact { hs with buttons := buttons hs.par hs.buttons }

theorem nextFade_lt (f : BitVec 3) : (nextFade f).toNat < fadeLevels := by
  revert f
  decide

/-- The fast handler drives a digit, or BLANK (R123). -/
theorem Scheduler.fastBody_outVal {c : Scheduler} (h : c.digits.Legal) : digitCodeOk c.fastBody.outVal = true := by
  simp only [Scheduler.fastBody]
  split
  · exact h _
  · decide

theorem AgentMove.unitsOk {τ : Turn} {s t : State} (h : AgentMove τ s t) (hs : s.UnitsOk) : t.UnitsOk := by
  cases h with
  | rests ht => exact ht ▸ hs
  | runs i _ _ _ _ agent ne ht => exact (exec_effect agent ne ht).unitsOk hs
  | entersWait _ _ _ _ _ _ ht => subst ht; exact { hs with }
  | completesWait _ _ ht => subst ht; exact { hs with }
  | fastTimer _ ht => subst ht; exact { hs with }
  | slowTimer _ ht => subst ht; exact { hs with }
  | dispatchesFast _ _ _ ht =>
    subst ht
    exact { hs with outVal := Scheduler.fastBody_outVal hs.digits, fade := nextFade_lt _ }
  | refreshes _ v _ _ frame timeOk _ ht =>
    have hv := frame.unitsOk (hs.enterHandler .slow) (timeOk hs.time)
    subst ht
    exact { hv with }
  | hangsInRefresh _ v _ _ frame timeOk ht =>
    have hv := frame.unitsOk (hs.enterHandler .slow) (timeOk hs.time)
    subst ht
    exact { hv with }

/-! ### The control registers -/

theorem State.ControlOk.consumeTurn {s : State} (h : s.ControlOk) : s.consumeTurn.ControlOk := by
  constructor <;> simp only [commandWord_consumeTurn, State.consumeTurn_sched, State.consumeTurn_bus,
    State.consumeTurn_hung]
  exacts [h.ie, h.handler, h.loopReady, h.waiting]

/-- While the foreground is inside WAIT_TICK its command is WAIT_TICK (R24), so another command runs outside it. -/
theorem State.ControlOk.not_waiting {s : State} {i : Instr} (h : s.ControlOk)
    (word : ∃ w, commandWord s = some w ∧ decode w = .ok i) (ne : i ≠ .waitTick) : s.sched.fgWait = false := by
  by_contra hw
  obtain ⟨w, hword, hdec⟩ := word
  obtain rfl : 0x1000#16 = w := by simpa [hword, eq_comm] using (h.waiting (by simpa using hw)).1
  exact ne (Except.ok.inj (hdec.symm.trans (by decide)))

/-- A command outside WAIT_TICK leaves the control registers. -/
theorem CommandFrame.controlOk {s t : State} (h : CommandFrame s t) (hs : s.ControlOk) (ctx : s.sched.ctx = .fg)
    (out : s.sched.fgWait = false) : t.ControlOk := by
  have hctx : t.sched.ctx = .fg := by rw [h.sched]; exact ctx
  have hout : t.sched.fgWait = false := by rw [h.sched]; exact out
  have hready : t.sched.loopReady = false := by rw [h.sched]; exact hs.loopReady out
  have hie : t.sched.ie = false := by rw [h.sched]; exact hs.ie.trans (by simp [out])
  exact ⟨by simp [hie, hout], fun hc => absurd hctx hc, fun _ => hready, fun hw => by simp [hout] at hw⟩

/-- A tick is dispatched only while the foreground waits (R24, R148). -/
theorem State.ControlOk.dispatch_waiting {prefer x : Tick} {s : State} (h : s.ControlOk)
    (hc : dispatchChoice prefer s = some x) : s.sched.ctx = .fg ∧ s.sched.fgWait = true := by
  obtain ⟨-, hie, hctx, -⟩ := dispatchChoice_eq_some hc
  have := h.ie.symm.trans hie
  exact ⟨hctx, by simpa [hctx] using this⟩

/-- A state in which the foreground waits in WAIT_TICK and owns the thread. -/
theorem State.ControlOk.ofWaiting {s : State} (ie : s.sched.ie = true) (ctx : s.sched.ctx = .fg)
    (waits : s.sched.fgWait = true) (word : commandWord s = some 0x1000#16) (hung : s.hung = false)
    (idle : s.bus.phase = .idle) : s.ControlOk :=
  ⟨by simp [ie, ctx, waits], fun hc => absurd ctx hc, fun hw => by simp [waits] at hw,
    fun _ => ⟨word, fun _ => ⟨hung, idle⟩⟩⟩

theorem commandWord_congr {s t : State} (h : t.fg = s.fg) : commandWord t = commandWord s := by
  rw [commandWord, commandWord, h]

theorem AgentMove.controlOk {τ : Turn} {s t : State} (h : AgentMove τ s t) (hs : s.ControlOk) : t.ControlOk := by
  cases h with
  | rests ht => exact ht ▸ hs
  | runs i _ _ ctx word agent ne ht => exact (exec_effect agent ne ht).frame.controlOk hs ctx (hs.not_waiting word ne)
  | entersWait _ hung ctx word fgWait idle ht =>
    subst ht
    exact .ofWaiting rfl ctx rfl word hung idle
  | completesWait _ ctx ht => subst ht; exact ⟨rfl, fun hc => absurd ctx hc, fun _ => rfl, nofun⟩
  | fastTimer _ ht => subst ht; exact { hs with }
  | slowTimer _ ht => subst ht; exact { hs with }
  | dispatchesFast _ _ choice ht =>
    subst ht
    obtain ⟨ctx, waits⟩ := hs.dispatch_waiting choice
    obtain ⟨word, held⟩ := hs.waiting waits
    exact .ofWaiting rfl rfl waits word (held ctx).1 (held ctx).2
  | refreshes _ v _ choice frame _ idle ht =>
    subst ht
    obtain ⟨ctx, waits⟩ := hs.dispatch_waiting choice
    obtain ⟨word, held⟩ := hs.waiting waits
    have hung : v.hung = false := frame.hung.trans (held ctx).1
    exact .ofWaiting rfl rfl (by simp [frame.sched, waits]) ((commandWord_congr frame.fg).trans word) hung idle
  | hangsInRefresh _ v _ choice frame _ ht =>
    subst ht
    obtain ⟨-, waits⟩ := hs.dispatch_waiting choice
    obtain ⟨word, -⟩ := hs.waiting waits
    have hctx : v.sched.ctx = .isrSlow := by rw [frame.sched]; rfl
    have hwaits : v.sched.fgWait = true := by simp [frame.sched, waits]
    exact ⟨by simp [frame.sched, enterHandler], fun _ => ⟨hctx, rfl, hwaits⟩, fun hw => by simp [hwaits] at hw,
      fun _ => ⟨(commandWord_congr frame.fg).trans word, fun hc => by simp [hctx] at hc⟩⟩

end Sys2Proof.Machine
end

section
open Sys2Proof Sys2Proof.Machine

/-- Settles O15: the units' half and the control half of the invariant are each kept by every move of an agent. -/
theorem stepKeepsTheInvariant : Obligations.StepKeepsTheInvariant := by
  intro s t hs h
  obtain ⟨units, control⟩ := State.inv_iff.mp hs
  exact State.inv_iff.mpr ⟨(step_move h).unitsOk units.consumeTurn, (step_move h).controlOk control.consumeTurn⟩

end

section
/-!
SUPPORT. What every move of an agent leaves of the foreground, the logs and the display output (spec/10_state.md R22,
R23, R28).
-/

namespace Sys2Proof.Machine

theorem AgentMove.par_eq {τ : Turn} {s t : State} (h : AgentMove τ s t) : t.par = s.par := by
  cases h with
  | rests ht => rw [ht]
  | runs i _ _ _ _ agent ne ht => exact (exec_effect agent ne ht).frame.par
  | entersWait _ _ _ _ _ _ ht => rw [ht, enterWait_par]
  | completesWait _ _ ht => rw [ht, completeWait_par]
  | fastTimer _ ht => rw [ht]
  | slowTimer _ ht => rw [ht]
  | dispatchesFast _ _ _ ht => rw [ht]; rfl
  | refreshes _ v _ _ frame _ _ ht => rw [ht]; exact frame.par
  | hangsInRefresh _ v _ _ frame _ ht => rw [ht]; exact frame.par

/-- The foreground is left, or on its own turn runs a command: the program is kept, `pc` is kept or moves by one, and
the response log only grows. -/
theorem AgentMove.foreground {τ : Turn} {s t : State} (h : AgentMove τ s t) :
    t.fg = s.fg ∨ (τ = .foreground ∧ t.fg.prog = s.fg.prog ∧ (t.fg.pc = s.fg.pc ∨ t.fg.pc = s.fg.pc + 1) ∧
      ∃ l, t.fg.resp = s.fg.resp ++ l) := by
  cases h with
  | rests ht => exact .inl (by rw [ht])
  | runs i hτ _ _ _ agent ne ht =>
    obtain ⟨prog, -, moves⟩ := exec_moves agent ne ht
    rcases moves with ⟨pc, -⟩ | ⟨fg, -⟩
    · exact .inr ⟨hτ, prog, .inr pc, (exec_effect agent ne ht).frame.resp⟩
    · exact .inl fg
  | entersWait _ _ _ _ _ _ ht => exact .inl (by rw [ht, enterWait_fg])
  | completesWait hτ _ ht => subst ht; exact .inr ⟨hτ, rfl, .inr rfl, [], by simp⟩
  | fastTimer _ ht => exact .inl (by rw [ht])
  | slowTimer _ ht => exact .inl (by rw [ht])
  | dispatchesFast _ _ _ ht => exact .inl (by rw [ht]; rfl)
  | refreshes _ v _ _ frame _ _ ht => exact .inl (by rw [ht]; exact frame.fg)
  | hangsInRefresh _ v _ _ frame _ ht => exact .inl (by rw [ht]; exact frame.fg)

theorem AgentMove.wire {τ : Turn} {s t : State} (h : AgentMove τ s t) : ∃ l, t.bus.wire = s.bus.wire ++ l := by
  cases h with
  | rests ht => exact ⟨[], by simp [ht]⟩
  | runs i _ _ _ _ agent ne ht => exact (exec_effect agent ne ht).frame.wire
  | entersWait _ _ _ _ _ _ ht => exact ⟨[], by simp [ht]⟩
  | completesWait _ _ ht => exact ⟨[], by simp [ht]⟩
  | fastTimer _ ht => exact ⟨[], by simp [ht]⟩
  | slowTimer _ ht => exact ⟨[], by simp [ht]⟩
  | dispatchesFast _ _ _ ht => exact ⟨[], by simp [ht, fastDispatched]⟩
  | refreshes _ v _ _ frame _ _ ht => rw [ht]; exact frame.wire
  | hangsInRefresh _ v _ _ frame _ ht => rw [ht]; exact frame.wire

/-- The display output and its log are as they were, or the fast tick has been dispatched (R28). -/
theorem AgentMove.display {τ : Turn} {s t : State} (h : AgentMove τ s t) :
    (t.sched.outPos = s.sched.outPos ∧ t.sched.outVal = s.sched.outVal ∧ t.sched.dispLog = s.sched.dispLog) ∨
    ∃ prefer, τ = .dispatch prefer ∧ dispatchChoice prefer s = some .fast ∧ t = fastDispatched s := by
  cases h with
  | rests ht => exact .inl (ht ▸ ⟨rfl, rfl, rfl⟩)
  | runs i _ _ _ _ agent ne ht =>
    rw [(exec_effect agent ne ht).frame.sched]
    exact .inl ⟨rfl, rfl, rfl⟩
  | entersWait _ _ _ _ _ _ ht => exact .inl (ht ▸ ⟨rfl, rfl, rfl⟩)
  | completesWait _ _ ht => exact .inl (ht ▸ ⟨rfl, rfl, rfl⟩)
  | fastTimer _ ht => exact .inl (ht ▸ ⟨rfl, rfl, rfl⟩)
  | slowTimer _ ht => exact .inl (ht ▸ ⟨rfl, rfl, rfl⟩)
  | dispatchesFast prefer hτ choice ht => exact .inr ⟨prefer, hτ, choice, ht⟩
  | refreshes _ v _ _ frame _ _ ht =>
    subst ht
    simp only [leaveHandler, frame.sched]
    exact .inl ⟨rfl, rfl, rfl⟩
  | hangsInRefresh _ v _ _ frame _ ht =>
    rw [ht, State.hang_sched, frame.sched]
    exact .inl ⟨rfl, rfl, rfl⟩

/-- The fast handler logs the output that it drives (R28, R123). -/
theorem fastDispatched_dispLog (s : State) : (fastDispatched s).sched.dispLog = s.sched.dispLog ++
    [⟨(fastDispatched s).sched.outPos, (fastDispatched s).sched.outVal, (fastDispatched s).sched.dispOn⟩] := rfl

theorem AgentMove.dispLog {τ : Turn} {s t : State} (h : AgentMove τ s t) :
    ∃ l, t.sched.dispLog = s.sched.dispLog ++ l := by
  rcases h.display with ⟨-, -, hlog⟩ | ⟨_, -, -, rfl⟩
  · exact ⟨[], by simp [hlog]⟩
  · exact ⟨_, fastDispatched_dispLog s⟩

end Sys2Proof.Machine
end

section
open Sys2Proof Sys2Proof.Machine

/-- Settles O55: a move of an agent leaves the foreground, or is a command, which completes with `pc` advanced. -/
theorem pcMovesByOne : Obligations.PcMovesByOne := by
  intro s t h
  have move := step_move h
  have par : t.par = s.par := by simpa using move.par_eq
  rcases move.foreground with fg | ⟨hτ, prog, pc, -⟩
  · have kept : t.fg = s.fg := by simpa using fg
    exact ⟨par, by rw [kept], .inl (by rw [kept])⟩
  · rw [State.consumeTurn_fg] at prog pc
    exact ⟨par, prog, pc.imp_right fun hpc => ⟨hτ, hpc⟩⟩

/-- Settles O56, from what every move of an agent appends to each of the three logs. -/
theorem logsOnlyGrow : Obligations.LogsOnlyGrow := by
  intro s t h
  have move := step_move h
  have dispLog := move.dispLog
  have wire := move.wire
  rw [State.consumeTurn_sched] at dispLog
  rw [State.consumeTurn_bus] at wire
  refine ⟨?_, dispLog, wire⟩
  rcases move.foreground with fg | ⟨-, -, -, resp⟩
  · exact ⟨[], by simp [fg]⟩
  · rwa [State.consumeTurn_fg] at resp

/-- Settles O58: the one move that touches the output or its log is the dispatch of the fast tick, which R147 enables
only in the foreground with interrupts on. -/
theorem onlyTheFastHandlerDrivesTheDisplay : Obligations.OnlyTheFastHandlerDrivesTheDisplay := by
  intro s t h changed
  rcases (step_move h).display with ⟨pos, val, log⟩ | ⟨prefer, hτ, choice, rfl⟩
  · simp [pos, val, log] at changed
  · obtain ⟨-, hie, hctx, pick⟩ := dispatchChoice_eq_some choice
    rw [State.consumeTurn_par] at pick
    rw [State.consumeTurn_sched] at hie hctx pick
    refine ⟨⟨prefer, hτ, pick⟩, hie, hctx, pickTick_pending pick, rfl, ?_, ?_⟩
    · show s.consumeTurn.sched.slowPending = s.sched.slowPending
      rw [State.consumeTurn_sched]
    · simpa using fastDispatched_dispLog s.consumeTurn

/-- Settles O6: with the thread the foreground's own, its step runs the word at `pc`. -/
theorem stepRunsTheCommand : Obligations.StepRunsTheCommand := by
  intro s w i hτ hung ctx word dec agent
  have enabled : foregroundEnabled s.consumeTurn = true := by simp [foregroundEnabled, hung, ctx]
  have runs : runWord w s.consumeTurn = exec i s.consumeTurn := by simp [runWord, dec, agent]
  simp [step, hτ, agentStep, foregroundStep, enabled, word, runs]

/-- Settles O13, register by register from the definition of the state after reset. -/
theorem resetRegisters : Obligations.ResetRegisters := by
  refine ⟨rfl, rfl, rfl, rfl, rfl, rfl, rfl, rfl, fun i => ?_⟩
  cases i <;> rfl

end

section
/-!
SUPPORT. A transaction as a list of actions (spec/20_memory.md R46 to R48): an operation performs a list of actions when
it does them all, or ends with the error of the first that fails; run one after the other, two operations perform the
two lists.
-/

namespace Sys2Proof.Machine

/-- The first `k` actions of `l` succeed, with the answers from the `n`-th on in order. -/
def succeedFrom (p : Params) (u : BusUnit) (n : Nat) (l : List WireEvent) (k : Nat) : Prop :=
  ∀ j < k, ∀ ev, l[j]? = some ev → ev.succeeds p (u.comingAnswer (n + j))

theorem firstSucceed_iff {p : Params} {u : BusUnit} {l : List WireEvent} {k : Nat} :
    firstSucceed p u l k ↔ succeedFrom p u 0 l k := by
  simp [firstSucceed, succeedFrom]

theorem succeedFrom.left {p : Params} {u : BusUnit} {n k : Nat} {l m : List WireEvent}
    (h : succeedFrom p u n (l ++ m) k) : succeedFrom p u n l k := by
  intro j hj ev hev
  obtain ⟨hl, -⟩ := List.getElem?_eq_some_iff.mp hev
  exact h j hj ev (by rwa [List.getElem?_append_left hl])

theorem succeedFrom.right {p : Params} {u : BusUnit} {n k : Nat} {l m : List WireEvent}
    (h : succeedFrom p u n (l ++ m) (l.length + k)) : succeedFrom p u (n + l.length) m k := by
  intro j hj ev hev
  rw [Nat.add_assoc]
  exact h (l.length + j) (by omega) ev (by rwa [List.getElem?_append_right (by omega), Nat.add_sub_cancel_left])

theorem succeedFrom.mono {p : Params} {u : BusUnit} {n k m : Nat} {l : List WireEvent} (h : succeedFrom p u n l k)
    (hm : m ≤ k) : succeedFrom p u n l m :=
  fun j hj => h j (by omega)

/-- An action that fails leaves an error (R140). -/
theorem WireEvent.failsWith.ne_ok {p : Params} {ev : WireEvent} {a : BusAnswer} {e : BusResult}
    (h : ev.failsWith p a e) (action : ev.isAction = true) : e ≠ .ok := by
  rcases h with ⟨-, rfl⟩ | ⟨-, -, rfl⟩
  · decide
  · cases ev with
    | stop => cases action
    | start | repeatedStart | address b | write b | read last => simp [WireEvent.statusError]

/-- Started in phase `ph` with `bus_result` at `r`, the operation performs the actions `l`: if all succeed it is done in
phase `ph'`; if action `k` is the first that fails, it stops the bus there and its error is the result. -/
structure Performs (p : Params) (l : List WireEvent) (r : BusResult) (ph ph' : BusPhase)
    (op : BusUnit → BusOut BusResult) : Prop where
  succeeds : ∀ u n d w, succeedFrom p u n l l.length →
    op (u.taken n ph r d w) = .done .ok (u.taken (n + l.length) ph' .ok d (w ++ l))
  fails : ∀ u n d w k ev e, l[k]? = some ev → succeedFrom p u n l k → ev.failsWith p (u.comingAnswer (n + k)) e →
    e ≠ .ok → op (u.taken n ph r d w) = .done e (u.taken (n + k + 1) .idle e d (w ++ l.take (k + 1) ++ [.stop]))

/-- Run the second operation if the first returned Ok (R48). -/
def seqIfOk (x y : BusUnit → BusOut BusResult) (u : BusUnit) : BusOut BusResult :=
  (x u).andThen fun r v => if r = .ok then y v else .done r v

/-- What follows a sequence follows its second operation, or the error of its first. -/
theorem seqIfOk_andThen {α : Type} (x y : BusUnit → BusOut BusResult) (u : BusUnit)
    (f : BusResult → BusUnit → BusOut α) :
    (seqIfOk x y u).andThen f = (x u).andThen fun r v => if r = .ok then (y v).andThen f else f r v := by
  unfold seqIfOk
  cases x u with
  | hang v => rfl
  | done r v => simp only [BusOut.andThen_done]; split <;> rfl

theorem Performs.seq {p : Params} {l m : List WireEvent} {r : BusResult} {ph ph' ph'' : BusPhase}
    {x y : BusUnit → BusOut BusResult} (hx : Performs p l r ph ph' x) (hy : Performs p m .ok ph' ph'' y) :
    Performs p (l ++ m) r ph ph'' (seqIfOk x y) where
  succeeds u n d w hs := by
    rw [List.length_append] at hs
    simp only [seqIfOk]
    rw [hx.succeeds u n d w (hs.left.mono (by omega))]
    simp only [BusOut.andThen_done, if_true]
    rw [hy.succeeds u _ d _ hs.right]
    simp [Nat.add_assoc]
  fails u n d w k ev e hev hs hf he := by
    simp only [seqIfOk]
    rcases Nat.lt_or_ge k l.length with hk | hk
    · rw [List.getElem?_append_left hk] at hev
      rw [hx.fails u n d w k ev e hev hs.left hf he, List.take_append_of_le_length hk]
      simp [he]
    · obtain ⟨k, rfl⟩ := Nat.exists_eq_add_of_le hk
      rw [List.getElem?_append_right hk, Nat.add_sub_cancel_left] at hev
      rw [hx.succeeds u n d w (hs.left.mono hk)]
      simp only [BusOut.andThen_done, if_true]
      rw [hy.fails u _ d _ k ev e hev hs.right (by rwa [Nat.add_assoc]) he]
      rw [Nat.add_assoc l.length, List.take_length_add_append]
      simp [Nat.add_assoc]

/-! ### The engine's operations -/

theorem engineBegin_performs (p : Params) (b : Byte) (r : BusResult) (ph : BusPhase) :
    Performs p [startEvent ph, .address b] r ph (addressPhase b) (engineBegin p b) where
  succeeds u n d w hs := engineBegin_succeeds (hs 0 (by simp) _ rfl) (hs 1 (by simp) _ rfl)
  fails u n d w k ev e hev hs hf _ := by
    match k with
    | 0 => cases hev; simpa using engineBegin_startFails hf
    | 1 => cases hev; simpa using engineBegin_addressFails (hs 0 (by simp) _ rfl) hf
    | k + 2 => cases hev

theorem engineWrite_performs (p : Params) (b : Byte) (r : BusResult) (ph : BusPhase) :
    Performs p [.write b] r ph ph (engineWrite p b) where
  succeeds u n d w hs := engineWrite_succeeds (hs 0 (by simp) _ rfl)
  fails u n d w k ev e hev _ hf _ := by
    match k with
    | 0 => cases hev; simpa using engineWrite_fails hf
    | k + 1 => cases hev

theorem writeBytes_performs (p : Params) (v : List Byte) (ph : BusPhase) :
    Performs p (v.map .write) .ok ph ph (writeBytes p v) where
  succeeds u n d w hs := by
    rw [writeBytes_succeeds fun j c hc => ?_, List.length_map]
    obtain ⟨hj, -⟩ := List.getElem?_eq_some_iff.mp hc
    exact hs j (by simpa using hj) _ (by simp [hc])
  fails u n d w k ev e hev hs hf he := by
    obtain ⟨b, hb, rfl⟩ : ∃ b, v[k]? = some b ∧ WireEvent.write b = ev := by simpa using hev
    exact writeBytes_fails hb (fun j hj c hc => hs j hj _ (by simp [hc])) hf he

/-- The actions of the data bytes of a MemRead of `n + 1` bytes (R46). -/
def dataReads (n : Nat) : List WireEvent := List.replicate n (.read false) ++ [.read true]

theorem dataReads_succ (n : Nat) : dataReads (n + 1) = [.read false] ++ dataReads n := rfl

/-- The data bytes of a MemRead whose actions all succeed (R46). -/
theorem readBytes_succeeds {p : Params} {u : BusUnit} {m n : Nat} {r : BusResult} {d : Option Byte}
    {w : List WireEvent} (hs : succeedFrom p u n (dataReads m) (m + 1)) :
    readBytes p (m + 1) (u.taken n .rx r d w) = .done (.ok, u.bytes n (m + 1))
      (u.taken (n + m + 1) .done .ok (some (u.comingAnswer (n + m)).byte) (w ++ dataReads m)) := by
  induction m generalizing n r d w with
  | zero =>
    unfold readBytes
    rw [engineRead_succeeds (n := n) (last := (0 == 0)) (hs 0 (by simp) _ rfl)]
    simp [readBytes, BusUnit.bytes, dataReads]
  | succ m ih =>
    rw [dataReads_succ] at hs ⊢
    have rest : succeedFrom p u (n + 1) (dataReads m) (m + 1) :=
      succeedFrom.right (l := [.read false]) (by rwa [Nat.add_comm] at hs)
    unfold readBytes
    rw [engineRead_succeeds (n := n) (last := (m + 1 == 0)) (hs 0 (by simp) _ rfl)]
    simp only [BusOut.andThen_done]
    rw [show (if (m + 1 == 0) = true then BusPhase.done else .rx) = .rx from rfl, ih rest, u.bytes_succ n (m + 1)]
    simp [Nat.add_assoc, Nat.add_comm 1]

/-! ### The transactions -/

theorem addressPhase_write (a : BitVec 7) : addressPhase (addrByte a false) = .tx := by revert a; decide

theorem addressPhase_read (a : BitVec 7) : addressPhase (addrByte a true) = .rx := by revert a; decide

/-- The opening of a transaction: the chip addressed for writing, and its register pointer set (R46, R47). -/
def openChip (p : Params) (reg : Byte) : BusUnit → BusOut BusResult :=
  seqIfOk (engineBegin p (addrByte p.rtcAddr false)) (engineWrite p reg)

theorem openChip_performs (p : Params) (reg : Byte) (r : BusResult) :
    Performs p [.start, .address (addrByte p.rtcAddr false), .write reg] r .idle .tx (openChip p reg) :=
  (addressPhase_write p.rtcAddr ▸ engineBegin_performs p _ r .idle).seq (engineWrite_performs p reg .ok .tx)

/-- A MemWrite is one run of operations, closed by a stop (R47). -/
theorem memWrite_eq (p : Params) (reg : Byte) (v : List Byte) (u : BusUnit) :
    memWrite p reg v u =
      (seqIfOk (openChip p reg) (writeBytes p v) u).andThen fun r u => .done r u.stop := by
  simp +contextual [memWrite, openChip, seqIfOk_andThen, ite_not]

/-- The part of a MemRead before its data bytes (R46). -/
def openChipForRead (p : Params) (reg : Byte) : BusUnit → BusOut BusResult :=
  seqIfOk (openChip p reg) (engineBegin p (addrByte p.rtcAddr true))

/-- The actions of that part. -/
def openReadActions (p : Params) (reg : Byte) : List WireEvent :=
  [.start, .address (addrByte p.rtcAddr false), .write reg, .repeatedStart, .address (addrByte p.rtcAddr true)]

theorem readActions_eq (p : Params) (reg : Byte) (n : Nat) :
    readActions p reg n = openReadActions p reg ++ dataReads n :=
  List.append_assoc ..

theorem openChipForRead_performs (p : Params) (reg : Byte) (r : BusResult) :
    Performs p (openReadActions p reg) r .idle .rx (openChipForRead p reg) :=
  (openChip_performs p reg r).seq (addressPhase_read p.rtcAddr ▸ engineBegin_performs p _ .ok .tx)

/-- A MemRead is its opening, then, if that went well, its data bytes, closed by a stop (R46). -/
theorem memRead_eq (p : Params) (reg : Byte) (n : Nat) (u : BusUnit) :
    memRead p reg n u = (openChipForRead p reg u).andThen fun r u =>
      if r = .ok then (readBytes p n u).andThen fun rb u => .done rb u.stop else .done (r, []) u.stop := by
  simp +contextual [memRead, openChipForRead, openChip, seqIfOk_andThen, ite_not]

theorem stop_taken (n : Nat) (u : BusUnit) (ph : BusPhase) (r : BusResult) (d : Option Byte) (w : List WireEvent) :
    (u.taken n ph r d w).stop = u.taken n .idle r d (w ++ [.stop]) := rfl

/-- The run of operations of a MemWrite, before its closing stop. -/
theorem writeRun_performs (p : Params) (reg : Byte) (v : List Byte) (r : BusResult) :
    Performs p (writeActions p reg v) r .idle .tx (seqIfOk (openChip p reg) (writeBytes p v)) :=
  (openChip_performs p reg r).seq (writeBytes_performs p v .tx)

theorem memWrite_succeeds {p : Params} {reg : Byte} {v : List Byte} {u : BusUnit} {r : BusResult} {d : Option Byte}
    {w : List WireEvent} (hs : firstSucceed p u (writeActions p reg v) (3 + v.length)) :
    memWrite p reg v (u.taken 0 .idle r d w) =
      .done .ok (u.taken (3 + v.length) .idle .ok d (w ++ writeActions p reg v ++ [.stop])) := by
  have len : (writeActions p reg v).length = 3 + v.length := by
    rw [writeActions, List.length_append, List.length_map]; rfl
  rw [memWrite_eq, (writeRun_performs p reg v r).succeeds u 0 d w (by rw [len]; exact firstSucceed_iff.mp hs)]
  simp [stop_taken, len]

theorem memWrite_fails {p : Params} {reg : Byte} {v : List Byte} {u : BusUnit} {r e : BusResult} {d : Option Byte}
    {w : List WireEvent} {k : Nat} {ev : WireEvent} (hev : (writeActions p reg v)[k]? = some ev)
    (hs : firstSucceed p u (writeActions p reg v) k) (hf : ev.failsWith p (u.comingAnswer k) e) :
    memWrite p reg v (u.taken 0 .idle r d w) =
      .done e (u.taken (k + 1) .idle e d (w ++ (writeActions p reg v).take (k + 1) ++ [.stop, .stop])) := by
  have action : ∀ x ∈ writeActions p reg v, x.isAction = true := by simp [writeActions, WireEvent.isAction]
  have he : e ≠ .ok := hf.ne_ok (action ev (List.mem_of_getElem? hev))
  have run := writeRun_performs p reg v r
  rw [memWrite_eq, run.fails u 0 d w k ev e hev (firstSucceed_iff.mp hs) (by simpa using hf) he]
  simp [stop_taken]

theorem memRead_succeeds {p : Params} {reg : Byte} {n : Nat} {u : BusUnit} {r : BusResult} {d : Option Byte}
    {w : List WireEvent} (hs : firstSucceed p u (readActions p reg n) (6 + n)) :
    memRead p reg (n + 1) (u.taken 0 .idle r d w) = .done (.ok, u.bytes 5 (n + 1))
      (u.taken (6 + n) .idle .ok (some (u.comingAnswer (5 + n)).byte) (w ++ readActions p reg n ++ [.stop])) := by
  rw [firstSucceed_iff, readActions_eq, show 6 + n = 5 + (n + 1) by omega] at hs
  rw [memRead_eq, (openChipForRead_performs p reg r).succeeds u 0 d w (hs.left.mono (by simp [openReadActions]))]
  simp only [BusOut.andThen_done, if_true]
  rw [readBytes_succeeds hs.right]
  simp [stop_taken, readActions_eq, openReadActions, show 5 + n + 1 = 6 + n by omega]

theorem memRead_fails {p : Params} {reg : Byte} {n : Nat} {u : BusUnit} {r e : BusResult} {d : Option Byte}
    {w : List WireEvent} {k : Nat} {ev : WireEvent} (hev : (readActions p reg n)[k]? = some ev)
    (hs : firstSucceed p u (readActions p reg n) k) (hf : ev.failsWith p (u.comingAnswer k) e) :
    memRead p reg (n + 1) (u.taken 0 .idle r d w) = .done (e, [])
      (u.taken (k + 1) .idle e (if k ≤ 5 then d else some (u.comingAnswer (k - 1)).byte)
        (w ++ (readActions p reg n).take (k + 1) ++ [.stop, .stop])) := by
  have action : ∀ x ∈ readActions p reg n, x.isAction = true := by
    simp [readActions, WireEvent.isAction, or_imp, forall_and]
  have he : e ≠ .ok := hf.ne_ok (action ev (List.mem_of_getElem? hev))
  have len : (openReadActions p reg).length = 5 := rfl
  have opening := openChipForRead_performs p reg r
  rw [firstSucceed_iff, readActions_eq] at hs
  rw [readActions_eq] at hev ⊢
  rw [memRead_eq]
  rcases Nat.lt_or_ge k 5 with hk | hk
  · rw [List.getElem?_append_left (len ▸ hk)] at hev
    rw [opening.fails u 0 d w k ev e hev hs.left (by simpa using hf) he, List.take_append_of_le_length (len ▸ hk)]
    simp [stop_taken, he, show k ≤ 5 by omega]
  · obtain ⟨k, rfl⟩ := Nat.exists_eq_add_of_le hk
    rw [List.getElem?_append_right hk, len, Nat.add_sub_cancel_left] at hev
    rw [opening.succeeds u 0 d w (hs.left.mono hk)]
    simp only [BusOut.andThen_done, if_true]
    rw [readBytes_fails hev hs.right hf he]
    have upTo : (openReadActions p reg ++ dataReads n).take (5 + k + 1) =
        openReadActions p reg ++ (dataReads n).take (k + 1) := by
      rw [← len, Nat.add_assoc, List.take_length_add_append]
    rw [upTo]
    simp [stop_taken, len, dataReads]

end Sys2Proof.Machine
end

section
open Sys2Proof Sys2Proof.Machine

/-- Settles O29: each transaction performs its list of actions one after the other, and closes with a stop. -/
theorem transactionsEndAtTheFirstError : Obligations.TransactionsEndAtTheFirstError := by
  intro p u reg idle
  have start : u = u.taken 0 .idle u.result u.data u.wire := by rw [← idle, ← u.taken_zero]
  refine ⟨fun v => ⟨fun hs => ?_, fun k ev e hev hs hf => ?_⟩, fun n => ⟨fun hs => ?_, fun k ev e hev hs hf => ?_⟩⟩
  · exact ⟨_, (congrArg _ start).trans (memWrite_succeeds hs), rfl, rfl, rfl, rfl, fun _ => u.taken_comingAnswer ..⟩
  · exact ⟨_, (congrArg _ start).trans (memWrite_fails hev hs hf), rfl, rfl, rfl, rfl, fun _ => u.taken_comingAnswer ..⟩
  · exact ⟨_, (congrArg _ start).trans (memRead_succeeds hs), rfl, rfl, rfl, rfl, fun _ => u.taken_comingAnswer ..⟩
  · exact ⟨_, (congrArg _ start).trans (memRead_fails hev hs hf), rfl, rfl, rfl, rfl, fun _ => u.taken_comingAnswer ..⟩

end

section
/-!
SUPPORT. What a turn that is not the foreground's leaves unchanged (spec/20_memory.md R53, spec/45_scheduler.md R124,
spec/70_reset_and_hazards.md R186).
-/

namespace Sys2Proof.Machine

/-- The Key unit, the foreground and the registers that only the foreground writes are the same. -/
structure KeepsForeground (s t : State) : Prop where
  keys : t.keys = s.keys
  fg : t.fg = s.fg
  tkResult : t.tk.tkResult = s.tk.tkResult
  haltS : t.tk.haltS = s.tk.haltS
  fgWait : t.sched.fgWait = s.sched.fgWait
  digits : t.sched.digits = s.sched.digits
  dispOn : t.sched.dispOn = s.sched.dispOn

/-- The view of R186: nothing but the pending bits and the turns has changed. -/
structure KeepsMasked (s t : State) : Prop where
  tk : t.tk = s.tk
  bus : t.bus = s.bus
  hung : t.hung = s.hung
  sched : t.sched = { s.sched with fastPending := t.sched.fastPending, slowPending := t.sched.slowPending }

@[simp] theorem enterHandler_dispOn (x : Tick) (s : State) : (enterHandler x s).sched.dispOn = s.sched.dispOn := by
  cases x <;> rfl

/-- A dispatch keeps the foreground's registers: the slow handler writes `time` and the Bus unit, the fast one the
display output (R53). -/
theorem dispatchStep_keepsForeground {prefer : Tick} {s t : State} (h : dispatchStep prefer s = .next t) :
    KeepsForeground s t := by
  rcases dispatchStep_cases h with ⟨-, rfl⟩ | ⟨-, rfl⟩ | ⟨-, v, frame, haltS, ht⟩
  · exact ⟨rfl, rfl, rfl, rfl, rfl, rfl, rfl⟩
  · exact ⟨rfl, rfl, rfl, rfl, rfl, rfl, rfl⟩
  · have kept : KeepsForeground s v :=
      ⟨by simp [frame.keys], by simp [frame.fg], by simp [frame.tkResult], haltS, by simp [frame.sched],
        by simp [frame.sched], by simp [frame.sched]⟩
    rcases ht with rfl | rfl <;> exact { kept with }

/-- With interrupts masked no tick is dispatched (R147). -/
theorem dispatchStep_masked (prefer : Tick) {s : State} (h : s.sched.ie = false) : dispatchStep prefer s = .next s := by
  simp [dispatchStep, dispatchChoice, h]

/-- An agent's step, but the foreground's, keeps the foreground's registers, and all it sees while `ie = 0`. -/
theorem agentStep_keepsForeground {τ : Turn} {s t : State} (hτ : τ ≠ .foreground) (h : agentStep τ s = .next t) :
    KeepsForeground s t ∧ (s.sched.ie = false → KeepsMasked s t) := by
  cases τ with
  | foreground => exact absurd rfl hτ
  | fastTimer => cases h; exact ⟨⟨rfl, rfl, rfl, rfl, rfl, rfl, rfl⟩, fun _ => ⟨rfl, rfl, rfl, rfl⟩⟩
  | slowTimer => cases h; exact ⟨⟨rfl, rfl, rfl, rfl, rfl, rfl, rfl⟩, fun _ => ⟨rfl, rfl, rfl, rfl⟩⟩
  | dispatch prefer =>
    refine ⟨dispatchStep_keepsForeground h, fun masked => ?_⟩
    cases (dispatchStep_masked prefer masked).symm.trans h
    exact ⟨rfl, rfl, rfl, rfl⟩

end Sys2Proof.Machine
end

section
open Sys2Proof Sys2Proof.Machine

/-- Settles O57: the timers write only the pending bits, and a dispatch, which needs `ie = 1`, keeps the foreground's
registers. -/
theorem handlersKeepTheForeground : Obligations.HandlersKeepTheForeground := by
  intro s t h hτ
  obtain ⟨kept, masked⟩ := agentStep_keepsForeground hτ h
  refine ⟨by simpa using kept.keys, by simpa using kept.fg, by simpa using kept.tkResult, by simpa using kept.haltS,
    by simpa using kept.fgWait, by simpa using kept.digits, by simpa using kept.dispOn, fun ie => ?_⟩
  obtain ⟨tk, bus, hung, sched⟩ := masked (by simpa using ie)
  exact ⟨by simpa using tk, by simpa using bus, by simpa using hung, by simpa using sched⟩

end

section
/-!
SUPPORT. The opcode map as a partition of the words (spec/30_encoding.md R61, R62, R65): what `decode` gives for a word of
an instruction and for a word that a row selects, and that a row's pattern and operands make up the whole word.
-/

namespace Sys2Proof

/-! ### Decoding -/

/-- Every instruction encodes to its row, also with a reserved operand value. -/
theorem encodesToItsRow (i : Instr) : Laws.EncodesToItsRow.Statement i := by
  cases i with
  | tmrFast => exact Laws.EncodesToItsRow.tmrFast
  | tmrSlow => exact Laws.EncodesToItsRow.tmrSlow
  | isrFast => exact Laws.EncodesToItsRow.isrFast
  | isrSlow => exact Laws.EncodesToItsRow.isrSlow
  | waitTick => exact Laws.EncodesToItsRow.waitTick
  | dispSetDigit pos val => exact Laws.EncodesToItsRow.dispSetDigit pos val
  | dispSetMode on => exact Laws.EncodesToItsRow.dispSetMode on
  | busBegin b => exact Laws.EncodesToItsRow.busBegin b
  | busWrite b => exact Laws.EncodesToItsRow.busWrite b
  | busRead last => exact Laws.EncodesToItsRow.busRead last
  | busEnd => exact Laws.EncodesToItsRow.busEnd
  | tkInit => exact Laws.EncodesToItsRow.tkInit
  | tkRefresh => exact Laws.EncodesToItsRow.tkRefresh
  | tkAdjMin dir => exact Laws.EncodesToItsRow.tkAdjMin dir
  | tkAdjHour dir => exact Laws.EncodesToItsRow.tkAdjHour dir
  | tkToggleMode => exact Laws.EncodesToItsRow.tkToggleMode
  | tkGetTime => exact Laws.EncodesToItsRow.tkGetTime
  | keyDecode => exact Laws.EncodesToItsRow.keyDecode
  | debStep => exact Laws.EncodesToItsRow.debStep
  | debStepK key => exact Laws.EncodesToItsRow.debStepK key
  | btnGet id => exact Laws.EncodesToItsRow.btnGet id
  | btnConsume id => exact Laws.EncodesToItsRow.btnConsume id

/-- The word of an instruction decodes to it, unless it holds a reserved operand value (R64, R65). -/
theorem decode_encode (i : Instr) : decode (encode i) = if i.wellFormed then .ok i else .error .operand := by
  obtain ⟨r, found, -, reads⟩ := encodesToItsRow i
  simp [decode, found, reads]

/-- The word of an instruction with a reserved operand value is refused for it (R64). -/
theorem decode_encode_reserved (i : Instr) (h : i.wellFormed = false) : decode (encode i) = .error .operand := by
  simp [decode_encode, h]

/-- A word of no row is no instruction (R64). -/
theorem decode_eq_encoding {w : Word} (h : ∀ r ∈ opcodeRows, r.selects w = false) : decode w = .error .encoding := by
  have none_found : opcodeRows.find? (fun r => r.selects w) = none := by simpa using h
  simp [decode, none_found]

/-- A word that decodes selects a row, and is read by it as an instruction with no reserved operand value (R65). -/
theorem decode_eq_ok {w : Word} {i : Instr} (h : decode w = .ok i) :
    ∃ r ∈ opcodeRows, r.selects w = true ∧ r.read w = i ∧ i.wellFormed = true := by
  unfold decode at h
  split at h
  · cases h
  · next r found =>
    split at h
    · next wf =>
      cases h
      exact ⟨r, List.mem_of_find?_eq_some found, by simpa using List.find?_some found, rfl, wf⟩
    · cases h

/-! ### Reserved operand values -/

/-- The digit codes 0xA to 0xE are reserved (R64, R67). -/
theorem digitCodeOk_eq_false {v : BitVec 4} (lo : 10 ≤ v.toNat) (hi : v.toNat ≤ 14) : digitCodeOk v = false := by
  have not_blank : v ≠ 0xF#4 := by rintro rfl; simp at hi
  simp only [digitCodeOk, Bool.or_eq_false_iff, decide_eq_false_iff_not, beq_eq_false_iff_ne]
  exact ⟨by omega, not_blank⟩

/-- The key codes 5 to 7 are reserved (R64, R68). -/
theorem keyCodeOk_eq_false {k : BitVec 3} (h : 5 ≤ k.toNat) : keyCodeOk k = false := by
  simp only [keyCodeOk, decide_eq_false_iff_not]
  omega

/-- The button ids 0 and 5 to 7 are reserved (R61, R64). -/
theorem buttonCodeOk_eq_false {i : BitVec 3} (h : i.toNat = 0 ∨ 5 ≤ i.toNat) : buttonCodeOk i = false := by
  simp only [buttonCodeOk, Bool.and_eq_false_iff, decide_eq_false_iff_not]
  omega

/-! ### Selection by match and mask -/

theorem OpcodeRow.selects_iff {r : OpcodeRow} {w : Word} : r.selects w = true ↔ w &&& r.mask = r.pattern := by
  simp [OpcodeRow.selects]

/-- A word is its row's pattern and the bits that the mask leaves open. -/
theorem OpcodeRow.eq_of_selects {r : OpcodeRow} {w : Word} (h : r.selects w = true) :
    w = r.pattern ||| (w &&& ~~~r.mask) := by
  rw [← selects_iff.mp h, ← BitVec.and_or_distrib_left, BitVec.or_not_self, BitVec.and_allOnes]

/-- The patterns of two rows that one word selects agree where both masks look. -/
theorem OpcodeRow.patterns_agree {r r' : OpcodeRow} {w : Word} (h : r.selects w = true) (h' : r'.selects w = true) :
    r.pattern &&& r'.mask = r'.pattern &&& r.mask := by
  rw [← selects_iff.mp h, ← selects_iff.mp h', BitVec.and_assoc, BitVec.and_assoc, BitVec.and_comm r.mask]

/-- Any two rows of the table have patterns that differ where both masks look (R62). -/
theorem opcodeRows_patterns_differ :
    opcodeRows.Pairwise fun r r' => r.pattern &&& r'.mask ≠ r'.pattern &&& r.mask := by
  decide

/-! ### Operand formats -/

/-- An operand of `n` bits, put back where it was read, is the word under a mask of those bits (R61). -/
theorem setWidth_extractLsb'_shiftLeft (w : Word) (start n : Nat) :
    (w.extractLsb' start n).setWidth 16 <<< start = w &&& (BitVec.allOnes n).setWidth 16 <<< start := by
  ext k hk
  by_cases below : k < start
  · simp [below]
  · simp [below, BitVec.getLsbD_eq_getElem, hk, show start + (k - start) = k by omega, Bool.and_comm]

/-- Formats K3, I3 and B8 and the digit code of PV hold their operand in the word's lowest bits (R61). -/
theorem setWidth_extractLsb'_zero (w : Word) (n : Nat) :
    (w.extractLsb' 0 n).setWidth 16 = w &&& (BitVec.allOnes n).setWidth 16 := by
  simpa using setWidth_extractLsb'_shiftLeft w 0 n

/-- Formats L1, M1 and D1 hold their operand in bit 0 (R61). -/
theorem wordOfBit_getElem_zero (w : Word) : wordOfBit w[0] = w &&& 1#16 := by
  have bit : ∀ b, wordOfBit b = (BitVec.ofBool b).setWidth 16 := by decide
  have read : BitVec.ofBool w[0] = w.extractLsb' 0 1 := by ext k hk; simp [show k = 0 by omega]
  rw [bit, read, setWidth_extractLsb'_zero]
  rfl

@[simp] theorem directionOfBit_bit (down : Bool) : (directionOfBit down).bit = down := by
  cases down <;> rfl

/-- The instruction that a row reads encodes to the row's pattern with the operand bits of the word (R61, R62): row by
row, the operand put back is the word under the complement of the row's mask. -/
theorem encode_read {r : OpcodeRow} (hr : r ∈ opcodeRows) (w : Word) :
    encode (r.read w) = r.pattern ||| (w &&& ~~~r.mask) := by
  revert r
  simp [opcodeRows, schedulerRows, busRows, timeKeeperRows, keyRows, encode, setWidth_extractLsb'_zero,
    setWidth_extractLsb'_shiftLeft, wordOfBit_getElem_zero, BitVec.or_assoc, ← BitVec.and_or_distrib_left]

end Sys2Proof
end

section
/-!
SUPPORT. The foreground's step at a word (spec/10_state.md R22).
-/

namespace Sys2Proof.Machine

/-- On its turn, with the thread its own, the foreground runs the word at `pc`. -/
theorem step_eq_runWord {s : State} {w : Word} (hτ : s.turn = .foreground) (hung : s.hung = false)
    (ctx : s.sched.ctx = .fg) (word : commandWord s = some w) : step s = runWord w s.consumeTurn := by
  have enabled : foregroundEnabled s.consumeTurn = true := by simp [foregroundEnabled, hung, ctx]
  simp [step, hτ, agentStep, foregroundStep, enabled, word]

end Sys2Proof.Machine
end

section
open Sys2Proof Sys2Proof.Machine

/-- Settles O1: an instruction encodes to a word of its own row, which reads it back. -/
theorem decodeOfEncode : Obligations.DecodeOfEncode := by
  intro i wf
  rw [decode_encode, if_pos wf]

/-- Settles O2: the word is its row's pattern with the operand bits, and so is the word of the instruction read. -/
theorem encodeOfDecode : Obligations.EncodeOfDecode := by
  intro w i h
  obtain ⟨r, mem, selects, rfl, wf⟩ := decode_eq_ok h
  exact ⟨wf, (encode_read mem w).trans (OpcodeRow.eq_of_selects selects).symm⟩

/-- Settles O3: a word of two rows would make their patterns agree, and in the table no two do. -/
theorem opcodeRowsDisjoint : Obligations.OpcodeRowsDisjoint := fun _ =>
  opcodeRows_patterns_differ.imp fun differ ⟨h, h'⟩ => differ (OpcodeRow.patterns_agree h h')

/-- Settles O4: the words are those of instructions with a reserved operand value. -/
theorem reservedEncodingsRefused : Obligations.ReservedEncodingsRefused := by
  refine ⟨fun w => decode_eq_encoding, fun pos val lo hi => ?_, fun key hkey => ?_, fun id hid => ⟨?_, ?_⟩⟩
  · exact decode_encode_reserved (.dispSetDigit pos val) (digitCodeOk_eq_false lo hi)
  · exact decode_encode_reserved (.debStepK key) (keyCodeOk_eq_false hkey)
  · exact decode_encode_reserved (.btnGet id) (buttonCodeOk_eq_false hid)
  · exact decode_encode_reserved (.btnConsume id) (buttonCodeOk_eq_false hid)

/-- Settles O5: each word is the word of its command. -/
theorem writtenWordsDecode : Obligations.WrittenWordsDecode :=
  ⟨decodeOfEncode (.dispSetDigit 2 7) rfl, decodeOfEncode (.busBegin 0xD0) rfl, decodeOfEncode (.busRead true) rfl,
    decodeOfEncode (.tkAdjHour .down) rfl, decodeOfEncode (.debStepK 0) rfl, decodeOfEncode (.btnGet 2) rfl,
    decodeOfEncode .isrFast rfl, decodeOfEncode .isrSlow rfl, decodeOfEncode .waitTick rfl, decodeOfEncode .tkInit rfl,
    decodeOfEncode .tkRefresh rfl, decodeOfEncode (.tkAdjMin .up) rfl, decodeOfEncode (.tkAdjMin .down) rfl,
    decodeOfEncode (.tkAdjHour .up) rfl, decodeOfEncode .tkToggleMode rfl⟩

/-- Settles O7: the foreground's step runs the word, which is no command of the program. -/
theorem stepRefusesTheWord : Obligations.StepRefusesTheWord := by
  intro s w hτ hung ctx word
  rw [step_eq_runWord hτ hung ctx word]
  refine ⟨fun dec => ?_, fun dec => ?_, fun i dec agent => ?_⟩
  · simp [runWord, dec]
  · simp [runWord, dec]
  · simp [runWord, dec, agent]

end

section
/-!
SUPPORT. The bus commands (spec/41_bus.md R80 to R86): a command is its phase check and the engine's operation; an
operation that fails at its first action, or at the address, from the Bus unit as it stands; the waits that never end;
and the refusals of R86.
-/

namespace Sys2Proof.Machine

/-! ### A bus command from its operation -/

variable {s : State} {v : BusUnit} {r : BusResult} {d : Option Byte}

theorem exec_busBegin_of_done {b : Byte} (h : engineBegin s.par b s.bus = .done r v) :
    exec (.busBegin b) s = .next (busCommandEnd s v (.bus r)) := by
  rw [exec, execBusBegin, h]
  rfl

theorem exec_busBegin_of_hang {b : Byte} (h : engineBegin s.par b s.bus = .hang v) :
    exec (.busBegin b) s = .next ({ s with bus := v }).hang := by
  rw [exec, execBusBegin, h]
  rfl

theorem exec_busWrite_of_done {b : Byte} (tx : s.bus.phase = .tx) (h : engineWrite s.par b s.bus = .done r v) :
    exec (.busWrite b) s = .next (busCommandEnd s v (.bus r)) := by
  rw [exec, execBusWrite, if_neg (not_not_intro tx), h]
  rfl

theorem exec_busWrite_of_hang {b : Byte} (tx : s.bus.phase = .tx) (h : engineWrite s.par b s.bus = .hang v) :
    exec (.busWrite b) s = .next ({ s with bus := v }).hang := by
  rw [exec, execBusWrite, if_neg (not_not_intro tx), h]
  rfl

theorem exec_busWrite_refused (b : Byte) (other : s.bus.phase ≠ .tx) :
    exec (.busWrite b) s = .refused .refusedBusMisuse :=
  if_pos other

theorem exec_busRead_of_done {last : Bool} (rx : s.bus.phase = .rx)
    (h : engineRead s.par last s.bus = .done (r, d) v) :
    exec (.busRead last) s = .next (busCommandEnd s v (.busRead r d)) := by
  rw [exec, execBusRead, if_neg (not_not_intro rx), h]
  rfl

theorem exec_busRead_refused (last : Bool) (other : s.bus.phase ≠ .rx) :
    exec (.busRead last) s = .refused .refusedBusMisuse :=
  if_pos other

/-! ### An operation that fails, from the Bus unit as it stands -/

/-- The errors of a start (R81). -/
theorem startEvent_failsWith {p : Params} {ph : BusPhase} {a : BusAnswer} {e : BusResult} :
    (startEvent ph).failsWith p a e ↔ (waitEnd p.waitBound a.polls = .timedOut ∧ e = .timeout) ∨
      (waitEnd p.waitBound a.polls = .ready ∧ (a.status ≠ .startOk ∧ a.status ≠ .rstartOk) ∧ e = .startFailed) := by
  simp [WireEvent.failsWith, startEvent_bound, startEvent_goodStatuses, startEvent_statusError]

/-- The success of a start (R81). -/
theorem startEvent_succeeds {p : Params} {ph : BusPhase} {a : BusAnswer} :
    (startEvent ph).succeeds p a ↔
      waitEnd p.waitBound a.polls = .ready ∧ (a.status = .startOk ∨ a.status = .rstartOk) := by
  simp [WireEvent.succeeds, startEvent_bound, startEvent_goodStatuses]

variable {p : Params} {u : BusUnit} {e : BusResult}

theorem BusUnit.taken_one (u : BusUnit) (ph : BusPhase) (r : BusResult) (w : List WireEvent) :
    u.taken 1 ph r u.data w = { u.consume with phase := ph, result := r, wire := w } := by
  simp [BusUnit.taken]

theorem BusUnit.taken_two (u : BusUnit) (ph : BusPhase) (r : BusResult) (w : List WireEvent) :
    u.taken 2 ph r u.data w = { u.consume.consume with phase := ph, result := r, wire := w } := by
  simp [BusUnit.taken]

theorem engineBegin_error_atStart {b : Byte} (h : (startEvent u.phase).failsWith p (u.comingAnswer 0) e) :
    engineBegin p b u = .done e { u.consume with
      phase := .idle, result := e, wire := u.wire ++ [startEvent u.phase, .stop] } := by
  rw [← BusUnit.taken_one]
  exact engineBegin_startFails h

theorem engineBegin_error_atAddress {b : Byte} (h0 : (startEvent u.phase).succeeds p (u.comingAnswer 0))
    (h1 : (WireEvent.address b).failsWith p (u.comingAnswer 1) e) :
    engineBegin p b u = .done e { u.consume.consume with
      phase := .idle, result := e, wire := u.wire ++ [startEvent u.phase, .address b, .stop] } := by
  rw [← BusUnit.taken_two]
  exact engineBegin_addressFails h0 h1

theorem engineWrite_error {b : Byte} (h : (WireEvent.write b).failsWith p (u.comingAnswer 0) e) :
    engineWrite p b u = .done e { u.consume with
      phase := .idle, result := e, wire := u.wire ++ [.write b, .stop] } := by
  rw [← BusUnit.taken_one]
  exact engineWrite_fails h

theorem engineRead_error {last : Bool} (h : (WireEvent.read last).failsWith p (u.comingAnswer 0) e) :
    engineRead p last u = .done (e, none) { u.consume with
      phase := .idle, result := e, wire := u.wire ++ [.read last, .stop] } := by
  rw [← BusUnit.taken_one]
  exact engineRead_fails h

/-! ### When a wait ends (R80) -/

theorem waitEnd_some_some (n d : Nat) : waitEnd (some n) (some d) = if n ≤ d then .timedOut else .ready := rfl

theorem waitEnd_ready_iff {n d : Nat} : waitEnd (some n) (some d) = .ready ↔ d < n := by
  rw [waitEnd_some_some, ← Nat.not_le]
  split <;> simp [*]

theorem waitEnd_timedOut_iff {n d : Nat} : waitEnd (some n) (some d) = .timedOut ↔ n ≤ d := by
  rw [waitEnd_some_some]
  split <;> simp [*]

/-- With no bound, a wait ends when the polls do. -/
theorem waitEnd_ready_of_unbounded {bound polls : Option Nat} (unbounded : bound = none) (ends : polls.isSome = true) :
    waitEnd bound polls = .ready := by
  obtain ⟨d, rfl⟩ := Option.isSome_iff_exists.mp ends
  rw [unbounded]
  rfl

/-- With no bound, a wait whose polls never end never does. -/
theorem waitEnd_forever_of_unbounded {bound polls : Option Nat} (unbounded : bound = none) (never : polls = none) :
    waitEnd bound polls = .forever := by
  rw [unbounded, never]
  rfl

theorem engineBegin_hangs_atStart {b : Byte} (h : waitEnd p.waitBound (u.comingAnswer 0).polls = .forever) :
    engineBegin p b u = .hang (u.emit (startEvent u.phase)).consume := by
  rw [engineBegin, busAction_forever h, BusOut.andThen_hang]

theorem engineBegin_hangs_atAddress {b : Byte} (h0 : (startEvent u.phase).succeeds p (u.comingAnswer 0))
    (h1 : waitEnd p.waitBound (u.comingAnswer 1).polls = .forever) :
    engineBegin p b u = .hang ((u.emit (startEvent u.phase)).consume.emit (.address b)).consume := by
  obtain ⟨ready, status⟩ := startEvent_succeeds.mp h0
  rw [engineBegin, busAction_ready ready, BusOut.andThen_done]
  dsimp only
  rw [if_neg (by tauto), busAction_forever (by simpa using h1), BusOut.andThen_hang]

theorem engineWrite_hangs {b : Byte} (h : waitEnd p.waitBound (u.comingAnswer 0).polls = .forever) :
    engineWrite p b u = .hang (u.emit (.write b)).consume := by
  rw [engineWrite, busAction_forever h, BusOut.andThen_hang]

/-! ### The refusals with the bus open (R86) -/

theorem tkCommand_refused (body : Flow BusResult) (busy : s.bus.phase ≠ .idle) :
    tkCommand body s = .refused .refusedBusMisuse :=
  if_pos busy

theorem exec_waitTick_refused (entry : s.sched.fgWait = false) (busy : s.bus.phase ≠ .idle) :
    exec .waitTick s = .refused .refusedBusMisuse := by
  simp [exec, execWaitTick, entry, busy]

end Sys2Proof.Machine
end

section
open Sys2Proof Sys2Proof.Machine

/-- Settles O22: the begin whose start and address are granted, as a command. -/
theorem busBeginSucceeds : Obligations.BusBeginSucceeds := fun _ _ ready0 started ready1 acked =>
  exec_busBegin_of_done (engineBegin_granted ready0 started ready1 acked)

/-- Settles O23: the start fails, or it succeeds and the address fails; each by a timeout or by another status. -/
theorem busBeginErrors : Obligations.BusBeginErrors := by
  rintro s b _ rfl
  refine ⟨fun late => ?_, fun ready notOk notRok => ?_, fun ready started => ?_⟩
  · exact exec_busBegin_of_done (engineBegin_error_atStart (startEvent_failsWith.mpr (.inl ⟨late, rfl⟩)))
  · exact exec_busBegin_of_done
      (engineBegin_error_atStart (startEvent_failsWith.mpr (.inr ⟨ready, ⟨notOk, notRok⟩, rfl⟩)))
  · have start : (startEvent s.bus.phase).succeeds s.par (s.bus.comingAnswer 0) :=
      startEvent_succeeds.mpr ⟨ready, started⟩
    refine ⟨fun late => ?_, fun ready nacked => ?_⟩
    · exact exec_busBegin_of_done (engineBegin_error_atAddress start (.inl ⟨late, rfl⟩))
    · exact exec_busBegin_of_done
        (engineBegin_error_atAddress start (.inr ⟨ready, mt List.mem_singleton.mp nacked, rfl⟩))

/-- Settles O24: in Tx the command is the engine's write, which is granted or fails. -/
theorem busWriteResult : Obligations.BusWriteResult := by
  refine fun s b => ⟨decodeOfEncode (.busWrite b) rfl, fun tx => ⟨fun ready acked => ?_, fun ready nacked => ?_,
    fun late => ?_⟩, exec_busWrite_refused b⟩
  · exact exec_busWrite_of_done tx (engineWrite_granted ready acked)
  · exact exec_busWrite_of_done tx (engineWrite_error (.inr ⟨ready, mt List.mem_singleton.mp nacked, rfl⟩))
  · exact exec_busWrite_of_done tx (engineWrite_error (.inl ⟨late, rfl⟩))

/-- Settles O25: in Rx the command is the engine's read, which is granted or fails. -/
theorem busReadResult : Obligations.BusReadResult := by
  refine ⟨decodeOfEncode (.busRead false) rfl, decodeOfEncode (.busRead true) rfl, fun s last => ⟨fun rx =>
    ⟨fun ready expected => ?_, fun late => ?_, fun ready other => ?_⟩, exec_busRead_refused last⟩⟩
  · have granted := engineRead_granted ready expected
    rw [rx] at granted
    exact exec_busRead_of_done rx granted
  · exact exec_busRead_of_done rx (engineRead_error (.inl ⟨late, rfl⟩))
  · exact exec_busRead_of_done rx (engineRead_error (.inr ⟨ready, mt List.mem_singleton.mp other, rfl⟩))

/-- Settles O26: BUS_END is the engine's stop, which has no wait. -/
theorem busEndStops : Obligations.BusEndStops :=
  ⟨decodeOfEncode .busEnd rfl, fun _ => rfl⟩

/-- Settles O27: a wait with no bound whose polls never end holds the operation it stands in. -/
theorem waitsEndOrHang : Obligations.WaitsEndOrHang := by
  refine ⟨fun n d => ⟨waitEnd_ready_iff, waitEnd_timedOut_iff, rfl, rfl⟩, fun s b unbounded =>
    ⟨fun never => ⟨?_, fun tx => ?_⟩, fun ends started never => ?_⟩⟩
  · have hang := engineBegin_hangs_atStart (b := b) (waitEnd_forever_of_unbounded unbounded never)
    exact ⟨_, exec_busBegin_of_hang hang, rfl, rfl, rfl, rfl, rfl⟩
  · have hang := engineWrite_hangs (b := b) (waitEnd_forever_of_unbounded unbounded never)
    exact ⟨_, exec_busWrite_of_hang tx hang, rfl, rfl, rfl, rfl, rfl⟩
  · have start : (startEvent s.bus.phase).succeeds s.par (s.bus.comingAnswer 0) :=
      startEvent_succeeds.mpr ⟨waitEnd_ready_of_unbounded unbounded ends, started⟩
    have hang := engineBegin_hangs_atAddress (b := b) start (waitEnd_forever_of_unbounded unbounded never)
    exact ⟨_, exec_busBegin_of_hang hang, rfl, rfl, rfl, rfl, rfl, by simp [startEvent]⟩

/-- Settles O28: WAIT_TICK's entry and each of the commands that use the bus ask for an idle bus first. -/
theorem openBusRefused : Obligations.OpenBusRefused := fun _ _ busy =>
  ⟨fun entry => exec_waitTick_refused entry busy, tkCommand_refused _ busy, tkCommand_refused _ busy,
    tkCommand_refused _ busy, tkCommand_refused _ busy, tkCommand_refused _ busy⟩

end

section
/-!
SUPPORT. Times and the chip's bytes as arithmetic (spec/10_state.md R25, R26; spec/42_timekeeper.md R91, R92, R98;
spec/30_encoding.md R70): what the adjustments and the mode conversion do to a record built from its fields, which bytes
decode and to what, and the bytes that the block writes. And the law of `first_err` (R93).
-/

namespace Sys2Proof

/-- The other direction. -/
def Direction.opposite : Direction → Direction
  | .up => .down
  | .down => .up

end Sys2Proof

namespace Sys2Proof.Machine

/-! ### A record and its fields -/

section fields

variable {s m h : Nat} {mode : HourMode} {p : DayPeriod}

theorem mkTime_sec (hs : s ≤ 59) : (mkTime s m h mode p).sec.toNat = s := by
  simp only [mkTime, BitVec.toNat_ofNat]
  omega

theorem mkTime_min (hm : m ≤ 59) : (mkTime s m h mode p).min.toNat = m := by
  simp only [mkTime, BitVec.toNat_ofNat]
  omega

theorem mkTime_hr (hh : h ≤ 23) : (mkTime s m h mode p).hr.toNat = h := by
  simp only [mkTime, BitVec.toNat_ofNat]
  omega

/-- A time the block can hold is the record of its own binary fields (R26). -/
theorem TimeRec.ok.eq_mkTime {t : TimeRec} (ht : t.ok) :
    mkTime t.sec.toNat t.min.toNat t.hr.toNat t.mode t.period = t := by
  obtain ⟨-, ⟨secT, secU, minT, minU, hrT, hrU⟩, -⟩ := ht
  simp [mkTime, ← secT, ← secU, ← minT, ← minU, ← hrT, ← hrU]

/-- Every time the block can hold is built from fields in range (R25). -/
theorem TimeRec.ok.exists_mkTime {t : TimeRec} (ht : t.ok) :
    ∃ s m h mode p, s ≤ 59 ∧ m ≤ 59 ∧ hourFits mode h p ∧ t = mkTime s m h mode p :=
  ⟨_, _, _, _, _, ht.1.1, ht.1.2.1, ht.hour, ht.eq_mkTime.symm⟩

theorem adjustMinute_mkTime (hs : s ≤ 59) (hm : m ≤ 59) (hh : h ≤ 23) (dir : Direction) :
    (mkTime s m h mode p).adjustMinute dir = mkTime s (minStep m dir) h mode p := by
  rw [TimeRec.adjustMinute, mkTime_sec hs, mkTime_min hm, mkTime_hr hh]
  rfl

theorem adjustHour_mkTime (hs : s ≤ 59) (hm : m ≤ 59) (hh : h ≤ 23) (dir : Direction) :
    (mkTime s m h mode p).adjustHour dir = mkTime s m (hourStep mode h p dir).1 mode (hourStep mode h p dir).2 := by
  rw [TimeRec.adjustHour, mkTime_sec hs, mkTime_min hm, mkTime_hr hh]
  rfl

theorem toggleMode_mkTime_h24 (hs : s ≤ 59) (hm : m ≤ 59) (hh : h ≤ 23) :
    (mkTime s m h .h24 p).toggleMode = mkTime s m (to12 h).1 .h12 (to12 h).2 := by
  rw [TimeRec.toggleMode, mkTime_sec hs, mkTime_min hm, mkTime_hr hh]
  rfl

theorem toggleMode_mkTime_h12 (hs : s ≤ 59) (hm : m ≤ 59) (hh : h ≤ 23) :
    (mkTime s m h .h12 p).toggleMode = mkTime s m (to24 h p) .h24 (periodOfHour (to24 h p)) := by
  rw [TimeRec.toggleMode, mkTime_sec hs, mkTime_min hm, mkTime_hr hh]
  rfl

end fields

/-! ### The step functions of the adjustments (R92) -/

theorem minStep_up {m : Nat} (hm : m ≤ 59) : minStep m .up = (m + 1) % 60 := by
  simp only [minStep]
  split <;> omega

theorem minStep_down {m : Nat} (hm : m ≤ 59) : minStep m .down = (m + 59) % 60 := by
  simp only [minStep]
  split <;> omega

theorem minStep_opposite {m : Nat} (hm : m ≤ 59) (dir : Direction) : minStep (minStep m dir) dir.opposite = m := by
  have hm' := minStep_le hm dir
  cases dir with
  | up => rw [Direction.opposite, minStep_down hm', minStep_up hm]; omega
  | down => rw [Direction.opposite, minStep_up hm', minStep_down hm]; omega

@[simp] theorem DayPeriod.flip_flip (p : DayPeriod) : p.flip.flip = p := by cases p <;> rfl

theorem hourStep24_up {h : Nat} (hh : h ≤ 23) : hourStep24 h .up = (h + 1) % 24 := by
  simp only [hourStep24]
  split <;> omega

theorem hourStep24_down {h : Nat} (hh : h ≤ 23) : hourStep24 h .down = (h + 23) % 24 := by
  simp only [hourStep24]
  split <;> omega

theorem hourStep12_up {h : Nat} (h1 : 1 ≤ h) (h12 : h ≤ 12) (p : DayPeriod) : (hourStep12 h p .up).1 = h % 12 + 1 := by
  simp only [hourStep12]
  split_ifs <;> dsimp only <;> omega

theorem hourStep12_down {h : Nat} (h1 : 1 ≤ h) (h12 : h ≤ 12) (p : DayPeriod) :
    (hourStep12 h p .down).1 = (h + 10) % 12 + 1 := by
  simp only [hourStep12]
  split_ifs <;> dsimp only <;> omega

theorem DayPeriod.flip_eq (p : DayPeriod) : p.flip = if p = .am then .pm else .am := by
  cases p <;> rfl

theorem hourStep12_up_eq (h : Nat) (p : DayPeriod) : hourStep12 h p .up =
    (if h = 11 then 12 else if h = 12 then 1 else h + 1, if h = 11 ∨ h = 12 then p.flip else p) := by
  simp only [hourStep12]
  split_ifs <;> simp_all

theorem hourStep12_down_eq (h : Nat) (p : DayPeriod) : hourStep12 h p .down =
    (if h = 1 then 12 else if h = 12 then 11 else h - 1, if h = 1 ∨ h = 12 then p.flip else p) := by
  simp only [hourStep12]
  split_ifs <;> simp_all

/-- In H12 the period flips where an adjustment crosses 11 to 12 or 12 to 1, so going back flips it again (D22). -/
theorem hourStep12_opposite {h : Nat} (h1 : 1 ≤ h) (h12 : h ≤ 12) (p : DayPeriod) (dir : Direction) :
    hourStep12 (hourStep12 h p dir).1 (hourStep12 h p dir).2 dir.opposite = (h, p) := by
  interval_cases h <;> cases dir <;> simp [hourStep12, Direction.opposite]

theorem hourStep_opposite {mode : HourMode} {h : Nat} {p : DayPeriod} (hh : hourFits mode h p) (dir : Direction) :
    hourStep mode (hourStep mode h p dir).1 (hourStep mode h p dir).2 dir.opposite = (h, p) := by
  cases mode with
  | h12 => exact hourStep12_opposite hh.1 hh.2 p dir
  | h24 =>
    obtain ⟨h23, rfl⟩ := hh
    have back : hourStep24 (hourStep24 h dir) dir.opposite = h := by
      have h23' : hourStep24 h dir ≤ 23 := (hourStep_fits (mode := .h24) ⟨h23, rfl⟩ dir).1
      cases dir with
      | up => rw [Direction.opposite, hourStep24_down h23', hourStep24_up h23]; omega
      | down => rw [Direction.opposite, hourStep24_up h23', hourStep24_down h23]; omega
    simp only [hourStep, back]

theorem TimeRec.ok.adjustMinute_min {t : TimeRec} (ht : t.ok) (dir : Direction) :
    (t.adjustMinute dir).min.toNat = minStep t.min.toNat dir :=
  mkTime_min (minStep_le ht.1.2.1 dir)

theorem TimeRec.adjustMinute_hr (t : TimeRec) (dir : Direction) : (t.adjustMinute dir).hr = t.hr := by
  simp [TimeRec.adjustMinute, mkTime]

theorem TimeRec.ok.adjustHour_hr {t : TimeRec} (ht : t.ok) (dir : Direction) :
    (t.adjustHour dir).hr.toNat = (hourStep t.mode t.hr.toNat t.period dir).1 :=
  mkTime_hr (hourStep_fits ht.hour dir).le

theorem TimeRec.adjustHour_min (t : TimeRec) (dir : Direction) : (t.adjustHour dir).min = t.min := by
  simp [TimeRec.adjustHour, mkTime]

theorem TimeRec.ok.adjustMinute_opposite {t : TimeRec} (ht : t.ok) (dir : Direction) :
    (t.adjustMinute dir).adjustMinute dir.opposite = t := by
  obtain ⟨s, m, h, mode, p, hs, hm, hh, rfl⟩ := ht.exists_mkTime
  rw [adjustMinute_mkTime hs hm hh.le, adjustMinute_mkTime hs (minStep_le hm dir) hh.le, minStep_opposite hm]

theorem TimeRec.ok.adjustHour_opposite {t : TimeRec} (ht : t.ok) (dir : Direction) :
    (t.adjustHour dir).adjustHour dir.opposite = t := by
  obtain ⟨s, m, h, mode, p, hs, hm, hh, rfl⟩ := ht.exists_mkTime
  rw [adjustHour_mkTime hs hm hh.le, adjustHour_mkTime hs hm (hourStep_fits hh dir).le, hourStep_opposite hh]

/-! ### The mode conversion (R98) -/

theorem to12_hour {h : Nat} (hh : h ≤ 23) : (to12 h).1 = (h + 11) % 12 + 1 := by
  simp only [to12]
  split_ifs <;> dsimp only <;> omega

theorem to12_period (h : Nat) : (to12 h).2 = periodOfHour h := by
  by_cases afternoon : 12 ≤ h
  · rw [periodOfHour, if_pos afternoon, to12, if_neg (by omega), if_neg (by omega)]
    split <;> rfl
  · rw [periodOfHour, if_neg afternoon, to12]
    split
    · rfl
    · rw [if_pos (by omega)]

theorem to24_eq {h : Nat} (h1 : 1 ≤ h) (h12 : h ≤ 12) (p : DayPeriod) :
    to24 h p = h % 12 + (if p = .pm then 12 else 0) := by
  cases p <;> simp only [to24] <;> split_ifs <;> simp_all <;> omega

theorem periodOfHour_to24 {h : Nat} (h1 : 1 ≤ h) (h12 : h ≤ 12) (p : DayPeriod) : periodOfHour (to24 h p) = p := by
  rw [to24_eq h1 h12, periodOfHour]
  cases p with
  | am => exact if_neg (by simp; omega)
  | pm => exact if_pos (by simp)

theorem to24_to12 {h : Nat} (hh : h ≤ 23) : to24 (to12 h).1 (to12 h).2 = h := by
  obtain ⟨h1, h12⟩ := to12_fits hh
  rw [to24_eq h1 h12, to12_hour hh, to12_period, periodOfHour]
  split_ifs <;> simp_all <;> omega

theorem to12_to24 {h : Nat} (h1 : 1 ≤ h) (h12 : h ≤ 12) (p : DayPeriod) : to12 (to24 h p) = (h, p) := by
  refine Prod.ext ?_ ?_
  · rw [to12_hour (to24_le h1 h12 p), to24_eq h1 h12]
    split <;> omega
  · rw [to12_period, periodOfHour_to24 h1 h12]

/-! ### The law of first_err (R93) -/

theorem firstErr_of_all_ok {l : List BusResult} (h : ∀ r ∈ l, r = .ok) : firstErr l = .ok := by
  induction l with
  | nil => rfl
  | cons r l ih =>
    obtain ⟨rfl, tail⟩ := List.forall_mem_cons.mp h
    exact ih tail

theorem firstErr_append_of_all_ok {l : List BusResult} (h : ∀ r ∈ l, r = .ok) (rest : List BusResult) :
    firstErr (l ++ rest) = firstErr rest := by
  induction l with
  | nil => rfl
  | cons r l ih =>
    obtain ⟨rfl, tail⟩ := List.forall_mem_cons.mp h
    exact ih tail

theorem firstErr_cons_of_ne_ok {r : BusResult} (h : r ≠ .ok) (rest : List BusResult) : firstErr (r :: rest) = r := by
  cases r with
  | ok => exact absurd rfl h
  | startFailed | addressNacked | dataNacked | timeout => rfl

/-! ### The chip's bytes (R41, R91) -/

/-- The seconds or minutes that a byte holds. -/
def pairOf (b : Byte) : Nat := 10 * (b.toNat / 16 % 8) + b.toNat % 16

/-- The hour that a byte holds; its tens are one bit in H12 and two in H24. -/
def hourOf (b : Byte) : Nat := 10 * (if b.getLsbD 6 then b.toNat / 16 % 2 else b.toNat / 16 % 4) + b.toNat % 16

/-- The mode that an hours byte holds. -/
def modeOf (b : Byte) : HourMode := if b.getLsbD 6 then .h12 else .h24

/-- The period that an hours byte holds: bit 5 in H12, that of the hour in H24. -/
def periodOf (b : Byte) : DayPeriod :=
  if (if b.getLsbD 6 then b.getLsbD 5 else decide (12 ≤ hourOf b)) then .pm else .am

/-- The hour of an hours byte is outside its mode's range. -/
def InvalidHour (b : Byte) : Prop :=
  (b.getLsbD 6 = true ∧ (hourOf b < 1 ∨ 12 < hourOf b)) ∨ (b.getLsbD 6 = false ∧ 23 < hourOf b)

/-- The three bytes are Invalid (R91). -/
def InvalidBytes (b0 b1 b2 : Byte) : Prop :=
  9 < b0.toNat % 16 ∨ 9 < b1.toNat % 16 ∨ 9 < b2.toNat % 16 ∨ 59 < pairOf b0 ∨ 59 < pairOf b1 ∨ InvalidHour b2

section hours

variable {b : Byte}

theorem modeOf_h12 (h6 : b.getLsbD 6 = true) : modeOf b = .h12 := if_pos h6

theorem modeOf_h24 (h6 : b.getLsbD 6 = false) : modeOf b = .h24 := if_neg (Bool.eq_false_iff.mp h6)

theorem hourOf_h12 (h6 : b.getLsbD 6 = true) : hourOf b = 10 * (b.toNat / 16 % 2) + b.toNat % 16 := by
  rw [hourOf, if_pos h6]

theorem hourOf_h24 (h6 : b.getLsbD 6 = false) : hourOf b = 10 * (b.toNat / 16 % 4) + b.toNat % 16 := by
  rw [hourOf, if_neg (Bool.eq_false_iff.mp h6)]

theorem periodOf_h12 (h6 : b.getLsbD 6 = true) : periodOf b = if b.getLsbD 5 then .pm else .am := by
  rw [periodOf, if_pos h6]

theorem periodOf_h24 (h6 : b.getLsbD 6 = false) : periodOf b = periodOfHour (hourOf b) := by
  simp only [periodOf, h6, Bool.false_eq_true, if_false, decide_eq_true_eq, periodOfHour]

/-- An hours byte is Invalid when no time of its mode can hold its hour. -/
theorem invalidHour_iff : InvalidHour b ↔ ¬hourFits (modeOf b) (hourOf b) (periodOf b) := by
  cases h6 : b.getLsbD 6 with
  | true => simp only [InvalidHour, h6, modeOf_h12 h6, hourFits]; simp; omega
  | false => simp only [InvalidHour, h6, modeOf_h24 h6, periodOf_h24 h6, hourFits]; simp

theorem decodeHour_invalid (h : InvalidHour b) : decodeHour b = none := by
  rcases h with ⟨h6, range⟩ | ⟨h6, range⟩
  · rw [hourOf_h12 h6] at range
    simp only [decodeHour, h6, if_true, fieldOf_hourTens12, fieldOf_units, range]
  · rw [hourOf_h24 h6] at range
    simp only [decodeHour, h6, Bool.false_eq_true, if_false, if_true, fieldOf_hourTens24, fieldOf_units, range]

theorem decodeHour_valid (h : ¬InvalidHour b) : decodeHour b = some (hourOf b, modeOf b, periodOf b) := by
  cases h6 : b.getLsbD 6 with
  | true =>
    have range : ¬(hourOf b < 1 ∨ 12 < hourOf b) := fun hc => h (.inl ⟨h6, hc⟩)
    rw [periodOf_h12 h6, modeOf_h12 h6]
    rw [hourOf_h12 h6] at range ⊢
    simp only [decodeHour, h6, if_true, fieldOf_hourTens12, fieldOf_units, range, if_false]
  | false =>
    have range : ¬23 < hourOf b := fun hc => h (.inr ⟨h6, hc⟩)
    rw [periodOf_h24 h6, modeOf_h24 h6]
    rw [hourOf_h24 h6] at range ⊢
    simp only [decodeHour, h6, Bool.false_eq_true, fieldOf_hourTens24, fieldOf_units, range, if_false]

end hours

theorem decodeTime_invalid {b0 b1 b2 : Byte} (h : InvalidBytes b0 b1 b2) : decodeTime b0 b1 b2 = none := by
  simp only [decodeTime, fieldOf_units, fieldOf_tens]
  split_ifs with digits range
  · rfl
  · rfl
  · simp only [not_or] at digits range
    have hour : InvalidHour b2 := by simpa only [InvalidBytes, pairOf, digits, range, false_or] using h
    rw [decodeHour_invalid hour]
    rfl

theorem decodeTime_valid {b0 b1 b2 : Byte} (h : ¬InvalidBytes b0 b1 b2) :
    decodeTime b0 b1 b2 = some (mkTime (pairOf b0) (pairOf b1) (hourOf b2) (modeOf b2) (periodOf b2)) := by
  simp only [InvalidBytes, not_or, pairOf] at h
  obtain ⟨d0, d1, d2, s, m, hour⟩ := h
  simp only [decodeTime, fieldOf_units, fieldOf_tens, d0, d1, d2, s, m, or_self, if_false, decodeHour_valid hour,
    Option.map_some, pairOf]

theorem decodeTime_eq_none {b0 b1 b2 : Byte} : decodeTime b0 b1 b2 = none ↔ InvalidBytes b0 b1 b2 := by
  refine ⟨fun h => ?_, decodeTime_invalid⟩
  by_contra valid
  rw [decodeTime_valid valid] at h
  cases h

theorem decodeTime_eq_some {b0 b1 b2 : Byte} {t : TimeRec} : decodeTime b0 b1 b2 = some t ↔
    ¬InvalidBytes b0 b1 b2 ∧ t = mkTime (pairOf b0) (pairOf b1) (hourOf b2) (modeOf b2) (periodOf b2) := by
  by_cases h : InvalidBytes b0 b1 b2
  · simp [decodeTime_invalid h, h]
  · simp [decodeTime_valid h, h, eq_comm]

/-- The fields of the time that valid bytes hold (R91). -/
theorem decodeTime_fields {b0 b1 b2 : Byte} {t : TimeRec} (h : decodeTime b0 b1 b2 = some t) :
    t.sec.toNat = pairOf b0 ∧ t.min.toNat = pairOf b1 ∧ t.hr.toNat = hourOf b2 ∧ t.mode = modeOf b2 ∧
      t.period = periodOf b2 := by
  obtain ⟨valid, rfl⟩ := decodeTime_eq_some.mp h
  simp only [InvalidBytes, not_or, Nat.not_lt] at valid
  obtain ⟨-, -, -, s, m, hour⟩ := valid
  exact ⟨mkTime_sec s, mkTime_min m, mkTime_hr (not_not.mp (mt invalidHour_iff.mpr hour)).le, rfl, rfl⟩

theorem getLsbD_bit7 (b : Byte) :
    (b ||| 0x80).getLsbD 5 = b.getLsbD 5 ∧ (b ||| 0x80).getLsbD 6 = b.getLsbD 6 := by revert b; decide

/-- Bit 7 of each byte is ignored (R91). -/
theorem decodeTime_bit7 (b0 b1 b2 : Byte) : decodeTime (b0 ||| 0x80) b1 b2 = decodeTime b0 b1 b2 ∧
    decodeTime b0 (b1 ||| 0x80) b2 = decodeTime b0 b1 b2 ∧ decodeTime b0 b1 (b2 ||| 0x80) = decodeTime b0 b1 b2 := by
  simp only [decodeTime, decodeHour, fieldOf_bit7, getLsbD_bit7, and_self]

/-! ### The bytes the block writes (R9, R70) -/

theorem bcd_toNat {v : Nat} (hv : v ≤ 99) : (bcd v).toNat = 16 * (v / 10) + v % 10 := by
  rw [bcd, BitVec.toNat_ofNat]
  omega

theorem pairOf_bcd {v : Nat} (hv : v ≤ 59) : pairOf (bcd v) = v := by
  rw [pairOf, bcd_toNat (by omega)]
  omega

/-- Two digits, side by side. -/
theorem digits_toNat (tens units : BitVec 4) :
    (tens.setWidth 8 <<< 4 ||| units.setWidth 8).toNat = 16 * tens.toNat + units.toNat := by
  revert tens units
  decide

/-- The mode and period bits above two digits, of which the tens take one bit in H12 (R70). -/
theorem mode_period_bits (b : Byte) (h : b.toNat < 32) :
    (0x40#8 ||| 0x20#8 ||| b).toNat = 96 + b.toNat ∧ (0x40#8 ||| 0x00#8 ||| b).toNat = 64 + b.toNat := by
  revert b
  decide

/-- The hours byte of a valid time (R70): the mode in bit 6, the H12 period in bit 5, the hour in BCD. -/
theorem hourByte_toNat {t : TimeRec} (ht : t.ok) : (hourByte t).toNat =
    (if t.mode = .h12 then 64 else 0) + (if t.mode = .h12 ∧ t.period = .pm then 32 else 0) +
      16 * (t.hr.toNat / 10) + t.hr.toNat % 10 := by
  have hour := ht.hour
  obtain ⟨-, ⟨-, -, -, -, tens, units⟩, -⟩ := ht
  have digits := digits_toNat t.hrT t.hrU
  rw [tens, units] at digits
  cases mode : t.mode with
  | h24 => simp [hourByte, mode, digits]
  | h12 =>
    rw [mode] at hour
    obtain ⟨h1, h12⟩ := hour
    obtain ⟨pm, am⟩ := mode_period_bits _ (show _ < 32 by rw [digits]; omega)
    cases period : t.period with
    | am => simp only [hourByte, mode, period, reduceCtorEq, and_false, if_false, if_true, am, digits]; omega
    | pm => simp only [hourByte, mode, period, and_self, if_true, pm, digits]; omega

theorem getLsbD_eq_decide (b : Byte) (i : Nat) : b.getLsbD i = decide (b.toNat / 2 ^ i % 2 = 1) := by
  rw [BitVec.getLsbD, Nat.testBit_eq_decide_div_mod_eq]

/-- An hours byte holds the hour, mode and period it was made from. -/
theorem hourByte_holds {t : TimeRec} (ht : t.ok) :
    hourOf (hourByte t) = t.hr.toNat ∧ modeOf (hourByte t) = t.mode ∧ periodOf (hourByte t) = t.period := by
  have value := hourByte_toNat ht
  have hour := ht.hour
  have h23 := hour.le
  have bit5 := getLsbD_eq_decide (hourByte t) 5
  have bit6 := getLsbD_eq_decide (hourByte t) 6
  cases mode : t.mode with
  | h24 =>
    rw [mode] at hour
    simp only [mode, reduceCtorEq, false_and, if_false] at value
    have h6 : (hourByte t).getLsbD 6 = false := bit6.trans (decide_eq_false (by omega))
    have same : hourOf (hourByte t) = t.hr.toNat := by rw [hourOf_h24 h6]; omega
    exact ⟨same, modeOf_h24 h6, by rw [periodOf_h24 h6, same, hour.2]⟩
  | h12 =>
    rw [mode] at hour
    obtain ⟨h1, h12⟩ := hour
    simp only [mode, true_and, if_true] at value
    have h6 : (hourByte t).getLsbD 6 = true := bit6.trans (decide_eq_true (by split at value <;> omega))
    refine ⟨by rw [hourOf_h12 h6]; split at value <;> omega, modeOf_h12 h6, ?_⟩
    rw [periodOf_h12 h6, bit5]
    cases period : t.period with
    | am => exact if_neg (by simp only [period, reduceCtorEq, if_false] at value; simp; omega)
    | pm => exact if_pos (by simp only [period, if_true] at value; simp; omega)

/-- The bytes of a valid time decode to it. -/
theorem decodeTime_written {t : TimeRec} (ht : t.ok) :
    decodeTime (bcd t.sec.toNat) (bcd t.min.toNat) (hourByte t) = some t := by
  obtain ⟨hour, mode, period⟩ := hourByte_holds ht
  have sec := pairOf_bcd ht.1.1
  have min := pairOf_bcd ht.1.2.1
  have valid : ¬InvalidBytes (bcd t.sec.toNat) (bcd t.min.toNat) (hourByte t) := by
    have hs := ht.1.1
    have hm := ht.1.2.1
    simp only [InvalidBytes, not_or, Nat.not_lt, sec, min, bcd_toNat (hs.trans (by omega : 59 ≤ 99)),
      bcd_toNat (hm.trans (by omega : 59 ≤ 99)), hourByte_toNat ht, invalidHour_iff, hour, mode, period, not_not]
    refine ⟨by omega, by omega, by split_ifs <;> omega, hs, hm, ht.hour⟩
  rw [decodeTime_valid valid, sec, min, hour, mode, period, ht.eq_mkTime]

end Sys2Proof.Machine
end

section
open Sys2Proof Sys2Proof.Machine

/-- Settles O40: the command reads `time` and nothing else. -/
theorem tkGetTimeSnapshot : Obligations.TkGetTimeSnapshot := by
  refine ⟨decodeOfEncode .tkGetTime rfl, fun s => ⟨fun t0 written => ?_, fun unwritten => ?_⟩⟩
  · simp only [exec, execTkGetTime, written]
    rfl
  · simp only [exec, execTkGetTime, unwritten]

/-- Settles O42: the bytes as arithmetic, in both directions. -/
theorem timeBytesRoundTrip : Obligations.TimeBytesRoundTrip := by
  refine ⟨?_, fun v => bcd_toNat, fun t ht => ⟨hourByte_toNat ht, decodeTime_written ht⟩⟩
  rintro b0 b1 b2 _ _ _ rfl rfl rfl
  exact ⟨decodeTime_eq_none, fun t h => ⟨decodeTime_ok h, decodeTime_fields h⟩, decodeTime_bit7 b0 b1 b2⟩

/-- Settles O43: on the fields of a valid time the steps are arithmetic, and a step undoes its opposite. -/
theorem adjustmentsAreInverse : Obligations.AdjustmentsAreInverse := by
  intro t ht
  have hour := ht.hour
  refine ⟨⟨?_, t.adjustMinute_hr .up, ?_, t.adjustMinute_hr .down⟩, fun mode => ?_, fun mode => ?_,
    t.adjustHour_min .up, t.adjustHour_min .down, ht.adjustMinute_opposite .up, ht.adjustMinute_opposite .down,
    ht.adjustHour_opposite .up, ht.adjustHour_opposite .down⟩
  · rw [ht.adjustMinute_min, minStep_up ht.1.2.1]
  · rw [ht.adjustMinute_min, minStep_down ht.1.2.1]
  · rw [mode] at hour
    rw [ht.adjustHour_hr, ht.adjustHour_hr, mode]
    exact ⟨hourStep24_up hour.1, hourStep24_down hour.1⟩
  · rw [mode] at hour
    rw [ht.adjustHour_hr, ht.adjustHour_hr, mode]
    exact ⟨hourStep12_up hour.1 hour.2 _, hourStep12_down hour.1 hour.2 _⟩

/-- Settles O44: a valid time is built from its fields, and on those `to12` and `to24` undo each other. -/
theorem toggleTwiceIsIdentity : Obligations.ToggleTwiceIsIdentity := by
  intro t ht
  have valid := TimeRec.toggleMode_ok ht
  obtain ⟨s, m, h, mode, p, hs, hm, hh, rfl⟩ := ht.exists_mkTime
  have h23 := hh.le
  cases mode with
  | h24 =>
    obtain ⟨-, rfl⟩ := hh
    have h12 := to12_fits h23
    rw [toggleMode_mkTime_h24 hs hm h23] at valid ⊢
    refine ⟨valid, nofun, rfl, rfl, to12_period h, fun _ => ?_, nofun, ?_⟩
    · rw [mkTime_hr h12.le, mkTime_hr h23, to12_hour h23]
    · rw [toggleMode_mkTime_h12 hs hm h12.le, to24_to12 h23]
  | h12 =>
    obtain ⟨h1, h12⟩ := hh
    have h24 := to24_le h1 h12 p
    rw [toggleMode_mkTime_h12 hs hm h23] at valid ⊢
    refine ⟨valid, nofun, rfl, rfl, periodOfHour_to24 h1 h12 p, nofun, fun _ => ?_, ?_⟩
    · rw [mkTime_hr h24, mkTime_hr h23, to24_eq h1 h12]
      rfl
    · rw [toggleMode_mkTime_h24 hs hm h24, to12_to24 h1 h12]

/-- Settles O45: results that are Ok are passed over, and the first other one is the answer. -/
theorem firstErrLaw : Obligations.FirstErrLaw := fun _ after ok =>
  ⟨firstErr_of_all_ok ok, fun _ err => (firstErr_append_of_all_ok ok _).trans (firstErr_cons_of_ne_ok err after)⟩

end

section
/-!
SUPPORT. How a TimeKeeper command ends (spec/42_timekeeper.md R93 to R98): the command from its operation, when no
operation faults, and each operation from its transactions and back to them.
-/

namespace Sys2Proof.Machine

/-! ### A command from its operation -/

section command

variable {s t : State} {x : Flow BusResult}

theorem tkCommand_idle (idle : s.bus.phase = .idle) (x : Flow BusResult) : tkCommand x s = x.ending finishTk :=
  if_neg (not_not_intro idle)

theorem tkCommand_of_done {r : BusResult} (idle : s.bus.phase = .idle) (h : x = .done r t) :
    tkCommand x s = .next (finishTk r t) := by
  rw [tkCommand_idle idle, h]
  rfl

theorem tkCommand_of_fault {e : Fault} (idle : s.bus.phase = .idle) (h : x = .fault e) : tkCommand x s = .fault e := by
  rw [tkCommand_idle idle, h]
  rfl

/-- A command that goes on has its operation done, or hangs in it. -/
theorem tkCommand_eq_next (h : tkCommand x s = .next t) :
    (∃ r u, x = .done r u ∧ t = finishTk r u) ∨ (∃ u, x = .hang u ∧ t = u.hang) := by
  unfold tkCommand at h
  split at h
  · cases h
  · exact Flow.ending_eq_next h

/-- A command that completes has its operation done. -/
theorem tkCommand_completed (h : tkCommand x s = .next t) (hung : t.hung = false) :
    ∃ r u, x = .done r u ∧ t = finishTk r u := by
  rcases tkCommand_eq_next h with done | ⟨u, -, rfl⟩
  · exact done
  · cases hung

theorem finishTk_fg (r : BusResult) (s : State) : (finishTk r s).fg = respondedWith s.fg (.tk r) := rfl

end command

/-! ### Operations that do not fault -/

/-- The operation is done, or hangs. -/
def Flow.NoFault {α : Type} (x : Flow α) : Prop := ∀ e, x ≠ .fault e

theorem Flow.NoFault.done {α : Type} (a : α) (s : State) : (Flow.done a s).NoFault := by
  rintro _ ⟨⟩

theorem Flow.NoFault.andThen {α β : Type} {x : Flow α} {f : α → State → Flow β} (hx : x.NoFault)
    (hf : ∀ a t, x = .done a t → (f a t).NoFault) : (x.andThen f).NoFault := by
  intro e h
  rcases Flow.andThen_eq_fault.mp h with h | ⟨a, t, ha, h⟩
  · exact hx e h
  · exact hf a t ha e h

theorem BusOut.into_noFault {α : Type} (s : State) (x : BusOut α) : (x.into s).NoFault := by
  intro e h
  cases x with
  | done a u => cases h
  | hang u => cases h

theorem readChip_noFault (reg : Byte) (n : Nat) (s : State) : (readChip reg n s).NoFault := BusOut.into_noFault _ _

theorem writeChip_noFault (reg v : Byte) (s : State) : (writeChip reg v s).NoFault := BusOut.into_noFault _ _

theorem tkInitBody_noFault (s : State) : (tkInitBody s).NoFault :=
  (writeChip_noFault _ _ _).andThen fun _ _ _ => (readChip_noFault _ _ _).andThen fun _ _ _ =>
    (writeChip_noFault _ _ _).andThen fun _ _ _ => .done _ _

/-- With a time written, a halt has a byte to capture whatever its read returns (R93). -/
theorem haltByte_isSome (t : TimeRec) (rb : BusResult × List Byte) : ∃ b, haltByte (some t) rb = some b := by
  unfold haltByte
  split
  · exact ⟨_, rfl⟩
  · exact ⟨_, rfl⟩

theorem halt_noFault {s : State} {t : TimeRec} (written : s.tk.time = some t) : (halt s).NoFault := by
  refine (readChip_noFault _ _ _).andThen fun rb v hv => ?_
  obtain ⟨u, -, rfl⟩ := readChip_mem hv
  obtain ⟨b, hb⟩ := haltByte_isSome t rb
  rw [written, hb]
  exact (writeChip_noFault _ _ _).andThen fun _ _ _ => .done _ _

theorem unhalt_noFault {s : State} {b : Byte} (captured : s.tk.haltS = some b) : (unhalt s).NoFault := by
  unfold unhalt
  rw [captured]
  exact writeChip_noFault _ _ _

/-! ### The end of a mutation: the new register, then un-halt -/

/-- The last two transactions of a mutation, whose results `g` sums up (R96 to R98). -/
def writeThenUnhalt (reg byte : Byte) (g : BusResult → BusResult → BusResult) (s : State) : Flow BusResult :=
  (writeChip reg byte s).andThen fun r s => (unhalt s).andThen fun r' s => .done (g r r') s

section mutation

variable {s t : State} {reg byte h : Byte} {g : BusResult → BusResult → BusResult}

theorem writeThenUnhalt_noFault (captured : s.tk.haltS = some h) : (writeThenUnhalt reg byte g s).NoFault := by
  refine (writeChip_noFault _ _ _).andThen fun r v hv => ?_
  obtain ⟨u, rfl, -⟩ := writeChip_done hv
  exact (unhalt_noFault (s := { s with bus := u }) captured).andThen fun _ _ _ => .done _ _

theorem writeThenUnhalt_eq {r r' : BusResult} {u v : BusUnit} (captured : s.tk.haltS = some h)
    (write : memWrite s.par reg [byte] s.bus = .done r u)
    (close : memWrite s.par regSeconds [h &&& 0x7F] u = .done r' v) :
    writeThenUnhalt reg byte g s = .done (g r r') { s with bus := v } := by
  unfold writeThenUnhalt
  rw [writeChip_eq write, Flow.andThen_done, unhalt_eq (s := { s with bus := u }) captured close]
  rfl

/-- The two transactions of an end that is done. -/
theorem writeThenUnhalt_done {r : BusResult} (done : writeThenUnhalt reg byte g s = .done r t) :
    ∃ b r2 u r3 v, s.tk.haltS = some b ∧ memWrite s.par reg [byte] s.bus = .done r2 u ∧ u.phase = .idle ∧
      memWrite s.par regSeconds [b &&& 0x7F] u = .done r3 v ∧ v.phase = .idle ∧ r = g r2 r3 ∧
      t = { s with bus := v } := by
  simp only [writeThenUnhalt, Flow.andThen_eq_done] at done
  obtain ⟨r2, w, write, r3, x, close, done⟩ := done
  cases done
  obtain ⟨u, rfl, write, idle, -⟩ := writeChip_done write
  unfold unhalt at close
  split at close
  · cases close
  · next b captured =>
    obtain ⟨v, rfl, close, idle', -⟩ := writeChip_done close
    exact ⟨b, r2, u, r3, v, captured, write, idle, close, idle', rfl, rfl⟩

end mutation

/-! ### The adjustments -/

section adjustment

variable {s t : State} {t0 : TimeRec} {new : TimeRec → TimeRec} {reg : Byte} {byte : TimeRec → Byte}

/-- A mutation of a written time: halt, then its end on the new time (R96, R97). -/
theorem mutateTime_written (written : s.tk.time = some t0) :
    mutateTime new reg byte s = (halt s).andThen fun r1 s =>
      writeThenUnhalt reg (byte t0) (fun r2 r3 => firstErr [r1, r2, r3]) (s.setTime (new t0)) := by
  unfold mutateTime
  rw [written]
  rfl

theorem mutateTime_noFault (written : s.tk.time = some t0) : (mutateTime new reg byte s).NoFault := by
  rw [mutateTime_written written]
  refine (halt_noFault written).andThen fun r v hv => ?_
  obtain ⟨⟨b, captured⟩, -⟩ := halt_done hv
  exact writeThenUnhalt_noFault (h := b) (by simp [captured])

/-- A mutation from its four transactions. -/
theorem mutateTime_eq {rb : BusResult × List Byte} {h : Byte} {r2 r3 r4 : BusResult} {u1 u2 u3 u4 : BusUnit}
    (written : s.tk.time = some t0) (read : memRead s.par regSeconds 1 s.bus = .done rb u1)
    (captured : captures s.tk.time rb h) (stop : memWrite s.par regSeconds [h ||| 0x80] u1 = .done r2 u2)
    (write : memWrite s.par reg [byte t0] u2 = .done r3 u3)
    (close : memWrite s.par regSeconds [h &&& 0x7F] u3 = .done r4 u4) :
    mutateTime new reg byte s = .done (firstErr [rb.1, r2, r3, r4])
      { s with bus := u4, tk := { s.tk with time := some (new t0), haltS := some h } } := by
  rw [← firstErr_nest, mutateTime_written written, halt_eq read captured stop, Flow.andThen_done]
  exact writeThenUnhalt_eq
    (s := State.setTime (new t0) { s with bus := u2, tk := { s.tk with haltS := some h } }) rfl write close

/-- A mutation that is done has the effect of an adjustment. -/
theorem mutateTime_done {r : BusResult} (written : s.tk.time = some t0)
    (done : mutateTime new reg byte s = .done r t) : adjustEffect (new t0) reg (byte t0) s (finishTk r t) := by
  rw [mutateTime_written written, Flow.andThen_eq_done] at done
  obtain ⟨r1, v, halted, done⟩ := done
  obtain ⟨rb, u1, h, r2, u2, read, captured, stop, rfl, rfl⟩ := halt_mem halted
  obtain ⟨b, r3, u3, r4, u4, hb, write, -, close, idle, rfl, rfl⟩ := writeThenUnhalt_done done
  obtain rfl : h = b := Option.some.inj hb
  rw [firstErr_nest]
  exact ⟨rb, u1, h, r2, u2, r3, u3, r4, u4, read, captured, stop, write, close, idle, rfl⟩

end adjustment

/-! ### TK_INIT -/

theorem initSeconds_of_error {rb : BusResult × List Byte} (err : rb.1 ≠ .ok) : initSeconds rb = 0x00 := by
  obtain ⟨r, bs⟩ := rb
  cases r with
  | ok => exact absurd rfl err
  | startFailed | addressNacked | dataNacked | timeout => rfl

theorem initSeconds_of_ok {rb : BusResult × List Byte} (ok : rb.1 = .ok) (one : rb.2.length = 1) :
    ∃ b, rb.2 = [b] ∧ initSeconds rb = b &&& 0x7F := by
  obtain ⟨r, bs⟩ := rb
  obtain ⟨b, rfl⟩ := List.length_eq_one_iff.mp one
  cases ok
  exact ⟨b, rfl, rfl⟩

theorem tkInitBody_eq {s : State} {r1 r3 : BusResult} {rb : BusResult × List Byte} {u1 u2 u3 : BusUnit}
    (control : memWrite s.par regControl [0x00] s.bus = .done r1 u1)
    (read : memRead s.par regSeconds 1 u1 = .done rb u2)
    (write : memWrite s.par regSeconds [initSeconds rb] u2 = .done r3 u3) :
    tkInitBody s = .done (firstErr [r1, rb.1, r3]) (State.setTime defaultTime { s with bus := u3 }) := by
  unfold tkInitBody
  rw [writeChip_eq control, Flow.andThen_done, readChip_eq (s := { s with bus := u1 }) read, Flow.andThen_done,
    writeChip_eq (s := { s with bus := u2 }) write]
  rfl

/-- A TK_INIT whose operation is done has its whole effect (R94). -/
theorem tkInitBody_done {s t : State} {r : BusResult} (done : tkInitBody s = .done r t) :
    initEffect s (finishTk r t) := by
  simp only [tkInitBody, Flow.andThen_eq_done] at done
  obtain ⟨r1, v, first, rb, w, second, r3, x, third, done⟩ := done
  cases done
  obtain ⟨u1, rfl, control, -⟩ := writeChip_done first
  obtain ⟨u2, read, rfl⟩ := readChip_mem second
  obtain ⟨u3, rfl, write, idle, -⟩ := writeChip_done third
  exact ⟨r1, u1, rb, u2, initSeconds rb, r3, u3, control, read,
    fun ok => initSeconds_of_ok ok ((memRead_end read).2.2 ok), initSeconds_of_error, write, idle, rfl⟩

/-! ### Commands that end with their whole effect, or hang -/

/-- A command whose operation cannot fault ends, or is held in an unbounded wait; it ends if no wait hangs. -/
theorem tkCommand_completes {s : State} {x : Flow BusResult} {n : Nat} {effect : State → Prop}
    (idle : s.bus.phase = .idle) (within : x.Within s n) (frames : x.Frames s) (traces : x.Traces s)
    (noFault : x.NoFault) (done : ∀ r t, x = .done r t → effect (finishTk r t)) :
    (waitsEnd n s → ∃ t, tkCommand x s = .next t ∧ effect t) ∧
      ∃ t, tkCommand x s = .next t ∧ (effect t ∨ stuckWait s t) := by
  rw [tkCommand_idle idle]
  cases hx : x with
  | fault e => exact absurd hx (noFault e)
  | done r t => exact ⟨fun _ => ⟨_, rfl, done r t hx⟩, _, rfl, .inl (done r t hx)⟩
  | hang t => exact ⟨fun ends => absurd hx (within.not_hang ends t), _, rfl, .inr (traces.stuckWait frames hx)⟩

theorem mutateTime_completes {s : State} {t0 : TimeRec} (new : TimeRec → TimeRec) (reg : Byte) (byte : TimeRec → Byte)
    (idle : s.bus.phase = .idle) (written : s.tk.time = some t0) :
    (waitsEnd 18 s →
        ∃ t, tkCommand (mutateTime new reg byte s) s = .next t ∧ adjustEffect (new t0) reg (byte t0) s t) ∧
      ∃ t, tkCommand (mutateTime new reg byte s) s = .next t ∧
        (adjustEffect (new t0) reg (byte t0) s t ∨ stuckWait s t) :=
  tkCommand_completes idle (mutateTime_within _ _ _ s) (mutateTime_frames _ _ _ s) (mutateTime_traces _ _ _ s)
    (mutateTime_noFault written) fun _ _ => mutateTime_done written

/-! ### The bracket closes -/

/-- If the operation is done, its last transaction is the un-halt write of the captured byte, on an idle bus (R93). -/
def Flow.ClosesBracket (p : Params) (x : Flow BusResult) : Prop :=
  ∀ r t, x = .done r t → ∃ h u r', t.tk.haltS = some h ∧ u.phase = .idle ∧
    memWrite p regSeconds [h &&& 0x7F] u = .done r' t.bus

theorem Flow.ClosesBracket.andThen {α : Type} {s : State} {x : Flow α} {f : α → State → Flow BusResult}
    (hx : x.Frames s) (hf : ∀ a t, (f a t).ClosesBracket t.par) : (x.andThen f).ClosesBracket s.par := by
  intro r t h
  obtain ⟨a, u, rfl, h⟩ := Flow.andThen_eq_done.mp h
  rw [← TimeFrame.par hx]
  exact hf a u r t h

theorem writeThenUnhalt_closes (reg byte : Byte) (g : BusResult → BusResult → BusResult) (s : State) :
    (writeThenUnhalt reg byte g s).ClosesBracket s.par := by
  intro r t h
  obtain ⟨b, r2, u, r3, v, captured, -, idle, close, -, -, rfl⟩ := writeThenUnhalt_done h
  exact ⟨b, u, r3, captured, idle, close⟩

theorem mutateTime_closes (new : TimeRec → TimeRec) (reg : Byte) (byte : TimeRec → Byte) (s : State) :
    (mutateTime new reg byte s).ClosesBracket s.par := by
  unfold mutateTime
  split
  · rintro _ _ ⟨⟩
  · exact .andThen (halt_frames s) fun r1 t => writeThenUnhalt_closes _ _ _ (t.setTime _)

theorem toggleBody_closes (s : State) : (toggleBody s).ClosesBracket s.par := by
  refine .andThen (halt_frames s) fun r1 t => .andThen (refresh_frames t) fun r2 u => ?_
  split
  · rintro _ _ ⟨⟩
  · exact writeThenUnhalt_closes _ _ _ (u.setTime _)

/-! ### The refresh, in TK_REFRESH and ISR_SLOW -/

/-- A refresh that is done has the frame of a TimeKeeper operation. -/
theorem refresh_frame {s t : State} {r : BusResult} (done : refresh s = .done r t) : TimeFrame s t := by
  have frames := refresh_frames s
  rwa [done] at frames

/-- A refresh that does not fault leaves the time `t0`: the one it read, or the old one after an error (R95). -/
theorem refresh_eq {s : State} {t0 : TimeRec} {rr : BusResult × List Byte} {u : BusUnit}
    (read : memRead s.par regSeconds 3 s.bus = .done rr u) (err : rr.1 ≠ .ok → s.tk.time = some t0)
    (ok : rr.1 = .ok → ∃ b0 b1 b2, rr.2 = [b0, b1, b2] ∧ decodeTime b0 b1 b2 = some t0) :
    refresh s = .done rr.1 (State.setTime t0 { s with bus := u }) := by
  by_cases hr : rr.1 = .ok
  · obtain ⟨b0, b1, b2, bytes, decodes⟩ := ok hr
    obtain rfl : rr = (.ok, [b0, b1, b2]) := Prod.ext hr bytes
    exact refresh_decoded read decodes
  · rw [refresh_failed read hr, State.setTime, ← err hr]

/-- A refresh that hangs has changed nothing but the Bus unit. -/
theorem refresh_hang {s t : State} (h : refresh s = .hang t) : ∃ u, t = { s with bus := u } := by
  rcases Flow.andThen_eq_hang.mp h with h | ⟨rb, v, -, h⟩
  · unfold readChip at h
    cases hm : memRead s.par regSeconds 3 s.bus with
    | done a u => rw [hm] at h; cases h
    | hang u => rw [hm] at h; cases h; exact ⟨u, rfl⟩
  · split at h
    · split at h <;> cases h
    · cases h

theorem exec_isrSlow_of_done {s t : State} {r : BusResult} (h : refresh s = .done r t) : exec .isrSlow s = .next t := by
  rw [exec, execIsrSlow, h]
  rfl

theorem exec_isrSlow_of_fault {s : State} {e : Fault} (h : refresh s = .fault e) : exec .isrSlow s = .fault e := by
  rw [exec, execIsrSlow, h]
  rfl

/-! ### TK_TOGGLE_MODE -/

theorem toggleBody_eq {s v w : State} {t0 : TimeRec} {r1 r2 : BusResult} (halted : halt s = .done r1 v)
    (refreshed : refresh v = .done r2 w) (written : w.tk.time = some t0) :
    toggleBody s = writeThenUnhalt regHours (hourByte t0.toggleMode) (fun r3 r4 => firstErr [r1, r2, r3, r4])
      (w.setTime t0.toggleMode) := by
  unfold toggleBody
  rw [halted, Flow.andThen_done, refreshed, Flow.andThen_done, written]
  rfl

/-- A toggle whose re-read gives bytes that do not decode faults, with the captured byte kept (R98, R144). -/
theorem exec_tkToggleMode_invalid {s : State} {rb : BusResult × List Byte} {h b0 b1 b2 : Byte} {r2 : BusResult}
    {u1 u2 u3 : BusUnit} (idle : s.bus.phase = .idle) (read : memRead s.par regSeconds 1 s.bus = .done rb u1)
    (captured : captures s.tk.time rb h) (stop : memWrite s.par regSeconds [h ||| 0x80] u1 = .done r2 u2)
    (reread : memRead s.par regSeconds 3 u2 = .done (.ok, [b0, b1, b2]) u3) (invalid : decodeTime b0 b1 b2 = none) :
    exec .tkToggleMode s =
      .fault (.rtcDataInvalid { s with bus := u3, tk := { s.tk with haltS := some h } }) := by
  have refreshed := refresh_invalid (s := { s with bus := u2, tk := { s.tk with haltS := some h } }) reread invalid
  refine tkCommand_of_fault idle ?_
  rw [toggleBody, halt_eq read captured stop, Flow.andThen_done, refreshed]
  rfl

/-! ### The last byte of a read -/

/-- The data bytes of a read that is Ok leave the last of them in `bus_data` (R83). -/
theorem readBytes_data {p : Params} {n : Nat} {u v : BusUnit} {rb : BusResult × List Byte}
    (h : readBytes p n u = .done rb v) (ok : rb.1 = .ok) : v.data = rb.2.getLast?.or u.data := by
  induction n generalizing u v rb with
  | zero => cases h; rfl
  | succ n ih =>
    simp only [readBytes, BusOut.andThen_eq_done] at h
    obtain ⟨⟨r, ob⟩, w, first, h⟩ := h
    split at h
    · next b heq =>
      cases heq
      obtain ⟨b', hb, data⟩ := (engineRead_result first).2 rfl
      obtain rfl : b = b' := Option.some.inj hb
      simp only [BusOut.andThen_eq_done] at h
      obtain ⟨rest, x, hx, h⟩ := h
      split at h
      · next hok =>
        cases h
        simp [ih hx hok, data, List.getLast?_cons]
      · next hok => cases h; exact absurd ok hok
    · next r' ob' hne heq =>
      cases heq
      cases h
      obtain ⟨b, hb, -⟩ := (engineRead_result first).2 ok
      exact absurd hb (hne b ok)

theorem memRead_data {p : Params} {reg : Byte} {n : Nat} {u v : BusUnit} {rb : BusResult × List Byte} {b : Byte}
    (h : memRead p reg n u = .done rb v) (ok : rb.1 = .ok) (last : rb.2.getLast? = some b) : v.data = some b := by
  rw [memRead_eq, BusOut.andThen_eq_done] at h
  obtain ⟨r, w, -, h⟩ := h
  split at h
  · obtain ⟨rb', x, read, h⟩ := BusOut.andThen_eq_done.mp h
    cases h
    simp [readBytes_data read ok, last]
  · next hr => cases h; exact absurd ok hr

end Sys2Proof.Machine
end

section
/-!
SUPPORT. The TimeKeeper operations with every action granted (spec/42_timekeeper.md R93 to R98): each is its
transactions one after the other, and each transaction leaves its transcript on the bus.
-/

namespace Sys2Proof.Machine

theorem BusUnit.taken_idle {u : BusUnit} (idle : u.phase = .idle) :
    u = u.taken 0 .idle u.result u.data u.wire := by
  rw [← idle, ← u.taken_zero]

/-- The byte a halt captures from a read that is Ok (R93). -/
theorem captures_of_ok (time : Option TimeRec) (b : Byte) : captures time (.ok, [b]) b :=
  ⟨fun _ => rfl, fun err => absurd rfl err⟩

section granted

variable {s : State}

/-- A read of the seconds register, granted from an idle bus. -/
theorem readSeconds_granted (m : Nat) (idle : s.bus.phase = .idle)
    (granted : grantsAll s.par s.bus 0 (readStatuses m) = true) :
    memRead s.par regSeconds (m + 1) s.bus = .done (.ok, s.bus.bytes 5 (m + 1))
      (s.bus.taken (5 + m + 1) .idle .ok (some (s.bus.comingAnswer (5 + m)).byte)
        (s.bus.wire ++ readTranscript s.par regSeconds m)) := by
  have run := memRead_granted (reg := regSeconds) (r := s.bus.result) (d := s.bus.data) (w := s.bus.wire) granted
  rw [← BusUnit.taken_idle idle] at run
  simpa only [Nat.zero_add] using run

/-- TK_INIT: the control register cleared, the seconds byte read and written back (R94). -/
theorem tkInitBody_granted (idle : s.bus.phase = .idle)
    (granted : grantsAll s.par s.bus 0 (writeStatuses ++ readStatuses 0 ++ writeStatuses) = true) :
    ∃ u, tkInitBody s = .done .ok (State.setTime defaultTime { s with bus := u }) ∧ u.result = .ok ∧
      u.data = some (s.bus.comingAnswer 9).byte ∧
      u.wire = s.bus.wire ++ writeTranscript s.par regControl 0x00 ++ readTranscript s.par regSeconds 0 ++
        writeTranscript s.par regSeconds ((s.bus.comingAnswer 9).byte &&& 0x7F) := by
  simp only [grantsAll_append] at granted
  obtain ⟨⟨control, read⟩, write⟩ := granted
  exact ⟨_, tkInitBody_eq ((congrArg _ (BusUnit.taken_idle idle)).trans (memWrite_granted control))
    (memRead_granted (m := 0) read) (memWrite_granted write), rfl, rfl, rfl⟩

/-- A mutation of a written time: read, halt, the new register, un-halt (R93, R96, R97). -/
theorem mutateTime_granted {t0 : TimeRec} (new : TimeRec → TimeRec) (reg : Byte) (byte : TimeRec → Byte)
    (idle : s.bus.phase = .idle) (written : s.tk.time = some t0)
    (granted : grantsAll s.par s.bus 0 (readStatuses 0 ++ writeStatuses ++ writeStatuses ++ writeStatuses) = true) :
    ∃ u, mutateTime new reg byte s = .done .ok { s with
        bus := u, tk := { s.tk with time := some (new t0), haltS := some (s.bus.comingAnswer 5).byte } } ∧
      u.wire = s.bus.wire ++ readTranscript s.par regSeconds 0 ++
        writeTranscript s.par regSeconds ((s.bus.comingAnswer 5).byte ||| 0x80) ++
        writeTranscript s.par reg (byte t0) ++
        writeTranscript s.par regSeconds ((s.bus.comingAnswer 5).byte &&& 0x7F) := by
  simp only [grantsAll_append] at granted
  obtain ⟨⟨⟨read, stop⟩, write⟩, close⟩ := granted
  exact ⟨_, mutateTime_eq written (readSeconds_granted 0 idle read) (captures_of_ok _ _) (memWrite_granted stop)
    (memWrite_granted write) (memWrite_granted close), rfl⟩

end granted

end Sys2Proof.Machine
end

section
open Sys2Proof Sys2Proof.Machine

/-- Settles O30: the operation of TK_INIT cannot fault, and what is done is the whole effect. -/
theorem tkInitCompletes : Obligations.TkInitCompletes := fun s idle =>
  tkCommand_completes idle (tkInitBody_within s) (tkInitBody_frames s) (tkInitBody_traces s) (tkInitBody_noFault s)
    fun _ _ => tkInitBody_done

/-- Settles O31: the granted read is the refresh's one transaction. -/
theorem tkRefreshReadsTheChip : Obligations.TkRefreshReadsTheChip := by
  intro s t0 idle granted decodes
  have done := refresh_decoded (readSeconds_granted 2 idle granted) decodes
  exact ⟨_, tkCommand_of_done idle done, rfl, rfl, ⟨rfl, rfl, rfl, rfl, rfl⟩, rfl, rfl, rfl, rfl, rfl⟩

/-- Settles O32: a refresh after an error changes nothing but the Bus unit. -/
theorem refreshErrorKeepsTime : Obligations.RefreshErrorKeepsTime := by
  refine ⟨fun s rb u idle read err => ?_, fun s t => ⟨fun h error hung => ?_, fun h error => ?_⟩⟩
  · have failed := refresh_failed read err
    obtain ⟨stopped, result, -⟩ := memRead_end read
    exact ⟨tkCommand_of_done idle failed, exec_isrSlow_of_done failed, stopped, result⟩
  · obtain ⟨r, u, done, rfl⟩ := tkCommand_completed h hung
    have frame : TimeFrame s u := refresh_frame done
    obtain ⟨stopped, rfl, ⟨ok, -⟩ | ⟨-, tk⟩⟩ := refresh_done done
    · exact absurd ok error
    · exact ⟨by simp [finishTk, tk], stopped, by rw [finishTk_fg, frame.fg]; rfl, frame.outside⟩
  · rcases Flow.ending_eq_next h with ⟨r, u, done, rfl⟩ | ⟨u, hang, rfl⟩
    · have frame : TimeFrame s t := refresh_frame done
      obtain ⟨-, rfl, ⟨ok, -⟩ | ⟨-, tk⟩⟩ := refresh_done done
      · exact absurd ok error
      · exact ⟨tk, frame.fg, frame.outside⟩
    · obtain ⟨v, rfl⟩ := refresh_hang hang
      exact ⟨rfl, rfl, rfl, rfl, rfl, rfl, rfl⟩

/-- Settles O33: the refresh faults, after the halt in a toggle. -/
theorem undecodableBytesFault : Obligations.UndecodableBytesFault := by
  intro s idle
  refine ⟨fun granted invalid => ?_, fun granted invalid => ?_, ?_⟩
  · have fault := refresh_invalid (readSeconds_granted 2 idle granted) invalid
    exact ⟨_, tkCommand_of_fault idle fault, exec_isrSlow_of_fault fault, rfl, rfl, rfl⟩
  · simp only [grantsAll_append] at granted
    obtain ⟨⟨read, stop⟩, reread⟩ := granted
    exact ⟨_, exec_tkToggleMode_invalid idle (readSeconds_granted 0 idle read) (captures_of_ok _ _)
      (memWrite_granted stop) (memRead_granted (m := 2) reread) invalid, rfl, rfl, rfl⟩
  · intro rb h b0 b1 b2 r2 u1 u2 u3 read captured stop reread invalid
    obtain ⟨stopped, result, -⟩ := memRead_end reread
    exact ⟨exec_tkToggleMode_invalid idle read captured stop reread invalid, stopped, result,
      memRead_data reread rfl rfl⟩

/-- Settles O34: with a time written the operation cannot fault, and what is done is the whole adjustment. -/
theorem tkAdjMinCompletes : Obligations.TkAdjMinCompletes := by
  intro s dir t0 t1 m2 idle written hm ht
  obtain rfl : m2 = minStep t0.min.toNat dir := by rw [hm]; cases dir <;> rfl
  subst ht
  exact mutateTime_completes (fun t => t.adjustMinute dir) regMinutes (fun t => bcd (minStep t.min.toNat dir)) idle
    written

/-- Settles O35: as O34, with R92's hour and period those of `hourStep`. -/
theorem tkAdjHourCompletes : Obligations.TkAdjHourCompletes := by
  intro s dir t0 t1 h2 p2 idle written hour period ht
  have step : hourStep t0.mode t0.hr.toNat t0.period dir = (h2, p2) := by
    subst period hour
    cases t0.mode with
    | h24 => cases dir <;> rfl
    | h12 =>
      cases dir with
      | up => exact (hourStep12_up_eq ..).trans (by rw [DayPeriod.flip_eq])
      | down => exact (hourStep12_down_eq ..).trans (by rw [DayPeriod.flip_eq])
  obtain rfl : t0.adjustHour dir = t1 := by rw [ht, TimeRec.adjustHour, step]
  exact mutateTime_completes (fun t => t.adjustHour dir) regHours (fun t => hourByte (t.adjustHour dir)) idle written

/-- Settles O36: the granted transactions, one after the other. -/
theorem initAndAdjustmentTranscripts : Obligations.InitAndAdjustmentTranscripts := by
  refine ⟨fun s idle granted => ?_, ?_⟩
  · obtain ⟨u, done, ok, data, wire⟩ := tkInitBody_granted idle granted
    exact ⟨_, tkCommand_of_done idle done, rfl, ok, data, wire⟩
  · rintro s dir t0 _ m2 idle written granted hm rfl
    obtain rfl : m2 = minStep t0.min.toNat dir := by rw [hm]; cases dir <;> rfl
    constructor
    · obtain ⟨u, done, wire⟩ := mutateTime_granted (fun t => t.adjustMinute dir) regMinutes
        (fun t => bcd (minStep t.min.toNat dir)) idle written granted
      exact ⟨_, tkCommand_of_done idle done, rfl, rfl, wire⟩
    · obtain ⟨u, done, wire⟩ := mutateTime_granted (fun t => t.adjustHour dir) regHours
        (fun t => hourByte (t.adjustHour dir)) idle written granted
      exact ⟨_, _, tkCommand_of_done idle done, rfl, rfl, rfl, wire⟩

/-- Settles O37: each mutation ends with `writeThenUnhalt`. -/
theorem bracketAlwaysCloses : Obligations.BracketAlwaysCloses := by
  rintro s t dir i (rfl | rfl | rfl) h hung
  · obtain ⟨r, u, done, rfl⟩ := tkCommand_completed h hung
    exact mutateTime_closes _ _ _ s r u done
  · obtain ⟨r, u, done, rfl⟩ := tkCommand_completed h hung
    exact mutateTime_closes _ _ _ s r u done
  · obtain ⟨r, u, done, rfl⟩ := tkCommand_completed h hung
    exact toggleBody_closes s r u done

/-- Settles O39: halt, re-read, conversion and the closing writes, each from its transaction. -/
theorem tkToggleModeEnds : Obligations.TkToggleModeEnds := by
  intro s t0 rb rr h r2 r4 r5 u1 u2 u3 u4 u5 idle read captured stop reread old new write close
  have halted := halt_eq read captured stop
  have refreshed := refresh_eq (s := { s with bus := u2, tk := { s.tk with haltS := some h } }) reread old new
  have ended := (toggleBody_eq halted refreshed rfl).trans (writeThenUnhalt_eq rfl write close)
  rw [firstErr_nest] at ended
  exact ⟨tkCommand_of_done idle ended, (memWrite_end close).1⟩

/-- Settles O38: the five granted transactions, in the end that O39 gives. -/
theorem tkToggleModeConverts : Obligations.TkToggleModeConverts := by
  rintro s t0 _ idle granted rfl decodes
  simp only [grantsAll_append] at granted
  obtain ⟨⟨⟨⟨read, stop⟩, reread⟩, write⟩, close⟩ := granted
  obtain ⟨ends, rest⟩ := tkToggleModeEnds s t0 _ _ _ _ _ _ _ _ _ _ _ idle (readSeconds_granted 0 idle read)
    (captures_of_ok _ _) (memWrite_granted stop) (memRead_granted (m := 2) reread) (fun err => absurd rfl err)
    (fun _ => ⟨_, _, _, rfl, decodes⟩) (memWrite_granted write) (memWrite_granted close)
  exact ⟨_, ends, rfl, rfl, rest, rfl, ⟨rfl, rfl, rfl, rfl, rfl⟩, rfl⟩

end

section
/-!
SUPPORT. The key bands as intervals of samples (spec/43_keydecoder.md R100, R101, D30): each key is decoded from the
samples of one interval, closed below and open above, and from no others.
-/

namespace Sys2Proof.Machine

/-- The first sample of a key's band (R100). -/
def bandLow (p : Params) : Key → Nat
  | some .b1 => 0
  | some .b2 => p.keyT1
  | some .b3 => p.keyT2
  | some .b4 => p.keyT3
  | none => p.keyT4

/-- The sample after the last of a key's band; that of None reaches to the end of the converter's range (R100, R102). -/
def bandEnd (p : Params) : Key → Nat
  | some .b1 => p.keyT1
  | some .b2 => p.keyT2
  | some .b3 => p.keyT3
  | some .b4 => p.keyT4
  | none => 2 ^ 10

/-- A sample lies in the band of the key it decodes to, whatever the boundaries are. -/
theorem mem_band (p : Params) (x : Sample) : bandLow p (band p x) ≤ x.toNat ∧ x.toNat < bandEnd p (band p x) := by
  unfold band
  split_ifs with below1 below2 below3 below4
  · exact ⟨Nat.zero_le _, below1⟩
  · exact ⟨Nat.le_of_not_lt below1, below2⟩
  · exact ⟨Nat.le_of_not_lt below2, below3⟩
  · exact ⟨Nat.le_of_not_lt below3, below4⟩
  · exact ⟨Nat.le_of_not_lt below4, x.isLt⟩

variable {p : Params} {x : Sample} {k : Key}

/-- With the boundaries in order, a sample of a key's band is in no band tested before it. -/
theorem band_eq_of_mem (ok : p.ok) (low : bandLow p k ≤ x.toNat) (high : x.toNat < bandEnd p k) : band p x = k := by
  obtain ⟨-, -, -, -, -, -, -, t12, t23, t3, t4, -⟩ := ok
  rcases k with _ | _ | _ | _ | _ <;> simp only [bandLow, bandEnd] at low high
  case none => rw [band, if_neg (by omega), if_neg (by omega), if_neg (by omega), if_neg (by omega)]
  case some.b1 => rw [band, if_pos high]
  case some.b2 => rw [band, if_neg (by omega), if_pos high]
  case some.b3 => rw [band, if_neg (by omega), if_neg (by omega), if_pos high]
  case some.b4 => rw [band, if_neg (by omega), if_neg (by omega), if_neg (by omega), if_pos high]

/-- The samples that decode to a key are those of its band. -/
theorem band_eq_iff (ok : p.ok) : band p x = k ↔ bandLow p k ≤ x.toNat ∧ x.toNat < bandEnd p k := by
  constructor
  · rintro rfl
    exact mem_band p x
  · rintro ⟨low, high⟩
    exact band_eq_of_mem ok low high

end Sys2Proof.Machine
end

section
open Sys2Proof Sys2Proof.Machine

/-- Settles O46: the command's one meaning, which is the completion of R22 and R23 after the draw. -/
theorem keyDecodeResult : Obligations.KeyDecodeResult :=
  ⟨decodeOfEncode .keyDecode rfl, fun _ => rfl⟩

/-- Settles O47: each band is its interval, of which the first has no lower bound to meet and None's no upper one; R101
puts the source's samples in theirs. -/
theorem bandsClassifySamples : Obligations.BandsClassifySamples := by
  intro p x ok
  have ⟨_, _, _, _, _, _, inBand1, _, _, fromT3, belowT4, aboveT4⟩ := ok
  refine ⟨?_, band_eq_iff ok, band_eq_iff ok, band_eq_iff ok, ?_, ?_, ?_, ?_⟩
  · exact (band_eq_iff ok).trans (and_iff_right (Nat.zero_le _))
  · exact (band_eq_iff ok).trans (and_iff_left x.isLt)
  · exact band_eq_of_mem ok fromT3 belowT4
  · exact band_eq_of_mem ok (Nat.zero_le _) inBand1
  · exact band_eq_of_mem ok aboveT4 (BitVec.isLt _)

end

section
/-!
SUPPORT. The debounce step, state by state (spec/44_debounce.md R106 to R111): what a matched and an unmatched step make
of a button's record in Idle, Pushed and Released.
-/

namespace Sys2Proof.Machine

variable {p : Params} {b : Button}

/-- Below the widest count, counting one up does not wrap (R8). -/
theorem count_succ_toNat {c : BitVec 16} (narrow : c.toNat < 2 ^ 16 - 1) : (c + 1).toNat = c.toNat + 1 :=
  BitVec.toNat_add_of_lt (show c.toNat + 1 < 2 ^ 16 by omega)

/-- The count that an Idle step compares with T_DETECT: one up on a match, else one down, resting at 0 (R107). -/
def idleCount (matched : Bool) (c : BitVec 16) : BitVec 16 :=
  if matched then c + 1 else if c ≠ 0 then c - 1 else c

theorem idleCount_toNat (matched : Bool) {c : BitVec 16} (narrow : c.toNat < 2 ^ 16 - 1) :
    (idleCount matched c).toNat = if matched then c.toNat + 1 else c.toNat - 1 := by
  cases matched with
  | true => exact count_succ_toNat narrow
  | false =>
    simp only [idleCount, Bool.false_eq_true, if_false]
    split
    · bv_omega
    · next rest => simp [not_not.mp rest]

/-- The update that opens an Idle step is of the count alone. -/
theorem idleStep_update (matched : Bool) (b : Button) :
    (if matched then b.bump else if b.count ≠ 0 then { b with count := b.count - 1 } else b) =
      { b with count := idleCount matched b.count } := by
  unfold idleCount
  split
  · rfl
  · split <;> rfl

/-- R107: an Idle step, by where the count goes. -/
theorem bstep_idle (matched : Bool) (hs : b.state = .idle) :
    bstep p matched b =
      if p.tDetect ≤ (idleCount matched b.count).toNat then
        { b with state := .pushed, count := 0, action := true, lock := true, delay2 := false }
      else if idleCount matched b.count = 0 then
        { b with count := idleCount matched b.count, action := false, lock := false, query := false, delay2 := false }
      else { b with count := idleCount matched b.count, delay2 := false } := by
  have update := idleStep_update matched { b with delay2 := false }
  have opened : bstep p matched b = idleStep p matched { b with delay2 := false } := by simp only [bstep, hs]
  rw [opened, idleStep, update]

/-- R108, R109: a matched Pushed step counts, latches the hold flags and pulses. -/
theorem bstep_pushed_matched (hs : b.state = .pushed) :
    bstep p true b = { latchHolds p b.bump with delay2 := pulses p (latchHolds p b.bump) } := by
  simp [bstep, hs, pushedStep, latchHolds, Button.bump, pulses]

/-- R110: an unmatched Pushed step begins the quiet period and keeps the flags (D51). -/
theorem bstep_pushed_unmatched (hs : b.state = .pushed) :
    bstep p false b = { b with state := .released, count := 0, delay2 := false } := by
  simp [bstep, hs, pushedStep]

/-- R111: a match in Released restarts the quiet period (D36). -/
theorem bstep_released_matched (hs : b.state = .released) :
    bstep p true b = { b with count := 0, delay2 := false } := by
  simp [bstep, hs, releasedStep]

/-- R111: an unmatched Released step counts the quiet period, whose end leaves the record that reset does. -/
theorem bstep_released_unmatched (hs : b.state = .released) :
    bstep p false b =
      if p.tRelease ≤ (b.count + 1).toNat then Button.reset
      else { b with count := b.count + 1, delay2 := false } := by
  simp [bstep, hs, releasedStep, Button.bump, Button.reset]

/-- R117: a matched Idle step that does not reach T_DETECT only counts. -/
theorem bstep_idle_matched_below (hs : b.state = .idle) (width : p.tDetect < 2 ^ 16)
    (below : b.count.toNat + 1 < p.tDetect) :
    bstep p true b = { b with count := b.count + 1, delay2 := false } := by
  have counted : (idleCount true b.count).toNat = b.count.toNat + 1 := idleCount_toNat true (by omega)
  have nonzero : idleCount true b.count ≠ 0 := by
    intro zero
    simp [zero] at counted
  rw [bstep_idle true hs, if_neg (by omega), if_neg nonzero]
  rfl

/-- R117: matched steps from rest count up in Idle, as long as they are fewer than T_DETECT. -/
theorem iterate_bstep_idle (width : p.tDetect < 2 ^ 16) (hs : b.state = .idle) (rest : b.count = 0) (k : Nat)
    (below : k < p.tDetect) :
    (Nat.iterate (bstep p true) k b).state = .idle ∧ (Nat.iterate (bstep p true) k b).count.toNat = k := by
  induction k with
  | zero => simp [hs, rest]
  | succ k ih =>
    obtain ⟨idle, count⟩ := ih (by omega)
    rw [Function.iterate_succ_apply', bstep_idle_matched_below idle width (by omega)]
    exact ⟨idle, (count_succ_toNat (by omega)).trans (by rw [count])⟩

end Sys2Proof.Machine
end

section
/-!
SUPPORT. The operands of the debounce and button commands (spec/30_encoding.md R61, R64): a key or button code that is
not reserved names its key or button, and a reserved one names none.
-/

namespace Sys2Proof.Machine

@[simp] theorem buttonOfCode_code (i : ButtonId) : buttonOfCode i.code = some i := by
  cases i <;> rfl

@[simp] theorem keyOfCode_keyCode (k : Key) : keyOfCode (keyCode k) = some k := by
  rcases k with _ | _ | _ | _ | _ <;> rfl

/-- The code of a key is a button's number exactly when the key is that button (R68). -/
theorem keyCode_eq_code_iff (k : Key) (i : ButtonId) : keyCode k = i.code ↔ k = some i := by
  rcases k with _ | _ | _ | _ | _ <;> cases i <;> decide

/-- The codes 0 to 4 are those of the keys (R68). -/
theorem exists_keyCode_eq {c : BitVec 3} (h : c.toNat ≤ 4) : ∃ k, keyCode k = c := by
  have codes : ∀ c : BitVec 3, c.toNat ≤ 4 → c = 0 ∨ c = 1 ∨ c = 2 ∨ c = 3 ∨ c = 4 := by decide
  rcases codes c h with rfl | rfl | rfl | rfl | rfl
  exacts [⟨none, rfl⟩, ⟨some .b1, rfl⟩, ⟨some .b2, rfl⟩, ⟨some .b3, rfl⟩, ⟨some .b4, rfl⟩]

/-- The button ids 0 and 5 to 7 name no button (R64). -/
theorem buttonOfCode_reserved : ∀ c : BitVec 3, c.toNat = 0 ∨ 5 ≤ c.toNat → buttonOfCode c = none := by
  decide

/-- The key codes 5 to 7 name no key (R64). -/
theorem keyOfCode_reserved : ∀ c : BitVec 3, 5 ≤ c.toNat → keyOfCode c = none := by
  decide

theorem keyCodeOk_keyCode (k : Key) : keyCodeOk (keyCode k) = true := by
  rcases k with _ | _ | _ | _ | _ <;> rfl

theorem buttonCodeOk_code (i : ButtonId) : buttonCodeOk i.code = true := by
  cases i <;> rfl

/-- DEB_STEP_K with the code of a key steps the buttons with that key (R113). -/
theorem exec_debStepK_keyCode (k : Key) (s : State) :
    exec (.debStepK (keyCode k)) s = .next (stepButtons k s).advance := by
  simp [exec, execDebStepK]

theorem exec_btnGet_code (i : ButtonId) (s : State) :
    exec (.btnGet i.code) s = .next (s.respond (.button i (s.keys.btn.get i))).advance := by
  simp [exec, execBtnGet]

theorem exec_btnConsume_code (i : ButtonId) (s : State) : exec (.btnConsume i.code) s =
    .next ({ s with keys := { s.keys with btn := s.keys.btn.consumeAction i } }).advance := by
  simp [exec, execBtnConsume]

/-- Consuming one button's action clears that flag and leaves the other buttons (R115). -/
theorem Buttons.get_consumeAction (b : Buttons) (i j : ButtonId) :
    (b.consumeAction i).get j = if j = i then { b.get i with action := false } else b.get j :=
  Buttons.get_set b i j _

end Sys2Proof.Machine
end

section
open Sys2Proof Sys2Proof.Machine

/-- Settles O49: the three ends of an Idle step, by where its count goes. -/
theorem idleStep : Obligations.IdleStep := by
  intro p b m n hs narrow hn
  obtain rfl : n = (idleCount m b.count).toNat := hn.trans (idleCount_toNat m narrow).symm
  rw [bstep_idle m hs]
  refine ⟨fun reached => ?_, fun below zero => ?_, fun below nonzero => ?_⟩
  · rw [if_pos reached]
  · have count_zero : idleCount m b.count = 0 := BitVec.eq_of_toNat_eq zero
    rw [if_neg (Nat.not_le_of_lt below), if_pos count_zero, count_zero]
  · rw [if_neg (Nat.not_le_of_lt below), if_neg (fun zero => nonzero (by simp [zero])), BitVec.ofNat_toNat,
      BitVec.setWidth_eq]

/-- Settles O50: the wrapped count is the stored one, on which the latches and the pulse rest. -/
theorem pushedMatchedStep : Obligations.PushedMatchedStep := by
  rintro p b n hs rfl
  have stored : (b.count + 1).toNat = (b.count.toNat + 1) % 2 ^ 16 := BitVec.toNat_add _ _
  refine ⟨?_, ?_⟩
  · rw [bstep_pushed_matched hs, ← stored, BitVec.ofNat_toNat, BitVec.setWidth_eq]
    simp [latchHolds, Button.bump, pulses, beq_eq_decide]
  · simp [bstep_pushed_unmatched hs]

/-- Settles O51: the steps of Pushed and Released, below the width of the count. -/
theorem releaseSteps : Obligations.ReleaseSteps := by
  intro p b
  refine ⟨bstep_pushed_unmatched, bstep_released_matched, fun hs narrow below => ?_, fun hs narrow reached => ?_⟩
  · rw [bstep_released_unmatched hs, count_succ_toNat narrow, if_neg (Nat.not_le_of_lt below)]
  · rw [bstep_released_unmatched hs, count_succ_toNat narrow, if_pos reached, Button.reset]

/-- Settles O52: of the steps that leave Pushed or Released, only the end of the quiet period touches `action`. -/
theorem actionIsKept : Obligations.ActionIsKept := by
  intro p b m active action
  match hs : b.state, m with
  | .idle, _ => exact absurd hs active
  | .pushed, true =>
    rw [bstep_pushed_matched hs]
    exact .inl ⟨active, action⟩
  | .pushed, false =>
    rw [bstep_pushed_unmatched hs]
    exact .inl ⟨nofun, action⟩
  | .released, true =>
    rw [bstep_released_matched hs]
    exact .inl ⟨active, action⟩
  | .released, false =>
    rw [bstep_released_unmatched hs]
    split
    · next reached => exact .inr ⟨rfl, rfl, reached, rfl⟩
    · exact .inl ⟨active, action⟩

/-- Settles O53: the step after T_DETECT - 1 matched ones, which only count, is the one that reaches T_DETECT. -/
theorem pressIsDetected : Obligations.PressIsDetected := by
  intro p b k positive width hs rest
  refine ⟨iterate_bstep_idle width hs rest k, ?_⟩
  obtain ⟨d, hd⟩ : ∃ d, p.tDetect = d + 1 := ⟨p.tDetect - 1, by omega⟩
  obtain ⟨idle, count⟩ := iterate_bstep_idle width hs rest d (by omega)
  have counted := idleCount_toNat true (c := (Nat.iterate (bstep p true) d b).count) (by omega)
  rw [hd, Function.iterate_succ_apply', bstep_idle true idle, if_pos (by rw [counted, if_pos rfl]; omega)]
  exact ⟨rfl, rfl, rfl, rfl⟩

/-- Settles O48: a key that is not reserved is the code of a key, with which all buttons step, each by its own match. -/
theorem debounceCommands : Obligations.DebounceCommands := by
  refine ⟨decodeOfEncode .debStep rfl, fun s key => ⟨?_, fun named => ?_, fun reserved => ?_⟩⟩
  · refine ⟨s.keys.btn.step s.par s.keys.keyReg, fun i => ?_, rfl⟩
    rw [Buttons.get_step, beq_eq_decide]
  · obtain ⟨k, rfl⟩ := exists_keyCode_eq named
    refine ⟨decodeOfEncode (.debStepK (keyCode k)) (keyCodeOk_keyCode k), s.keys.btn.step s.par k, fun i => ?_,
      exec_debStepK_keyCode k s⟩
    simp [Buttons.get_step, keyCode_eq_code_iff, beq_eq_decide]
  · simp [exec, execDebStepK, keyOfCode_reserved key reserved]

/-- Settles O54: an id that is not reserved names its button, the only one whose `action` is consumed. -/
theorem buttonCommands : Obligations.ButtonCommands := by
  refine fun s id => ⟨?_, fun reserved => ?_⟩
  · rintro i rfl
    refine ⟨decodeOfEncode (.btnGet i.code) (buttonCodeOk_code i),
      decodeOfEncode (.btnConsume i.code) (buttonCodeOk_code i), exec_btnGet_code i s,
      s.keys.btn.consumeAction i, ?_, fun j other => ?_, exec_btnConsume_code i s⟩
    · rw [Buttons.get_consumeAction, if_pos rfl]
    · rw [Buttons.get_consumeAction, if_neg other]
  · simp [exec, execBtnGet, execBtnConsume, buttonOfCode_reserved id reserved]

end

section
/-!
SUPPORT. The Scheduler unit's words (spec/45_scheduler.md R121 to R127): the counters of ISR_FAST as numbers and the
output it loads, the three moves of WAIT_TICK, and DISP_SET_DIGIT by whether its digit code is legal.
-/

namespace Sys2Proof.Machine

/-! ### ISR_FAST (R123) -/

/-- The selector wraps after the fourth position (R123). -/
theorem nextSel_toNat (sel : BitVec 2) : (sel + 1).toNat = (sel.toNat + 1) % 4 := BitVec.toNat_add sel 1

/-- The fade counter wraps after its sixth level (R123). -/
theorem nextFade_toNat (f : BitVec 3) : (nextFade f).toNat = (f.toNat + 1) % 6 := by
  rw [nextFade, BitVec.toNat_ofNat, fadeLevels]
  omega

/-- The fast handler drives its new position: the digit there, or BLANK while the display is off (R123, R127). -/
theorem Scheduler.fastBody_outVal_eq (c : Scheduler) :
    c.fastBody.outVal = if c.dispOn then c.digits.get c.fastBody.outPos else blank := rfl

theorem Scheduler.fastBody_outVal_off {c : Scheduler} (off : c.dispOn = false) : c.fastBody.outVal = blank := by
  simp [c.fastBody_outVal_eq, off]

/-- A digit that is written is what the fast handler drives at its position, and at no other (R126). -/
theorem Scheduler.fastBody_outVal_set (c : Scheduler) (pos : BitVec 2) (val : BitVec 4) :
    ({ c with digits := c.digits.set pos val }).fastBody.outVal =
      if c.fastBody.outPos = pos ∧ c.dispOn then val else c.fastBody.outVal := by
  have drives : ({ c with digits := c.digits.set pos val }).fastBody.outVal =
      if c.dispOn then (c.digits.set pos val).get c.fastBody.outPos else blank := rfl
  rw [drives, Digits.get_set, c.fastBody_outVal_eq]
  cases c.dispOn <;> simp

/-! ### WAIT_TICK (R125) -/

section waitTick

variable {s : State}

theorem exec_waitTick_enters (entry : s.sched.fgWait = false) (idle : s.bus.phase = .idle) :
    exec .waitTick s = .next (enterWait s) := by
  simp [exec, execWaitTick, entry, idle]

theorem exec_waitTick_completes (inside : s.sched.fgWait = true) (ctx : s.sched.ctx = .fg)
    (ready : s.sched.loopReady = true) : exec .waitTick s = .next (completeWait s) := by
  simp [exec, execWaitTick, inside, ctx, ready]

theorem exec_waitTick_holds (inside : s.sched.fgWait = true) (waits : s.sched.loopReady = false) :
    exec .waitTick s = .next s := by
  simp [exec, execWaitTick, inside, waits]

end waitTick

/-! ### DISP_SET_DIGIT (R126) -/

theorem digitCodeOk_eq_true {v : BitVec 4} (h : v.toNat ≤ 9 ∨ v.toNat = 15) : digitCodeOk v = true := by
  revert v
  decide

/-- DISP_SET_DIGIT does not refuse a legal code (R126). -/
theorem admitted_of_digitCodeOk {v : BitVec 4} (legal : digitCodeOk v = true) : ¬(10 ≤ v.toNat ∧ v ≠ blank) := by
  revert v
  decide

theorem exec_dispSetDigit_legal {val : BitVec 4} (legal : digitCodeOk val = true) (pos : BitVec 2) (s : State) :
    exec (.dispSetDigit pos val) s =
      .next ({ s with sched := { s.sched with digits := s.sched.digits.set pos val } }).advance :=
  if_neg (admitted_of_digitCodeOk legal)

theorem exec_dispSetDigit_reserved {val : BitVec 4} (reserved : digitCodeOk val = false) (pos : BitVec 2) (s : State) :
    exec (.dispSetDigit pos val) s = .refused .refusedOperand :=
  if_pos <| Classical.not_not.mp fun admitted => by
    rw [digitCodeOk_of_admitted admitted] at reserved
    cases reserved

end Sys2Proof.Machine
end

section
open Sys2Proof Sys2Proof.Machine

/-- Settles O18: the granted read is the refresh's one transaction, after which the handler writes nothing. -/
theorem isrSlowRefreshesTime : Obligations.IsrSlowRefreshesTime := by
  intro s t0 idle granted decodes
  have done := refresh_decoded (readSeconds_granted 2 idle granted) decodes
  exact ⟨_, exec_isrSlow_of_done done, rfl, rfl, ⟨rfl, rfl, rfl, rfl, rfl⟩, rfl, rfl, rfl, rfl, rfl⟩

/-- Settles O8: the step of the agent whose turn it is. -/
theorem stepRunsTheTimers : Obligations.StepRunsTheTimers := by
  refine fun s => ⟨fun fast => ?_, fun slow => ?_⟩
  · rw [step, fast, agentStep]
  · rw [step, slow, agentStep]

/-- Settles O16: each event is its one meaning, in every state. -/
theorem timerEventsSetPending : Obligations.TimerEventsSetPending :=
  ⟨decodeOfEncode .tmrFast rfl, decodeOfEncode .tmrSlow rfl, fun _ => ⟨rfl, rfl⟩⟩

/-- Settles O17: the body's two counters as numbers; the output and the log follow the new selector. -/
theorem isrFastBody : Obligations.IsrFastBody :=
  ⟨decodeOfEncode .isrFast rfl, fun s => ⟨s.sched.sel + 1, nextFade s.sched.fade, s.sched.fastBody.outVal,
    nextSel_toNat _, nextFade_toNat _, s.sched.fastBody_outVal_eq, rfl⟩⟩

/-- Settles O19: the entry, the completion and the hold. -/
theorem waitTickSteps : Obligations.WaitTickSteps :=
  ⟨fun _ => exec_waitTick_enters, fun _ inside => ⟨exec_waitTick_completes inside, exec_waitTick_holds inside⟩⟩

/-- Settles O20: a legal code is written to its one digit, which the next ISR_FAST at the position drives; a reserved
one is refused. -/
theorem dispSetDigitResult : Obligations.DispSetDigitResult := by
  refine fun s pos val => ⟨fun named => ?_, fun lo hi => exec_dispSetDigit_reserved (digitCodeOk_eq_false lo hi) pos s⟩
  have legal := digitCodeOk_eq_true named
  have drives := s.sched.fastBody_outVal_set pos val
  refine ⟨decodeOfEncode (.dispSetDigit pos val) legal, s.sched.digits.set pos val, ?_, fun q other => ?_,
    exec_dispSetDigit_legal legal pos s, _, _, rfl, rfl, fun elsewhere => ?_, fun here on => ?_⟩
  · rw [Digits.get_set, if_pos rfl]
  · rw [Digits.get_set, if_neg other]
  · exact drives.trans (if_neg fun h => elsewhere h.1)
  · exact drives.trans (if_pos ⟨here, on⟩)

/-- Settles O21: the command writes `disp_on`, without which the fast handler drives BLANK. -/
theorem dispSetModeResult : Obligations.DispSetModeResult :=
  ⟨decodeOfEncode (.dispSetMode false) rfl, decodeOfEncode (.dispSetMode true) rfl, fun _ => ⟨fun _ => rfl, fun off =>
    ⟨_, rfl, Scheduler.fastBody_outVal_off off, rfl, off⟩⟩⟩

end

section
/-!
SUPPORT. The dispatch agent's turn (spec/60_exceptions.md R145 to R151) and the turns that have no step
(spec/70_reset_and_hazards.md R176, R183): which tick is taken, the handler that runs between entry and return, and how
the outcome of its body ends the step.
-/

namespace Sys2Proof.Machine

/-! ### Which tick a dispatch takes (R145, R146) -/

/-- With no tick pending there is none to take. -/
@[simp] theorem pickTick_none (p : TickPriority) (prefer : Tick) : pickTick p prefer false false = none := rfl

/-- While dispatch is enabled it takes the tick of R146. -/
theorem dispatchChoice_enabled {s : State} (prefer : Tick) (hung : s.hung = false) (ie : s.sched.ie = true)
    (ctx : s.sched.ctx = .fg) :
    dispatchChoice prefer s = pickTick s.par.tickPriority prefer s.sched.fastPending s.sched.slowPending := by
  simp [dispatchChoice, hung, ie, ctx]

/-- The reasons of R147 and R183 for a dispatch to take no tick. -/
theorem dispatchChoice_none {s : State} (prefer : Tick)
    (reason : s.sched.ie = false ∨ s.sched.ctx ≠ .fg ∨ s.hung = true ∨
      (s.sched.fastPending = false ∧ s.sched.slowPending = false)) : dispatchChoice prefer s = none := by
  rcases reason with masked | inHandler | hung | ⟨fast, slow⟩
  · simp [dispatchChoice, masked]
  · simp [dispatchChoice, inHandler]
  · simp [dispatchChoice, hung]
  · simp [dispatchChoice, fast, slow]

@[simp] theorem dispatchChoice_consumeTurn (prefer : Tick) (s : State) :
    dispatchChoice prefer s.consumeTurn = dispatchChoice prefer s := by
  simp [dispatchChoice]

/-! ### The dispatch turn: entry, body, return (R147) -/

section dispatch

variable {s : State} {prefer : Tick}

theorem step_dispatch_none (hτ : s.turn = .dispatch prefer) (choice : dispatchChoice prefer s = none) :
    step s = .next s.consumeTurn := by
  rw [step, hτ, agentStep, dispatchStep, dispatchChoice_consumeTurn, choice]

theorem step_dispatch_some {x : Tick} (hτ : s.turn = .dispatch prefer) (choice : dispatchChoice prefer s = some x) :
    step s = afterHandler (exec (handlerOf x) (enterHandler x s.consumeTurn)) := by
  rw [step, hτ, agentStep, dispatchStep, dispatchChoice_consumeTurn, choice]

end dispatch

theorem afterHandler_returns {t : State} (ends : t.hung = false) : afterHandler (.next t) = .next (leaveHandler t) := by
  rw [afterHandler, if_neg (by simp [ends])]

theorem afterHandler_hangs {t : State} (hangs : t.hung = true) : afterHandler (.next t) = .next t := if_pos hangs

/-- ISR_FAST has no bus wait, so its dispatch always returns. -/
theorem afterHandler_isrFast {s : State} (hung : s.hung = false) :
    afterHandler (exec .isrFast (enterHandler .fast s)) = .next (fastDispatched s) :=
  afterHandler_returns (by simpa using hung)

/-- The fast tick's whole effect: its entry and return leave `ie` and `ctx` as a dispatch finds them (R123, R147). -/
theorem fastDispatched_eq {s : State} (ie : s.sched.ie = true) (ctx : s.sched.ctx = .fg) :
    fastDispatched s = { s with sched := { s.sched.fastBody with fastPending := false } } :=
  calc fastDispatched s
    _ = { s with sched := { s.sched.fastBody with fastPending := false, ie := true, ctx := .fg } } := rfl
    _ = { s with sched := { s.sched.fastBody with fastPending := false } } := by rw [← ie, ← ctx]; rfl

/-! ### The foreground without a step (R176, R183) -/

/-- The reasons of R22, R148 and R183 for the foreground to have no command to run. -/
theorem foregroundStep_rests {s : State}
    (reason : s.fg.prog.length ≤ s.fg.pc ∨ s.sched.ctx ≠ .fg ∨ s.hung = true) : foregroundStep s = .next s := by
  rcases reason with atEnd | inHandler | hung
  · have word : commandWord s = none := List.getElem?_eq_none atEnd
    rw [foregroundStep, word]
    exact ite_self _
  · simp [foregroundStep, foregroundEnabled, inHandler]
  · simp [foregroundStep, foregroundEnabled, hung]

end Sys2Proof.Machine
end

section
/-!
SUPPORT. Reading `time` while it is unwritten (spec/60_exceptions.md R142): the halt and the mutations that meet it, and
the bus data register, which a read of one byte that fails leaves (spec/41_bus.md R83).
-/

namespace Sys2Proof.Machine

/-! ### What leaves `bus_data` -/

/-- If the operation is done, `bus_data` is `d`. -/
def BusOut.LeavesData {α : Type} (d : Option Byte) (x : BusOut α) : Prop :=
  match x with
  | .done _ v => v.data = d
  | .hang _ => True

section leavesData

variable {d : Option Byte} {u : BusUnit}

theorem BusOut.LeavesData.andThen {α β : Type} {x : BusOut α} {f : α → BusUnit → BusOut β} (hx : x.LeavesData d)
    (hf : ∀ a v, v.data = d → (f a v).LeavesData d) : (x.andThen f).LeavesData d := by
  cases x with
  | hang v => trivial
  | done a v => exact hf a v hx

theorem busAction_leavesData (bound : Option Nat) (e : WireEvent) (data : u.data = d) :
    (busAction bound e u).LeavesData d := by
  have taken : (u.emit e).consume.data = d := by simpa using data
  unfold busAction
  split
  · exact taken
  · exact taken
  · trivial

theorem engineBegin_leavesData (p : Params) (b : Byte) (data : u.data = d) : (engineBegin p b u).LeavesData d := by
  refine (busAction_leavesData _ _ data).andThen fun a v data => ?_
  rcases a with _ | a
  · exact data
  · dsimp only
    split
    · exact data
    · refine (busAction_leavesData _ _ data).andThen fun c w data => ?_
      rcases c with _ | c
      · exact data
      · dsimp only
        split <;> exact data

theorem engineWrite_leavesData (p : Params) (b : Byte) (data : u.data = d) : (engineWrite p b u).LeavesData d := by
  refine (busAction_leavesData _ _ data).andThen fun a v data => ?_
  rcases a with _ | a
  · exact data
  · dsimp only
    split <;> exact data

theorem seqIfOk_leavesData {x y : BusUnit → BusOut BusResult} (hx : (x u).LeavesData d)
    (hy : ∀ v, v.data = d → (y v).LeavesData d) : (seqIfOk x y u).LeavesData d := by
  refine BusOut.LeavesData.andThen hx fun r v data => ?_
  split
  · exact hy v data
  · exact data

/-- Before its data bytes a MemRead receives none (R46). -/
theorem openChipForRead_leavesData (p : Params) (reg : Byte) (u : BusUnit) :
    (openChipForRead p reg u).LeavesData u.data :=
  seqIfOk_leavesData (seqIfOk_leavesData (engineBegin_leavesData p _ rfl) fun _ => engineWrite_leavesData p reg)
    fun _ => engineBegin_leavesData p _

end leavesData

/-- A read that fails leaves `bus_data` (R83). -/
theorem engineRead_error_data {p : Params} {last : Bool} {u v : BusUnit} {rb : BusResult × Option Byte}
    (h : engineRead p last u = .done rb v) (err : rb.1 ≠ .ok) : v.data = u.data := by
  obtain ⟨a, w, action, h⟩ := BusOut.andThen_eq_done.mp h
  have data : (busAction (some p.readPollLimit) (.read last) u).LeavesData u.data := busAction_leavesData _ _ rfl
  rw [action] at data
  rcases a with _ | a
  · cases h; exact data
  · dsimp only at h
    split at h
    · cases h; exact data
    · cases h; exact absurd rfl err

/-- The one data byte of a read that fails leaves `bus_data`. -/
theorem readBytes_one_error_data {p : Params} {u v : BusUnit} {rb : BusResult × List Byte}
    (h : readBytes p 1 u = .done rb v) (err : rb.1 ≠ .ok) : v.data = u.data := by
  obtain ⟨⟨r, ob⟩, w, first, h⟩ := BusOut.andThen_eq_done.mp h
  dsimp only at h
  split at h
  · cases h; exact absurd rfl err
  · next r' ob' _ heq =>
    cases heq
    cases h
    exact engineRead_error_data first err

/-- A MemRead of one byte that fails, at whichever action, leaves `bus_data` (R46, R48, R83). -/
theorem memRead_one_error_data {p : Params} {reg : Byte} {u v : BusUnit} {rb : BusResult × List Byte}
    (h : memRead p reg 1 u = .done rb v) (err : rb.1 ≠ .ok) : v.data = u.data := by
  rw [memRead_eq, BusOut.andThen_eq_done] at h
  obtain ⟨r, w, opening, h⟩ := h
  have data := openChipForRead_leavesData p reg u
  rw [opening] at data
  split at h
  · obtain ⟨rb', x, read, h⟩ := BusOut.andThen_eq_done.mp h
    cases h
    exact (readBytes_one_error_data read err).trans data
  · cases h
    exact data

/-! ### The reads of an unwritten `time` (R142) -/

/-- After a failed read a halt has no byte to capture but the in-memory seconds (R93). -/
theorem haltByte_unwritten {rb : BusResult × List Byte} (err : rb.1 ≠ .ok) : haltByte none rb = none := by
  refine Option.eq_none_iff_forall_ne_some.mpr fun b hb => ?_
  obtain ⟨-, inMemory⟩ := (haltByte_eq_some fun ok => absurd ok err).mp hb
  obtain ⟨t, written, -⟩ := inMemory err
  cases written

section unwritten

variable {s : State}

theorem halt_unwritten {rb : BusResult × List Byte} {u : BusUnit} (unwritten : s.tk.time = none)
    (read : memRead s.par regSeconds 1 s.bus = .done rb u) (err : rb.1 ≠ .ok) :
    halt s = .fault (.unwritten { s with bus := u }) := by
  rw [halt, readChip_eq read, Flow.andThen_done, unwritten, haltByte_unwritten err]

/-- The adjustments read `time` before any bus action (R96, R97). -/
theorem mutateTime_unwritten (new : TimeRec → TimeRec) (reg : Byte) (byte : TimeRec → Byte)
    (unwritten : s.tk.time = none) : mutateTime new reg byte s = .fault (.unwritten s) := by
  rw [mutateTime, unwritten]

theorem toggleBody_of_haltFault {e : Fault} (faults : halt s = .fault e) : toggleBody s = .fault e := by
  rw [toggleBody, faults]
  rfl

/-- A toggle converts the time that its re-read leaves, if there is one (R98). -/
theorem toggleBody_unwritten {v w : State} {r1 r2 : BusResult} (halted : halt s = .done r1 v)
    (refreshed : refresh v = .done r2 w) (unwritten : w.tk.time = none) : toggleBody s = .fault (.unwritten w) := by
  rw [toggleBody, halted, Flow.andThen_done, refreshed, Flow.andThen_done, unwritten]

end unwritten

end Sys2Proof.Machine
end

section
open Sys2Proof Sys2Proof.Machine

/-- Settles O9: dispatch is enabled, and ISR_FAST runs between an entry and a return that restore `ie` and `ctx`. -/
theorem dispatchOfTheFastTick : Obligations.DispatchOfTheFastTick := by
  intro s prefer hτ hung ie ctx pick
  have choice := (dispatchChoice_enabled prefer hung ie ctx).trans pick
  have dispatched : step s = .next (fastDispatched s.consumeTurn) :=
    (step_dispatch_some hτ choice).trans (afterHandler_isrFast (by simpa using hung))
  rw [dispatched, fastDispatched_eq (by simpa using ie) (by simpa using ctx), State.consumeTurn_sched]
  rfl

/-- Settles O10: the outcome of ISR_SLOW's body, from the state of the handler's entry, ends the step. -/
theorem dispatchOfTheSlowTick : Obligations.DispatchOfTheSlowTick := by
  intro s e prefer hτ hung ie ctx pick he
  have choice := (dispatchChoice_enabled prefer hung ie ctx).trans pick
  have entry : enterHandler .slow s.consumeTurn = e := by rw [he, enterHandler, State.consumeTurn_sched]
  have dispatched : step s = afterHandler (exec .isrSlow e) := entry ▸ step_dispatch_some hτ choice
  rw [dispatched]
  refine ⟨fun t body ends => ?_, fun t body hangs => ?_, fun f body => ?_⟩
  · rw [body, afterHandler_returns ends, leaveHandler]
  · rw [body, afterHandler_hangs hangs]
  · rw [body, afterHandler]

/-- Settles O41: the adjustments read `time` first; a toggle reads it in its halt if the halt read failed, and else
after its re-read. -/
theorem unwrittenTimeFaults : Obligations.UnwrittenTimeFaults := by
  intro s dir unwritten idle
  refine ⟨tkCommand_of_fault idle (mutateTime_unwritten _ _ _ unwritten),
    tkCommand_of_fault idle (mutateTime_unwritten _ _ _ unwritten), fun rb u read err => ?_,
    fun h r2 rr u1 u2 u3 read stop reread err => ?_⟩
  · obtain ⟨stopped, result, -⟩ := memRead_end read
    exact ⟨tkCommand_of_fault idle (toggleBody_of_haltFault (halt_unwritten unwritten read err)), stopped, result,
      memRead_one_error_data read err⟩
  · obtain ⟨stopped, result, -⟩ := memRead_end reread
    have halted := halt_eq read (captures_of_ok _ _) stop
    have refreshed := refresh_failed (s := { s with bus := u2, tk := { s.tk with haltS := some h } }) reread err
    exact ⟨tkCommand_of_fault idle (toggleBody_unwritten halted refreshed unwritten), stopped, result⟩

/-- Settles O11: each clause is one case of `pickTick`. -/
theorem tickPriorityRule : Obligations.TickPriorityRule := fun p prefer =>
  ⟨rfl, rfl, pickTick_none p prefer, rfl, rfl, rfl⟩

/-- Settles O12: each reason disables the agent whose turn it is. -/
theorem agentWithoutAStep : Obligations.AgentWithoutAStep := by
  refine fun s => ⟨fun prefer hτ reason => step_dispatch_none hτ (dispatchChoice_none prefer reason),
    fun hτ reason => ?_⟩
  rw [step, hτ, agentStep]
  exact foregroundStep_rests (by simpa using reason)

end

section
/-!
SUPPORT. The state after reset holds what the invariant asks (spec/70_reset_and_hazards.md R170, R171), and a hung
thread has no step (spec/70_reset_and_hazards.md R183).
-/

namespace Sys2Proof.Machine

/-! ### Reset -/

/-- The defaults of R7 meet D45, and the free key bands R101. -/
theorem resetParams_ok : Config.resetParams.ok :=
  ⟨by decide, by decide, by decide, by decide, by decide, by decide, Config.keyBands.inOrder⟩

theorem Button.reset_ok {p : Params} (detect : 1 ≤ p.tDetect) : Button.reset.Ok p :=
  .ofIdle rfl detect rfl rfl rfl rfl rfl rfl

theorem State.reset_unitsOk : State.reset.UnitsOk where
  par := resetParams_ok
  digits := by unfold Digits.Legal; decide
  outVal := by decide
  fade := by decide
  bus := ⟨fun error => absurd rfl error, nofun⟩
  time := nofun
  buttons i := by cases i <;> exact Button.reset_ok resetParams_ok.1

theorem State.reset_controlOk : State.reset.ControlOk where
  ie := rfl
  handler inHandler := absurd rfl inHandler
  loopReady _ := rfl
  waiting := nofun

/-! ### A hang -/

/-- While the thread hangs a step takes its turn, and at most sets a pending bit (R183). -/
theorem step_of_hung {s : State} (hung : s.hung = true) : ∃ fast slow, step s = .next { s.consumeTurn with
    sched := { s.sched with fastPending := fast, slowPending := slow } } := by
  rw [← s.consumeTurn_sched]
  cases hτ : s.turn with
  | foreground => exact ⟨_, _, (agentWithoutAStep s).2 hτ (.inr (.inr hung))⟩
  | fastTimer => exact ⟨true, _, (stepRunsTheTimers s).1 hτ⟩
  | slowTimer => exact ⟨_, true, (stepRunsTheTimers s).2 hτ⟩
  | dispatch prefer => exact ⟨_, _, (agentWithoutAStep s).1 prefer hτ (.inr (.inr (.inl hung)))⟩

end Sys2Proof.Machine
end

section
/-!
SUPPORT. Runs with no hang, and fair ones (spec/70_reset_and_hazards.md R189): what the foreground's turn does at a
command, what every turn keeps while the foreground waits, and that the waits and the program come to their end.
-/

namespace Sys2Proof.Machine

/-- What is kept until something comes about, and is not kept for ever, lets it come about. -/
theorem comesAbout_of_not_kept {P Q : Nat → Prop} {n : Nat} (start : P n)
    (keeps : ∀ m, n ≤ m → P m → P (m + 1) ∨ Q (m + 1)) (leaves : ¬∀ m, n ≤ m → P m) : ∃ m, n < m ∧ Q m := by
  by_contra never
  refine leaves fun m hm => ?_
  induction m, hm using Nat.le_induction with
  | base => exact start
  | succ m hm ih => exact (keeps m hm ih).resolve_right fun comes => never ⟨m + 1, by omega, comes⟩

/-! ### A step while the foreground waits -/

/-- What a step inside WAIT_TICK keeps until the completion: a fast tick stays pending until its handler has run, and
then `loop_ready` stays set (R123, R125). -/
structure KeepsWaiting (s t : State) : Prop where
  fg : t.fg = s.fg
  fgWait : t.sched.fgWait = true
  fastPending : s.sched.fastPending = true → t.sched.fastPending = true ∨ t.sched.loopReady = true
  loopReady : s.sched.loopReady = true → t.sched.loopReady = true

theorem AgentMove.waiting {τ : Turn} {s t : State} (h : AgentMove τ s t) (hs : s.ControlOk)
    (waits : s.sched.fgWait = true) : t = completeWait s ∨ KeepsWaiting s t := by
  have inHandler : ∀ v, TimeFrame (enterHandler .slow s) v → KeepsWaiting s v := fun v frame =>
    ⟨by simp [frame.fg], by simp [frame.sched, waits], by rw [frame.sched]; exact .inl, by simp [frame.sched]⟩
  cases h with
  | rests ht => subst ht; exact .inr ⟨rfl, waits, .inl, id⟩
  | runs i _ _ _ word _ ne _ => simp [hs.not_waiting word ne] at waits
  | entersWait _ _ _ _ out _ _ => simp [out] at waits
  | completesWait _ _ ht => exact .inl ht
  | fastTimer _ ht => subst ht; exact .inr ⟨rfl, waits, fun _ => .inl rfl, id⟩
  | slowTimer _ ht => subst ht; exact .inr ⟨rfl, waits, .inl, id⟩
  | dispatchesFast _ _ _ ht => subst ht; exact .inr ⟨rfl, waits, fun _ => .inr rfl, fun _ => rfl⟩
  | refreshes _ v _ _ frame _ _ ht => subst ht; exact .inr { inHandler v frame with }
  | hangsInRefresh _ v _ _ frame _ ht => subst ht; exact .inr { inHandler v frame with }

/-! ### Runs with no hang -/

/-- A run in the invariant of which no bus wait hangs: R189's first assumption. -/
structure UnhungRun (sched : Nat → Turn) (r : Nat → State) : Prop where
  run : RunUnder sched r
  inv : ∀ n, (r n).Inv
  waitsEnd : WaitsEnd r

theorem State.Inv.withTurns {s : State} (h : s.Inv) (ts : List Turn) : ({ s with turns := ts } : State).Inv :=
  { h with }

theorem RunUnder.inv {sched : Nat → Turn} {r : Nat → State} (run : RunUnder sched r) (start : (r 0).Inv) (n : Nat) :
    (r n).Inv := by
  induction n with
  | zero => exact start
  | succ n ih => exact stepKeepsTheInvariant _ _ (ih.withTurns _) (run n)

namespace UnhungRun

variable {sched : Nat → Turn} {r : Nat → State} {n m : Nat} (h : UnhungRun sched r)
include h

theorem steps {τ : Turn} (turn : sched n = τ) : agentStep τ { r n with turns := [] } = .next (r (n + 1)) := by
  subst turn
  exact h.run n

theorem move (n : Nat) : AgentMove (sched n) { r n with turns := [] } (r (n + 1)) := step_move (h.run n)

/-- With no hang no handler is left holding the thread. -/
theorem ctx (n : Nat) : (r n).sched.ctx = .fg := by
  by_contra inHandler
  have hangs := ((h.inv n).handler inHandler).2.1
  simp [h.waitsEnd n] at hangs

theorem ie_eq_fgWait (n : Nat) : (r n).sched.ie = (r n).sched.fgWait := by
  simpa [h.ctx n] using (h.inv n).ie

theorem prog_eq (n : Nat) : (r n).fg.prog = (r 0).fg.prog := by
  induction n with
  | zero => rfl
  | succ n ih => exact (pcMovesByOne _ _ (h.run n)).2.1.trans ih

theorem pc_succ (n : Nat) : (r (n + 1)).fg.pc = (r n).fg.pc ∨ (r (n + 1)).fg.pc = (r n).fg.pc + 1 :=
  (pcMovesByOne _ _ (h.run n)).2.2.imp_right And.right

/-- The word at `pc` depends on nothing else, because the program stays. -/
theorem commandWord_eq (pc : (r m).fg.pc = (r n).fg.pc) : commandWord (r m) = commandWord (r n) := by
  rw [commandWord, commandWord, h.prog_eq m, h.prog_eq n, pc]

/-- On its turn the foreground, which always owns the thread, runs the command at `pc`. -/
theorem runs_command {w : Word} (turn : sched n = .foreground) (word : commandWord (r n) = some w) :
    ∃ i, decode w = .ok i ∧ i.isAgentEvent = false ∧ exec i { r n with turns := [] } = .next (r (n + 1)) := by
  rcases foregroundStep_cases (h.steps turn) with ⟨-, hung | inHandler | none⟩ | ⟨w', i, -, -, word', dec, agent, runs⟩
  · exact absurd hung (by simp [h.waitsEnd n])
  · exact absurd (h.ctx n) inHandler
  · exact absurd (word.symm.trans none) (by simp)
  · obtain rfl : w = w' := Option.some.inj (word.symm.trans word')
    exact ⟨i, dec, agent, runs⟩

/-- A command other than WAIT_TICK completes on the foreground's turn. -/
theorem pc_of_command {w : Word} (turn : sched n = .foreground) (word : commandWord (r n) = some w)
    (ne : w ≠ 0x1000#16) : (r (n + 1)).fg.pc = (r n).fg.pc + 1 := by
  obtain ⟨i, dec, agent, runs⟩ := h.runs_command turn word
  have notWait : i ≠ .waitTick := fun e => ne (decode_eq_waitTick (e ▸ dec))
  rcases (exec_moves agent notWait runs).moves with ⟨pc, -⟩ | ⟨-, hung⟩
  · exact pc
  · exact absurd hung (by simp [h.waitsEnd (n + 1)])

/-- At WAIT_TICK the foreground's turn leaves it waiting there, or is the completion, which it always is once
`loop_ready` is set. -/
theorem waits_or_pc (turn : sched n = .foreground) (word : commandWord (r n) = some 0x1000#16) :
    ((r (n + 1)).sched.fgWait = true ∧ (r (n + 1)).fg.pc = (r n).fg.pc ∧ (r n).sched.loopReady = false) ∨
    (r (n + 1)).fg.pc = (r n).fg.pc + 1 := by
  obtain ⟨i, dec, -, runs⟩ := h.runs_command turn word
  obtain rfl : Instr.waitTick = i := Except.ok.inj (Eq.trans (by decide) dec)
  rcases execWaitTick_cases runs with ⟨entry, e⟩ | ⟨-, -, -, e⟩ | ⟨inside, notReady, e⟩ <;> rw [e]
  · exact .inl ⟨rfl, rfl, (h.inv n).loopReady entry⟩
  · exact .inr rfl
  · exact .inl ⟨inside, rfl, by simpa [h.ctx n] using notReady⟩

theorem completes_or_keepsWaiting (waits : (r n).sched.fgWait = true) :
    r (n + 1) = completeWait { r n with turns := [] } ∨ KeepsWaiting (r n) (r (n + 1)) :=
  ((h.move n).waiting (State.inv_iff.mp ((h.inv n).withTurns [])).2 waits).imp_right fun kept => { kept with }

theorem keepsWaiting (waits : (r n).sched.fgWait = true) (still : (r (n + 1)).sched.fgWait = true) :
    KeepsWaiting (r n) (r (n + 1)) :=
  (h.completes_or_keepsWaiting waits).resolve_left fun e => by simp [e] at still

theorem fastPending_of_turn (turn : sched n = .fastTimer) : (r (n + 1)).sched.fastPending = true := by
  rw [← Host.Outcome.next.inj (h.steps turn)]

/-- The dispatch of the fast tick clears its pending bit and sets `loop_ready`. -/
theorem loopReady_of_dispatch (dispatched : dispatchesAt sched r .fast n) :
    (r (n + 1)).sched.fastPending = false ∧ (r (n + 1)).sched.loopReady = true := by
  obtain ⟨prefer, turn, choice⟩ := dispatched
  rcases dispatchStep_cases (h.steps turn) with ⟨none, -⟩ | ⟨-, e⟩ | ⟨slow, -⟩
  · cases choice.symm.trans none
  · rw [e]; exact ⟨rfl, rfl⟩
  · cases choice.symm.trans slow

end UnhungRun

/-! ### Fair runs -/

/-- R189's fairness (log 27). -/
structure FairRun (sched : Nat → Turn) (r : Nat → State) : Prop extends UnhungRun sched r where
  foreground : Recurs sched .foreground
  fastTimer : Recurs sched .fastTimer
  dispatch : FairDispatch sched r

namespace FairRun

variable {sched : Nat → Turn} {r : Nat → State} {n : Nat} (h : FairRun sched r)
include h

/-- While the foreground waits, a pending fast tick is dispatched and sets `loop_ready`. -/
theorem loopReady_of_fastPending (waits : ∀ m, n ≤ m → (r m).sched.fgWait = true)
    (pending : (r n).sched.fastPending = true) : ∃ m, n < m ∧ (r m).sched.loopReady = true := by
  refine comesAbout_of_not_kept (P := fun m => (r m).sched.fastPending = true) pending
    (fun m hm => (h.keepsWaiting (waits m hm) (waits (m + 1) (by omega))).fastPending) fun always => ?_
  obtain ⟨m, hm, dispatched⟩ :=
    h.dispatch .fast n fun m hm => ⟨(h.ie_eq_fgWait m).trans (waits m hm), h.ctx m, always m hm⟩
  have cleared := (h.loopReady_of_dispatch dispatched).1
  simp [always (m + 1) (by omega)] at cleared

theorem not_waits_forever (n : Nat) : ¬∀ m, n ≤ m → (r m).sched.fgWait = true := by
  intro waits
  have kept : ∀ m, n ≤ m → KeepsWaiting (r m) (r (m + 1)) := fun m hm =>
    h.keepsWaiting (waits m hm) (waits (m + 1) (by omega))
  obtain ⟨k, hk, timer⟩ := h.fastTimer n
  obtain ⟨l, hl, ready⟩ :=
    h.loopReady_of_fastPending (fun m hm => waits m (by omega)) (h.fastPending_of_turn timer)
  obtain ⟨m, hm, turn⟩ := h.foreground l
  have readyThen : (r m).sched.loopReady = true :=
    Nat.le_induction ready (fun i hi => (kept i (by omega)).loopReady) m hm
  rcases h.waits_or_pc turn ((h.inv m).waiting (waits m (by omega))).1 with ⟨-, -, notReady⟩ | pc
  · simp [readyThen] at notReady
  · simp [(kept m (by omega)).fg] at pc

/-- Every WAIT_TICK entered is completed. -/
theorem wait_completes (waits : (r n).sched.fgWait = true) : ∃ m, n < m ∧ (r m).sched.fgWait = false ∧
    (r m).sched.ie = false ∧ (r m).fg.pc = (r n).fg.pc + 1 := by
  refine comesAbout_of_not_kept (P := fun m => (r m).sched.fgWait = true ∧ (r m).fg = (r n).fg) ⟨waits, rfl⟩
    (fun m _ hP => ?_) fun always => h.not_waits_forever n fun m hm => (always m hm).1
  obtain ⟨waiting, fg⟩ := hP
  rcases h.completes_or_keepsWaiting waiting with e | kept
  · exact .inr (by simp [e, fg])
  · exact .inl ⟨kept.fgWait, kept.fg.trans fg⟩

/-- Every command of the program is completed. -/
theorem pc_advances (inside : (r n).fg.pc < (r n).fg.prog.length) : ∃ m, n < m ∧ (r m).fg.pc = (r n).fg.pc + 1 := by
  refine comesAbout_of_not_kept (P := fun m => (r m).fg.pc = (r n).fg.pc) rfl
    (fun m _ pc => pc ▸ h.pc_succ m) fun always => ?_
  have waitEnds : ∀ m, n ≤ m → (r m).sched.fgWait = false := fun m hm => by
    by_contra waits
    obtain ⟨l, hl, -, -, pc⟩ := h.wait_completes (by simpa using waits)
    have stays := always l (by omega)
    have before := always m hm
    omega
  obtain ⟨m, hm, turn⟩ := h.foreground n
  have word : commandWord (r m) = some (r n).fg.prog[(r n).fg.pc] :=
    (h.commandWord_eq (always m hm)).trans (List.getElem?_eq_getElem inside)
  have stays : (r (m + 1)).fg.pc ≠ (r m).fg.pc + 1 := by
    rw [always (m + 1) (by omega), always m hm]
    omega
  by_cases ne : (r n).fg.prog[(r n).fg.pc] = 0x1000#16
  · rcases h.waits_or_pc turn (word.trans (congrArg some ne)) with ⟨waits, -⟩ | pc
    · simp [waitEnds (m + 1) (by omega)] at waits
    · exact stays pc
  · exact stays (h.pc_of_command turn word ne)

/-- With `pc` at the end of the program the foreground is in no WAIT_TICK, so interrupts are off (R176). -/
theorem atEnd_of_pc (pc : (r n).fg.pc = (r n).fg.prog.length) : AtEnd (r n) := by
  have out : (r n).sched.fgWait = false := by
    by_contra waits
    obtain ⟨word, -⟩ := (h.inv n).waiting (by simpa using waits)
    rw [commandWord, List.getElem?_eq_none pc.ge] at word
    cases word
  exact ⟨pc, out, (h.ie_eq_fgWait n).trans out⟩

theorem reaches_end {k : Nat} (left : (r n).fg.pc + k = (r n).fg.prog.length) : ∃ m, AtEnd (r m) := by
  induction k generalizing n with
  | zero => exact ⟨n, h.atEnd_of_pc left⟩
  | succ k ih =>
    obtain ⟨m, -, pc⟩ := h.pc_advances (by omega : (r n).fg.pc < (r n).fg.prog.length)
    exact ih (by rw [pc, h.prog_eq m, ← h.prog_eq n]; omega)

end FairRun

end Sys2Proof.Machine
end

section
open Sys2Proof Sys2Proof.Machine

/-- Settles O14: the units and the control registers each hold what the invariant asks. -/
theorem resetMeetsTheInvariant : Obligations.ResetMeetsTheInvariant :=
  State.inv_iff.mpr ⟨State.reset_unitsOk, State.reset_controlOk⟩

/-- Settles O59: of a hung thread no agent but the timers has a step. -/
theorem hungThreadIsFrozen : Obligations.HungThreadIsFrozen := by
  intro s hung
  obtain ⟨fast, slow, steps⟩ := step_of_hung hung
  exact ⟨_, steps, by simp, by simp, by simp, by simp, by simp, by simpa using hung, rfl⟩

/-- Settles O60: a fair run waits for no fast tick for ever, so each command of the program is completed in its turn. -/
theorem fairRunsReachTheEnd : Obligations.FairRunsReachTheEnd := by
  intro sched r run start waitsEnd
  have unhung : UnhungRun sched r := ⟨run, run.inv start, waitsEnd⟩
  refine ⟨fun n w => unhung.pc_of_command, fun foreground fastTimer dispatch => ?_⟩
  have fair : FairRun sched r := ⟨unhung, foreground, fastTimer, dispatch⟩
  exact ⟨fun n => fair.wait_completes, fun inside => fair.reaches_end (Nat.add_sub_cancel' inside)⟩

end
